-- ==== Sys2Proof/Word.lean ====
section
/-! DEFINITION. The words of HUFFCORE: the widths 00_scope.md rules R4 and R5 and 30_encoding.md rule R60 give. -/

namespace Sys2Proof

/-- A symbol, an input byte, a payload byte, an output byte or a register number: 8 bits (R4, R60). -/
abbrev Byte := BitVec 8

/-- A frequency, a counter, an immediate or a response value: 64 bits unsigned (R4, R60, R70). -/
abbrev Word64 := BitVec 64

/-- An arena index: 9 bits (R5, R20). -/
abbrev NodeIx := BitVec 9

/-- A command word: 80 bits (R60). -/
abbrev CmdWord := BitVec 80

/-- A response word: 72 bits (R70). -/
abbrev RspWord := BitVec 72

end Sys2Proof
end

