-- ==== Sys2Proof/Config.lean ====
section
/-! DEFINITION. The parameters of 00_scope.md rules R4 and R5. The block has one configuration and no open parameter; MAGIC
(R51, decision D25) belongs to the host's container alone and is an argument of the functions in
Sys2Proof/Machine/Container.lean, with the spec's default here. No free value is needed: 93_implementation_defined.md says that
every pair (state, command word) has exactly one result. -/

namespace Sys2Proof.Config

/-- The alphabet has exactly 256 symbols (R4). -/
def symbols : Nat := 256

/-- The longest code, 255 bits (R5, R23). -/
def maxCodeLength : Nat := 255

/-- The default of the host-side parameter MAGIC: ASCII "HUB1" (R5, R51). -/
def defaultMagic : List Byte := [0x48, 0x55, 0x42, 0x31]

end Sys2Proof.Config
end

