-- ==== Sys2Proof/Syntax.lean ====
section
/-! DEFINITION. The eighteen commands of 30_encoding.md rule R63, one constructor per row of spec/opcode_table.json, with the
operands rule R62 assembles. -/

namespace Sys2Proof

/-- One constructor per command (R63). -/
inductive Instr where
  /-- `NOP` (R130) -/
  | nop
  /-- `CLR` (R131) -/
  | clr
  /-- `RDREG r` (R132) -/
  | rdreg (r : Byte)
  /-- `WRREG r, v` (R133) -/
  | wrreg (r : Byte) (v : Word64)
  /-- `ACC b` (R80) -/
  | acc (b : Byte)
  /-- `LDF s, f` (R81) -/
  | ldf (s : Byte) (f : Word64)
  /-- `RDF s` (R82) -/
  | rdf (s : Byte)
  /-- `BUILD` (R90) -/
  | build
  /-- `RDNF i` (R91) -/
  | rdnf (i : NodeIx)
  /-- `RDNL i` (R92) -/
  | rdnl (i : NodeIx)
  /-- `GEN` (R100) -/
  | gen
  /-- `RDCL s` (R101) -/
  | rdcl (s : Byte)
  /-- `RDCB s, j` (R102) -/
  | rdcb (s : Byte) (j : BitVec 2)
  /-- `ENC b` (R110) -/
  | enc (b : Byte)
  /-- `FLUSH` (R111) -/
  | flush
  /-- `DECBEG` (R120) -/
  | decbeg
  /-- `DEC b` (R121) -/
  | dec (b : Byte)
  /-- `DECEND` (R122) -/
  | decend
  deriving DecidableEq, Repr

end Sys2Proof
end

