-- ==== Sys2Proof/WellFormed.lean ====
section
/-! DEFINITION. The operand limits beyond the field widths (30_encoding.md rules R63 and R66): RDREG takes a register number
0 to 13, WRREG takes 6 or 7. Every other operand is legal at every value its field holds. -/

namespace Sys2Proof

/-- The commands that have an encoding (R63, R66). -/
def Instr.wellFormed : Instr → Bool
  | .rdreg r => r.toNat ≤ 13
  | .wrreg r _ => r == 6 || r == 7
  | .nop => true
  | .clr => true
  | .acc _ => true
  | .ldf _ _ => true
  | .rdf _ => true
  | .build => true
  | .rdnf _ => true
  | .rdnl _ => true
  | .gen => true
  | .rdcl _ => true
  | .rdcb _ _ => true
  | .enc _ => true
  | .flush => true
  | .decbeg => true
  | .dec _ => true
  | .decend => true

end Sys2Proof
end

