-- ==== Sys2Proof/Decode.lean ====
section
/-! DEFINITION. The command word, the decoder and the encoder: 30_encoding.md rules R60 to R68. The decoder is total on
80-bit words; every illegal word is rejected by name. -/

namespace Sys2Proof

/-- The field `op`, bits 79:72 (R60). -/
def opField (w : CmdWord) : Byte := w.extractLsb' 72 8

/-- The field `sym`, bits 71:64 (R60). -/
def symField (w : CmdWord) : Byte := w.extractLsb' 64 8

/-- The field `imm`, bits 63:0 (R60). -/
def immField (w : CmdWord) : Word64 := w.extractLsb' 0 64

/-- The word {op, sym, imm} (R60, R69). -/
def commandWord (op sym : Byte) (imm : Word64) : CmdWord := (op ++ sym) ++ imm

/-- Why a word selects no command (R64, R65, R66). -/
inductive Illegal where
  /-- `op` is not in the table (R65) -/
  | reservedOpcode (op : Byte)
  /-- a field that carries no operand is not zero (R64) -/
  | nonzeroField (op : Byte)
  /-- RDREG or WRREG with a register number it does not accept (R66) -/
  | badRegister (r : Byte)
  deriving DecidableEq, Repr

/-- Format N: `sym` and `imm` must be 0 (R61). -/
def formatN (i : Instr) (w : CmdWord) : Except Illegal Instr :=
  if symField w = 0 ∧ immField w = 0 then .ok i else .error (.nonzeroField (opField w))

/-- Format S: the operand in `sym`, `imm` must be 0 (R61). -/
def formatS (i : Byte → Instr) (w : CmdWord) : Except Illegal Instr :=
  if immField w = 0 then .ok (i (symField w)) else .error (.nonzeroField (opField w))

/-- Format I: the operand in `imm[8:0]`, `sym` and `imm[63:9]` must be 0 (R61). -/
def formatI (i : NodeIx → Instr) (w : CmdWord) : Except Illegal Instr :=
  if symField w = 0 ∧ (immField w).extractLsb' 9 55 = 0 then .ok (i ((immField w).extractLsb' 0 9))
  else .error (.nonzeroField (opField w))

/-- Format SI with a whole 64-bit immediate (R61). -/
def formatSI (i : Byte → Word64 → Instr) (w : CmdWord) : Except Illegal Instr :=
  .ok (i (symField w) (immField w))

/-- Format SI as RDCB has it: the chunk number in `imm[1:0]`, `imm[63:2]` must be 0 (R61). -/
def formatSJ (i : Byte → BitVec 2 → Instr) (w : CmdWord) : Except Illegal Instr :=
  if (immField w).extractLsb' 2 62 = 0 then .ok (i (symField w) ((immField w).extractLsb' 0 2))
  else .error (.nonzeroField (opField w))

/-- The limits on a register number (R66). -/
def checkRegister : Instr → Except Illegal Instr
  | .rdreg r => if (Instr.rdreg r).wellFormed then .ok (.rdreg r) else .error (.badRegister r)
  | .wrreg r v => if (Instr.wrreg r v).wellFormed then .ok (.wrreg r v) else .error (.badRegister r)
  | i => .ok i

/-- The row of rule R63 that `op` selects, with its operands. -/
def decodeRow (w : CmdWord) : Except Illegal Instr :=
  match (opField w).toNat with
  | 0x00 => formatN .nop w
  | 0x01 => formatN .clr w
  | 0x02 => formatS .rdreg w
  | 0x03 => formatSI .wrreg w
  | 0x10 => formatS .acc w
  | 0x11 => formatSI .ldf w
  | 0x12 => formatS .rdf w
  | 0x20 => formatN .build w
  | 0x21 => formatI .rdnf w
  | 0x22 => formatI .rdnl w
  | 0x30 => formatN .gen w
  | 0x31 => formatS .rdcl w
  | 0x32 => formatSJ .rdcb w
  | 0x40 => formatS .enc w
  | 0x41 => formatN .flush w
  | 0x50 => formatN .decbeg w
  | 0x51 => formatS .dec w
  | 0x52 => formatN .decend w
  | _ => .error (.reservedOpcode (opField w))

/-- The decoder: every 80-bit word is one of the eighteen commands with its operands, or illegal (R67). -/
def decode (w : CmdWord) : Except Illegal Instr :=
  match decodeRow w with
  | .ok i => checkRegister i
  | .error e => .error e

/-- The word of a command (R63). -/
def encode : Instr → CmdWord
  | .nop => commandWord 0x00 0 0
  | .clr => commandWord 0x01 0 0
  | .rdreg r => commandWord 0x02 r 0
  | .wrreg r v => commandWord 0x03 r v
  | .acc b => commandWord 0x10 b 0
  | .ldf s f => commandWord 0x11 s f
  | .rdf s => commandWord 0x12 s 0
  | .build => commandWord 0x20 0 0
  | .rdnf i => commandWord 0x21 0 (i.setWidth 64)
  | .rdnl i => commandWord 0x22 0 (i.setWidth 64)
  | .gen => commandWord 0x30 0 0
  | .rdcl s => commandWord 0x31 s 0
  | .rdcb s j => commandWord 0x32 s (j.setWidth 64)
  | .enc b => commandWord 0x40 b 0
  | .flush => commandWord 0x41 0 0
  | .decbeg => commandWord 0x50 0 0
  | .dec b => commandWord 0x51 b 0
  | .decend => commandWord 0x52 0 0

/-- A row of rule R63's table: a word `w` selects it when `w AND mask = pattern`. -/
structure OpcodeRow where
  mnemonic : String
  pattern : CmdWord
  mask : CmdWord
  deriving DecidableEq, Repr

/-- Rule R63's table as the spec prints it (spec/opcode_table.json). The decoder above is written from the formats of rule R61;
that the two agree is a statement about it. -/
def opcodeTable : List OpcodeRow :=
  [⟨"NOP", 0x00000000000000000000, 0xFFFFFFFFFFFFFFFFFFFF⟩,
   ⟨"CLR", 0x01000000000000000000, 0xFFFFFFFFFFFFFFFFFFFF⟩,
   ⟨"RDREG", 0x02000000000000000000, 0xFF00FFFFFFFFFFFFFFFF⟩,
   ⟨"WRREG", 0x03000000000000000000, 0xFF000000000000000000⟩,
   ⟨"ACC", 0x10000000000000000000, 0xFF00FFFFFFFFFFFFFFFF⟩,
   ⟨"LDF", 0x11000000000000000000, 0xFF000000000000000000⟩,
   ⟨"RDF", 0x12000000000000000000, 0xFF00FFFFFFFFFFFFFFFF⟩,
   ⟨"BUILD", 0x20000000000000000000, 0xFFFFFFFFFFFFFFFFFFFF⟩,
   ⟨"RDNF", 0x21000000000000000000, 0xFFFFFFFFFFFFFFFFFE00⟩] ++
  [⟨"RDNL", 0x22000000000000000000, 0xFFFFFFFFFFFFFFFFFE00⟩,
   ⟨"GEN", 0x30000000000000000000, 0xFFFFFFFFFFFFFFFFFFFF⟩,
   ⟨"RDCL", 0x31000000000000000000, 0xFF00FFFFFFFFFFFFFFFF⟩,
   ⟨"RDCB", 0x32000000000000000000, 0xFF00FFFFFFFFFFFFFFFC⟩,
   ⟨"ENC", 0x40000000000000000000, 0xFF00FFFFFFFFFFFFFFFF⟩,
   ⟨"FLUSH", 0x41000000000000000000, 0xFFFFFFFFFFFFFFFFFFFF⟩,
   ⟨"DECBEG", 0x50000000000000000000, 0xFFFFFFFFFFFFFFFFFFFF⟩,
   ⟨"DEC", 0x51000000000000000000, 0xFF00FFFFFFFFFFFFFFFF⟩,
   ⟨"DECEND", 0x52000000000000000000, 0xFFFFFFFFFFFFFFFFFFFF⟩]

/-- Does the word select the row? (R63) -/
def OpcodeRow.selects (row : OpcodeRow) (w : CmdWord) : Bool := w &&& row.mask == row.pattern

/-- The mnemonic of a command, as the table spells it (R63). -/
def Instr.mnemonic : Instr → String
  | .nop => "NOP"
  | .clr => "CLR"
  | .rdreg _ => "RDREG"
  | .wrreg _ _ => "WRREG"
  | .acc _ => "ACC"
  | .ldf _ _ => "LDF"
  | .rdf _ => "RDF"
  | .build => "BUILD"
  | .rdnf _ => "RDNF"
  | .rdnl _ => "RDNL"
  | .gen => "GEN"
  | .rdcl _ => "RDCL"
  | .rdcb _ _ => "RDCB"
  | .enc _ => "ENC"
  | .flush => "FLUSH"
  | .decbeg => "DECBEG"
  | .dec _ => "DEC"
  | .decend => "DECEND"

/-- The 80-bit word of a table row given as `nbits` bits, every bit above them 0 (log 15). -/
def tableWord (nbits w : Nat) : CmdWord := BitVec.ofNat 80 (w % 2 ^ nbits)

/-- What the decoder reads from the word `w` of a table row. -/
def decodeTableWord (nbits w : Nat) : Option Instr :=
  if nbits ≤ 80 then (decode (tableWord nbits w)).toOption else none

end Sys2Proof
end

