-- ==== Sys2Proof/Machine/State.lean ====
section
/-! DEFINITION. The machine's state as 10_state.md gives it: the fourteen scalar registers (rules R12 to R24), the three table
memories (rules R20, R22, R23) and the two ends of the ports (30_encoding.md rules R70 to R72). Plain data; each register has
one home, and the words RDREG reads are computed from it in Sys2Proof/Machine/Flags.lean and Operands.lean. -/

namespace Sys2Proof.Machine

/-- STATUS.PHASE: exactly five values (R12, U6). -/
inductive Phase where
  | count
  | built
  | coded
  | decode
  | done
  deriving DecidableEq, Repr

/-- The eight fault causes (R141, U7); STATUS.FAULT is `none` or one of them. -/
inductive Cause where
  | illegal
  | sequence
  | empty
  | overflow
  | format
  | nocode
  | integrity
  | range
  deriving DecidableEq, Repr

/-- A record of the node arena (R20), the spec's tagged union. The fields R20 says mean nothing and are 0 (`sym` of an Internal
record, `left` and `right` of a Leaf) are not stored; they read 0 (U4, log 11). -/
inductive Node where
  | leaf (sym : Byte) (freq : Word64)
  | internal (freq : Word64) (left right : NodeIx)
  deriving DecidableEq, Repr

/-- What the host puts in: a command word on the command port (R72), or reset by `rst_n` between two commands (R170). -/
inductive HostInput where
  | command (w : CmdWord)
  | reset
  deriving DecidableEq, Repr

/-- A response (R70): the fault cause, `none` when `err = 0`, and the value. -/
structure Response where
  cause : Option Cause
  value : Word64
  deriving DecidableEq, Repr

/-- What leaves the block, in the order it leaves: a byte on the OUT stream (R71) or a response word (R70). -/
inductive PortEvent where
  | byte (b : Byte)
  | response (r : Response)
  deriving DecidableEq, Repr

/-- The whole state. -/
structure State where
  /-- STATUS[2:0], PHASE (R12) -/
  phase : Phase
  /-- STATUS[3], CODEV (R12) -/
  codev : Bool
  /-- STATUS[7:4], FAULT (R12) -/
  fault : Option Cause
  /-- STATUS[8], EXCESS (R12) -/
  excess : Bool
  /-- FINFO (R15) -/
  finfo : BitVec 16
  /-- FIMM (R15) -/
  fimm : Word64
  /-- TOTAL (R13) -/
  total : Word64
  /-- SYMCNT (R14) -/
  symcnt : BitVec 9
  /-- NNODES (R16) -/
  nnodes : BitVec 9
  /-- ROOT (R17) -/
  root : NodeIx
  /-- ORIGLEN (R18) -/
  origlen : Word64
  /-- BITLIMIT (R18) -/
  bitlimit : Word64
  /-- TOTALBITS (R19) -/
  totalbits : Word64
  /-- PACK[7:0], ACC (R19) -/
  acc : BitVec 8
  /-- PACK[10:8], NBITS (R19) -/
  nbits : BitVec 3
  /-- EMITTED (R21) -/
  emitted : Word64
  /-- CONSUMED (R21) -/
  consumed : Word64
  /-- CURSOR (R21) -/
  cursor : NodeIx
  /-- FREQ (R22): canonical list of (symbol, count); an unlisted entry reads 0 (log 8) -/
  freq : List (Nat × Word64)
  /-- NODE (R20): the valid records, record `i` at position `i`; a record past the end holds no value (log 1) -/
  nodes : List Node
  /-- CODE (R23): canonical list of (symbol, code); an unlisted entry reads the empty string, `len = 0` (log 2) -/
  code : List (Nat × List Bool)
  /-- the model's own field: the host's inputs not yet taken, oldest first (R11, R72, log 4) -/
  pending : List HostInput
  /-- the model's own field: what has left on the OUT stream and the response port, oldest first (R70, R71, log 5) -/
  sent : List PortEvent
  deriving DecidableEq, Repr

/-- The state after reset (R29, R171): every register 0, every FREQ entry 0, NODE and CODE holding nothing; no input is waiting
and nothing has left. -/
def State.reset : State where
  phase := .count
  codev := false
  fault := none
  excess := false
  finfo := 0
  fimm := 0
  total := 0
  symcnt := 0
  nnodes := 0
  root := 0
  origlen := 0
  bitlimit := 0
  totalbits := 0
  acc := 0
  nbits := 0
  emitted := 0
  consumed := 0
  cursor := 0
  freq := []
  nodes := []
  code := []
  pending := []
  sent := []

/-- The model's own stops. None is a fault of the spec: those are next states (R145). Each is raised only in a state that breaks
10_state.md rule R28 item 1 or 2, where the spec gives no effect; no run from reset reaches one, so each is safe (log 3). -/
inductive Fault where
  /-- raised by BUILD when SYMCNT is not 0 and FREQ holds no entry, so that rule R90's active set has no element to be the root
  (breaks R28 item 1); safe -/
  | noActiveNode
  /-- raised by RDNF, RDNL, GEN and DEC when an index they read names no valid record (breaks R28 item 2); safe -/
  | nodeAbsent
  /-- raised by GEN when the walk passes the longest code, 255 bits, which CODE has room for (breaks R28 item 2); safe -/
  | codeTooLong
  deriving DecidableEq, Repr

/-- Why a step has no meaning. -/
inductive Refusal where
  /-- an instruction with no meaning in this model, by its mnemonic; raised by no arm of `exec` any more; safe -/
  | notModelled (mnemonic : String)
  deriving DecidableEq, Repr

end Sys2Proof.Machine
end

