-- ==== Sys2Proof/Machine/Ops.lean ====
section
/-! DEFINITION. The shared operations: the tables (10_state.md rules R20, R22, R23), the responses and the OUT stream
(30_encoding.md rules R70, R71), fault entry (60_exceptions.md rule R145), the checks every command goes through (rule R146)
and the return to the reset state (rules R29, R131, R170). -/

namespace Sys2Proof.Machine

/-- What a meaning answers. -/
abbrev Result := Host.Outcome State Fault Refusal

/-- An indexed table: a list of (index, entry), canonical when the indices rise strictly and no entry equals what an unlisted
index reads as. -/
abbrev Table (α : Type) := List (Nat × α)

/-- The entry at an index; an unlisted index reads `d`. -/
def tableRead {α : Type} (d : α) : Table α → Nat → α
  | [], _ => d
  | (k, v) :: t, i => if k = i then v else tableRead d t i

/-- Drop an index. -/
def tableErase {α : Type} : Table α → Nat → Table α
  | [], _ => []
  | (k, v) :: t, i => if k = i then t else (k, v) :: tableErase t i

/-- Put an entry at its place among rising indices. -/
def tableInsert {α : Type} : Table α → Nat → α → Table α
  | [], i, x => [(i, x)]
  | (k, v) :: t, i, x =>
    if i < k then (i, x) :: (k, v) :: t
    else if i = k then (i, x) :: t
    else (k, v) :: tableInsert t i x

/-- Write an entry, keeping the canonical form. -/
def tableWrite {α : Type} [DecidableEq α] (d : α) (t : Table α) (i : Nat) (x : α) : Table α :=
  if x = d then tableErase t i else tableInsert t i x

/-- The canonical form of a table of `n` entries: indices below `n`, strictly rising, no entry `d`. -/
abbrev tableWf {α : Type} (n : Nat) (d : α) (t : Table α) : Prop :=
  t.Pairwise (fun x y => x.1 < y.1) ∧ ∀ x ∈ t, x.1 < n ∧ x.2 ≠ d

/-- FREQ[b] (R22). -/
def freqAt (s : State) (b : Byte) : Word64 := tableRead 0 s.freq b.toNat

/-- CODE[b].bits (R23); its length is CODE[b].len, and the empty string is "no code". -/
def codeAt (s : State) (b : Byte) : List Bool := tableRead [] s.code b.toNat

/-- Both written tables are in canonical form. -/
abbrev State.memoryWf (s : State) : Prop :=
  tableWf Config.symbols 0 s.freq ∧ tableWf Config.symbols [] s.code

/-- NODE[i].kind: 0 Leaf, 1 Internal (R20). -/
def Node.kind : Node → BitVec 1
  | .leaf _ _ => 0
  | .internal _ _ _ => 1

/-- NODE[i].sym, 0 in an Internal record (R20, U4). -/
def Node.sym : Node → Byte
  | .leaf b _ => b
  | .internal _ _ _ => 0

/-- NODE[i].freq (R20). -/
def Node.freq : Node → Word64
  | .leaf _ f => f
  | .internal f _ _ => f

/-- NODE[i].left, 0 in a Leaf record (R20, U4). -/
def Node.left : Node → NodeIx
  | .leaf _ _ => 0
  | .internal _ l _ => l

/-- NODE[i].right, 0 in a Leaf record (R20, U4). -/
def Node.right : Node → NodeIx
  | .leaf _ _ => 0
  | .internal _ _ r => r

/-- Record `i` of the arena, if it is valid (R20). -/
def nodeAt (s : State) (i : NodeIx) : Option Node := s.nodes[i.toNat]?

/-- Deliver the bytes of a command on the OUT stream and then its response (R71). -/
def respond (s : State) (r : Response) (out : List Byte) : State :=
  { s with sent := s.sent ++ out.map .byte ++ [.response r] }

/-- `rsp(v)`: end without fault, `err = 0`, `cause = 0`, with the bytes emitted (R8, R70). -/
def rsp (v : Word64) (out : List Byte) (s : State) : Result := .next (respond s ⟨none, v⟩ out)

/-- The fault record: the cause, and the whole faulting word in FINFO and FIMM; the first fault is the one kept (R145). -/
def recordFault (w : CmdWord) (c : Cause) (s : State) : State :=
  if s.fault = none then { s with fault := some c, finfo := symField w ++ opField w, fimm := immField w } else s

/-- `raise Fault(c)`: fault entry (R145). A next state: nothing but the fault record changes, no byte is emitted, and the
response has `err = 1`, the cause and the value 0. `w` is the encoding of the command that raises it (DEDUCED, log 9). -/
def raise (w : CmdWord) (c : Cause) (s : State) : Result := .next (respond (recordFault w c s) ⟨some c, 0⟩ [])

/-- The first check of dispatch: a block in the faulted state refuses with the recorded cause and changes nothing (R146).
NOP, CLR and RDREG do not go through it. -/
def unlessFaulted (s : State) (body : Result) : Result :=
  match s.fault with
  | some c => .next (respond s ⟨some c, 0⟩ [])
  | none => body

/-- `require PHASE in {...}` for the command word `w` (R8, R144). -/
def requirePhase (phases : List Phase) (w : CmdWord) (s : State) (body : Result) : Result :=
  if s.phase ∈ phases then body else raise w .sequence s

/-- `if R.STATUS.CODEV = 0: raise Fault(SEQUENCE)` (R101, R102, R144). -/
def requireCodev (w : CmdWord) (s : State) (body : Result) : Result :=
  if s.codev then body else raise w .sequence s

/-- What the dispatch does with a word the decoder rejects: refused when faulted, else Fault(ILLEGAL) (R146). -/
def illegalWord (w : CmdWord) (s : State) : Result := unlessFaulted s (raise w .illegal s)

/-- Every register and table of the block back to its reset value (R29); the ports' two lists are not the block's. -/
def blockReset (s : State) : State := { State.reset with pending := s.pending, sent := s.sent }

/-- The reset input: the reset state, and no response (R170). -/
def takeReset (s : State) : Result := .next (blockReset s)

/-- No input waiting: the block is idle and keeps all state (R160). -/
def idle (s : State) : Result := .next s

/-- The bytes that have left on the OUT stream, in order (R71). -/
def outStream (s : State) : List Byte :=
  s.sent.filterMap fun e => match e with | .byte b => some b | .response _ => none

/-- The responses given, in order (R70). -/
def responses (s : State) : List Response :=
  s.sent.filterMap fun e => match e with | .byte _ => none | .response r => some r

end Sys2Proof.Machine
end

