-- ==== Sys2Proof/Machine/Flags.lean ====
section
/-! DEFINITION. The flag-like state: the STATUS word and its codes (10_state.md rules R12, R25; 60_exceptions.md rule R141), the
PACK word (rule R19), the response word (30_encoding.md rule R70), `fault_o` (60_exceptions.md rule R150) and the stop
condition of the unpacker (44_unpacker.md rule R121). -/

namespace Sys2Proof.Machine

/-- PHASE's codes (R12). -/
def Phase.bits : Phase → BitVec 3
  | .count => 0
  | .built => 1
  | .coded => 2
  | .decode => 3
  | .done => 4

/-- The cause codes 1 to 8 (R141). -/
def Cause.bits : Cause → BitVec 4
  | .illegal => 1
  | .sequence => 2
  | .empty => 3
  | .overflow => 4
  | .format => 5
  | .nocode => 6
  | .integrity => 7
  | .range => 8

/-- A cause field: 0 is "none" (R12, R70, R141). -/
def causeBits : Option Cause → BitVec 4
  | none => 0
  | some c => c.bits

/-- STATUS: EXCESS in bit 8, FAULT in 7:4, CODEV in 3, PHASE in 2:0 (R12). -/
def statusWord (s : State) : BitVec 9 :=
  ((BitVec.ofBool s.excess ++ causeBits s.fault) ++ BitVec.ofBool s.codev) ++ s.phase.bits

/-- PACK: NBITS in bits 10:8, ACC in 7:0 (R19). -/
def packWord (s : State) : BitVec 11 := s.nbits ++ s.acc

/-- `err` of a response: 1 when it faulted or was refused (R70). -/
def Response.err (r : Response) : Bool := r.cause.isSome

/-- The 72-bit response word: `err` in bit 71, 0 in 70:68, `cause` in 67:64, `value` in 63:0 (R70). -/
def Response.word (r : Response) : RspWord :=
  ((BitVec.ofBool r.err ++ (0 : BitVec 3)) ++ causeBits r.cause) ++ r.value

/-- The output `fault_o`: 1 exactly when STATUS.FAULT is not 0 (R150). -/
def faultO (s : State) : Bool := causeBits s.fault != 0

/-- `stop`: EMITTED = ORIGLEN or CONSUMED = BITLIMIT (R121). -/
def stopped (s : State) : Bool := s.emitted == s.origlen || s.consumed == s.bitlimit

end Sys2Proof.Machine
end

