-- ==== Sys2Proof/Machine/Operands.lean ====
section
/-! DEFINITION. The operand and result forms: the scalar registers by number (10_state.md rule R24), a node's links as RDNL
gives them (41_tree.md rule R92), a code's 64-bit chunks (42_codetable.md rule R102), and the bits of a byte, most-significant
first (20_memory.md rule R41). -/

namespace Sys2Proof.Machine

/-- Scalar register number `r`, zero-extended to 64 bits; numbers 14 to 255 do not exist (R24, R132). -/
def registerValue (s : State) (r : Byte) : Option Word64 :=
  match r.toNat with
  | 0 => some ((statusWord s).setWidth 64)
  | 1 => some (s.finfo.setWidth 64)
  | 2 => some s.total
  | 3 => some (s.symcnt.setWidth 64)
  | 4 => some (s.nnodes.setWidth 64)
  | 5 => some (s.root.setWidth 64)
  | 6 => some s.origlen
  | 7 => some s.bitlimit
  | 8 => some s.totalbits
  | 9 => some ((packWord s).setWidth 64)
  | 10 => some s.emitted
  | 11 => some s.consumed
  | 12 => some (s.cursor.setWidth 64)
  | 13 => some s.fimm
  | _ => none

/-- RDNL's value: {kind, sym, right, left} in bits 26:0 (R92). -/
def linkWord (n : Node) : Word64 := (((n.kind ++ n.sym) ++ n.right) ++ n.left).setWidth 64

/-- The child a payload bit selects: left on 0, right on 1 (R100, R121). -/
def Node.child (n : Node) (b : Bool) : NodeIx := if b then n.right else n.left

/-- CODE[s].len as its 8-bit field (R23, DEDUCED, log 14). -/
def codeLength (bits : List Bool) : BitVec 8 := BitVec.ofNat 8 bits.length

/-- The number a list of bits spells, first bit most significant. -/
def bitsToNat (bits : List Bool) : Nat := bits.foldl (fun n b => 2 * n + b.toNat) 0

/-- RDCB's value: bit `63 - t` is code bit `64 j + t`, 0 past the code's end (R102). -/
def codeChunk (bits : List Bool) (j : BitVec 2) : Word64 :=
  BitVec.ofNat 64 (bitsToNat ((List.range 64).map fun t => bits.getD (64 * j.toNat + t) false))

/-- The bits of a byte in the order they are consumed: bit 7 first, bit 0 last (R41). -/
def byteBits (b : Byte) : List Bool :=
  [b.getLsbD 7, b.getLsbD 6, b.getLsbD 5, b.getLsbD 4, b.getLsbD 3, b.getLsbD 2, b.getLsbD 1, b.getLsbD 0]

end Sys2Proof.Machine
end

