-- ==== Sys2Proof/Machine/CodeTable.lean ====
section
/-! DEFINITION. The code-table commands GEN, RDCL, RDCB: 42_codetable.md rules R100 to R102. -/

namespace Sys2Proof.Machine

/-- `walk(i, p)`: the codes of the leaves under record `i`, reached by the branches `p`, written into the table (R100). `fuel` is
how many more branches a code may have: 255 at the root (R23). -/
def walk (ns : List Node) : Nat → NodeIx → List Bool → Table (List Bool) → Except Fault (Table (List Bool))
  | 0, i, p, t =>
    match ns[i.toNat]? with
    | none => .error .nodeAbsent
    | some (.leaf b _) => .ok (tableWrite [] t b.toNat p)
    | some (.internal _ _ _) => .error .codeTooLong
  | fuel + 1, i, p, t =>
    match ns[i.toNat]? with
    | none => .error .nodeAbsent
    | some (.leaf b _) => .ok (tableWrite [] t b.toNat p)
    | some (.internal _ l r) =>
      match walk ns fuel l (p ++ [false]) t with
      | .error e => .error e
      | .ok t' => walk ns fuel r (p ++ [true]) t'

/-- The whole table: every entry (0, ε), then "0" for a Leaf root, else the walk from the root (R100). -/
def generateCodes (s : State) : Except Fault (Table (List Bool)) :=
  match nodeAt s s.root with
  | none => .error .nodeAbsent
  | some (.leaf b _) => .ok (tableWrite [] [] b.toNat [false])
  | some (.internal _ _ _) => walk s.nodes Config.maxCodeLength s.root [] []

/-- GEN's writes: CODE, TOTALBITS, ACC, NBITS, CODEV, PHASE (R100). -/
def installCodes (t : Table (List Bool)) (s : State) : State :=
  { s with code := t, totalbits := 0, acc := 0, nbits := 0, codev := true, phase := .coded }

/-- GEN (R100). -/
def execGen (s : State) : Result :=
  unlessFaulted s <|
  requirePhase [.built] (encode .gen) s <|
  match generateCodes s with
  | .error e => .fault e
  | .ok t => rsp 0 [] (installCodes t s)

/-- RDCL s (R101). -/
def execRdcl (b : Byte) (s : State) : Result :=
  unlessFaulted s <|
  requireCodev (encode (.rdcl b)) s <|
  rsp ((codeLength (codeAt s b)).setWidth 64) [] s

/-- RDCB s, j (R102). -/
def execRdcb (b : Byte) (j : BitVec 2) (s : State) : Result :=
  unlessFaulted s <|
  requireCodev (encode (.rdcb b j)) s <|
  rsp (codeChunk (codeAt s b) j) [] s

end Sys2Proof.Machine
end

