-- ==== Sys2Proof/Machine/Frequency.lean ====
section
/-! DEFINITION. The frequency-table commands ACC, LDF, RDF: 40_frequency.md rules R80 to R82. -/

namespace Sys2Proof.Machine

/-- The three updates of ACC: SYMCNT when the entry was 0, the entry, TOTAL (R80; where R28 item 1 holds none of the sums wraps,
DEDUCED, log 7). -/
def countByte (b : Byte) (s : State) : State :=
  { s with
    symcnt := if freqAt s b = 0 then s.symcnt + 1 else s.symcnt
    freq := tableWrite 0 s.freq b.toNat (freqAt s b + 1)
    total := s.total + 1 }

/-- ACC b (R80). -/
def execAcc (b : Byte) (s : State) : Result :=
  unlessFaulted s <|
  requirePhase [.count] (encode (.acc b)) s <|
  if s.total.toNat = 2 ^ 64 - 1 then raise (encode (.acc b)) .overflow s
  else rsp 0 [] (countByte b s)

/-- The three updates of LDF (R81). -/
def loadEntry (b : Byte) (f : Word64) (s : State) : State :=
  { s with
    freq := tableWrite 0 s.freq b.toNat f
    symcnt := s.symcnt + 1
    total := s.total + f }

/-- LDF s, f (R81). -/
def execLdf (b : Byte) (f : Word64) (s : State) : Result :=
  unlessFaulted s <|
  requirePhase [.count] (encode (.ldf b f)) s <|
  if f = 0 then raise (encode (.ldf b f)) .format s
  else if freqAt s b ≠ 0 then raise (encode (.ldf b f)) .format s
  else if 2 ^ 64 ≤ s.total.toNat + f.toNat then raise (encode (.ldf b f)) .overflow s
  else rsp 0 [] (loadEntry b f s)

/-- RDF s (R82). -/
def execRdf (b : Byte) (s : State) : Result :=
  unlessFaulted s <| rsp (freqAt s b) [] s

end Sys2Proof.Machine
end

