-- ==== Sys2Proof/Machine/Packer.lean ====
section
/-! DEFINITION. The bit-packer commands ENC and FLUSH: 43_packer.md rules R110 and R111. -/

namespace Sys2Proof.Machine

/-- `ACC[k] <- b` (R110). -/
def placeBit (acc : BitVec 8) (k : Nat) (b : Bool) : BitVec 8 :=
  (acc &&& ~~~((1 : BitVec 8) <<< k)) ||| ((BitVec.ofBool b).setWidth 8 <<< k)

/-- R110's loop over the bits of a code: each goes to bit `7 - NBITS` of ACC, and a full byte is emitted. The new ACC, the new
NBITS, and the bytes emitted, in order. -/
def packBits : List Bool → BitVec 8 → BitVec 3 → BitVec 8 × BitVec 3 × List Byte
  | [], acc, n => (acc, n, [])
  | b :: bs, acc, n =>
    if n.toNat = 7 then
      let (acc', n', out) := packBits bs 0 0
      (acc', n', placeBit acc (7 - n.toNat) b :: out)
    else packBits bs (placeBit acc (7 - n.toNat) b) (n + 1)

/-- ENC's writes: ACC, NBITS, TOTALBITS (R110). -/
def appendCode (bits : List Bool) (s : State) : State :=
  { s with
    acc := (packBits bits s.acc s.nbits).1
    nbits := (packBits bits s.acc s.nbits).2.1
    totalbits := s.totalbits + BitVec.ofNat 64 bits.length }

/-- The bytes ENC emits (R110). -/
def packedBytes (bits : List Bool) (s : State) : List Byte := (packBits bits s.acc s.nbits).2.2

/-- ENC b (R110). -/
def execEnc (b : Byte) (s : State) : Result :=
  unlessFaulted s <|
  requirePhase [.coded] (encode (.enc b)) s <|
  if (codeAt s b).length = 0 then raise (encode (.enc b)) .nocode s
  else if 2 ^ 64 ≤ s.totalbits.toNat + (codeAt s b).length then raise (encode (.enc b)) .overflow s
  else rsp (BitVec.ofNat 64 (packedBytes (codeAt s b) s).length) (packedBytes (codeAt s b) s) (appendCode (codeAt s b) s)

/-- The byte FLUSH emits, if any (R111). -/
def flushedBytes (s : State) : List Byte := if s.nbits = 0 then [] else [s.acc]

/-- FLUSH's writes: ACC, NBITS, PHASE (R111). -/
def closePacker (s : State) : State := { s with acc := 0, nbits := 0, phase := .done }

/-- FLUSH (R111). -/
def execFlush (s : State) : Result :=
  unlessFaulted s <|
  requirePhase [.coded] (encode .flush) s <|
  rsp (BitVec.ofNat 64 (flushedBytes s).length) (flushedBytes s) (closePacker s)

end Sys2Proof.Machine
end

