-- ==== Sys2Proof/Machine/System.lean ====
section
/-! DEFINITION. The system commands NOP, CLR, RDREG, WRREG: 45_system.md rules R130 to R133. NOP, CLR and RDREG run in the
faulted state too (60_exceptions.md rule R146). -/

namespace Sys2Proof.Machine

/-- NOP (R130). -/
def execNop (s : State) : Result := rsp 0 [] s

/-- CLR (R131): the reset state, with a response. -/
def execClr (s : State) : Result := rsp 0 [] (blockReset s)

/-- RDREG r (R132). A register number of 14 or more is no command (R66): refused when faulted, else ILLEGAL (log 10). -/
def execRdreg (r : Byte) (s : State) : Result :=
  match registerValue s r with
  | some v => rsp v [] s
  | none => illegalWord (encode (.rdreg r)) s

/-- WRREG r, v with `r` one of 6 (ORIGLEN) and 7 (BITLIMIT) (R133). -/
def writeLimit (r : Byte) (v : Word64) (s : State) : State :=
  if r = 6 then { s with origlen := v } else { s with bitlimit := v }

/-- WRREG r, v (R133). Any other register number is no command (R66): refused when faulted, else ILLEGAL (log 10). -/
def execWrreg (r : Byte) (v : Word64) (s : State) : Result :=
  if r = 6 ∨ r = 7 then
    unlessFaulted s <|
    requirePhase [.count, .built, .coded, .done] (encode (.wrreg r v)) s <|
    rsp 0 [] (writeLimit r v s)
  else illegalWord (encode (.wrreg r v)) s

end Sys2Proof.Machine
end

