-- ==== Sys2Proof/Machine/Tree.lean ====
section
/-! DEFINITION. The tree-builder commands BUILD, RDNF, RDNL: 41_tree.md rules R90 to R92. -/

namespace Sys2Proof.Machine

/-- An element of the active set with its key: the record's frequency and its arena index (R90). -/
structure Active where
  freq : Word64
  ix : Nat
  deriving DecidableEq, Repr

/-- `key(x) < key(y)`: by frequency as unsigned numbers, then by arena index (R90). -/
def keyLt (x y : Active) : Bool :=
  x.freq.toNat < y.freq.toNat || (x.freq.toNat == y.freq.toNat && x.ix < y.ix)

/-- The element with the least key among `x` and the rest (R90's `argmin`). -/
def leastKey : Active → List Active → Active
  | x, [] => x
  | x, y :: ys => leastKey (if keyLt y x then y else x) ys

/-- Remove the element with the least key from the active set; `none` when it is empty (R90). -/
def takeLeast : List Active → Option (Active × List Active)
  | [] => none
  | x :: xs => some (leastKey x xs, (x :: xs).erase (leastKey x xs))

/-- The leaves, one per non-zero FREQ entry, in ascending symbol order (R90). -/
def seedLeaves (s : State) : List Node :=
  (List.range Config.symbols).filterMap fun a =>
    if tableRead 0 s.freq a = 0 then none else some (.leaf (BitVec.ofNat 8 a) (tableRead 0 s.freq a))

/-- The active set of a list of records: each with its index, counting from `n` (R90). -/
def activeFrom : Nat → List Node → List Active
  | _, [] => []
  | n, x :: xs => ⟨x.freq, n⟩ :: activeFrom (n + 1) xs

/-- R90's loop, at most `fuel` rounds: while two elements are active, take the least as left child and the next least as right
child of a new record, which joins the active set. -/
def combine : Nat → List Node → List Active → List Node × List Active
  | 0, ns, act => (ns, act)
  | fuel + 1, ns, act =>
    match takeLeast act with
    | none => (ns, act)
    | some (a, rest) =>
      match takeLeast rest with
      | none => (ns, act)
      | some (b, rest') =>
        combine fuel (ns ++ [.internal (a.freq + b.freq) (BitVec.ofNat 9 a.ix) (BitVec.ofNat 9 b.ix)])
          (rest' ++ [⟨a.freq + b.freq, ns.length⟩])

/-- The finished arena and the active set that is left, for the leaves of FREQ (R90). A round leaves one element fewer, so as
many rounds as there are leaves are enough. -/
def buildTree (s : State) : List Node × List Active :=
  combine (seedLeaves s).length (seedLeaves s) (activeFrom 0 (seedLeaves s))

/-- BUILD's writes: NODE, ROOT, NNODES, PHASE (R90). -/
def installTree (ns : List Node) (root : Nat) (s : State) : State :=
  { s with nodes := ns, root := BitVec.ofNat 9 root, nnodes := BitVec.ofNat 9 ns.length, phase := .built }

/-- BUILD (R90). -/
def execBuild (s : State) : Result :=
  unlessFaulted s <|
  requirePhase [.count] (encode .build) s <|
  if s.symcnt = 0 then raise (encode .build) .empty s
  else match (buildTree s).2 with
    | [] => .fault .noActiveNode
    | r :: _ => rsp (BitVec.ofNat 64 (buildTree s).1.length) [] (installTree (buildTree s).1 r.ix s)

/-- What RDNF and RDNL share: the phase, the index check, and a value read from the record (R91, R92). -/
def readNode (w : CmdWord) (i : NodeIx) (value : Node → Word64) (s : State) : Result :=
  unlessFaulted s <|
  requirePhase [.built, .coded, .decode, .done] w s <|
  if s.nnodes ≤ i then raise w .range s
  else match nodeAt s i with
    | none => .fault .nodeAbsent
    | some n => rsp (value n) [] s

/-- RDNF i (R91). -/
def execRdnf (i : NodeIx) (s : State) : Result := readNode (encode (.rdnf i)) i Node.freq s

/-- RDNL i (R92). -/
def execRdnl (i : NodeIx) (s : State) : Result := readNode (encode (.rdnl i)) i linkWord s

end Sys2Proof.Machine
end

