-- ==== Sys2Proof/Machine/Unpacker.lean ====
section
/-! DEFINITION. The bit-unpacker commands DECBEG, DEC, DECEND: 44_unpacker.md rules R120 to R122. -/

namespace Sys2Proof.Machine

/-- DECBEG's writes: CURSOR, EMITTED, CONSUMED, EXCESS, PHASE (R120). -/
def armUnpacker (s : State) : State :=
  { s with cursor := s.root, emitted := 0, consumed := 0, excess := false, phase := .decode }

/-- DECBEG (R120). -/
def execDecbeg (s : State) : Result :=
  unlessFaulted s <|
  requirePhase [.built, .coded] (encode .decbeg) s <|
  if s.origlen ≠ s.total then raise (encode .decbeg) .format s
  else rsp 0 [] (armUnpacker s)

/-- A DEC none of whose bits can be consumed sets EXCESS (R121). -/
def markExcess (s : State) : State := { s with excess := true }

/-- `min(8, BITLIMIT - CONSUMED, ORIGLEN - EMITTED)` (R121, DEDUCED, log 7). -/
def runLength (s : State) : Nat :=
  min 8 (min (s.bitlimit.toNat - s.consumed.toNat) (s.origlen.toNat - s.emitted.toNat))

/-- The single-symbol case's writes: CONSUMED and EMITTED (R121). -/
def consumeRun (m : Nat) (s : State) : State :=
  { s with consumed := s.consumed + BitVec.ofNat 64 m, emitted := s.emitted + BitVec.ofNat 64 m }

/-- DEC on a tree whose root is the Leaf of symbol `sym`: `b[7 : 8 - m]` must be 0, and `m` symbols are emitted (R121). -/
def decodeRun (b : Byte) (sym : Byte) (s : State) : Result :=
  if b >>> (8 - runLength s) ≠ 0 then raise (encode (.dec b)) .integrity s
  else rsp (BitVec.ofNat 64 (runLength s)) (List.replicate (runLength s) sym) (consumeRun (runLength s) s)

/-- One bit of the walk: CONSUMED, CURSOR, and at a Leaf its symbol, EMITTED and the CURSOR back at the root (R121). -/
def decodeBit (b : Bool) (s : State) : Except Fault (State × List Byte) :=
  match nodeAt s s.cursor with
  | none => .error .nodeAbsent
  | some n =>
    match nodeAt s (n.child b) with
    | none => .error .nodeAbsent
    | some (.leaf sym _) =>
      .ok ({ s with consumed := s.consumed + 1, emitted := s.emitted + 1, cursor := s.root }, [sym])
    | some (.internal _ _ _) => .ok ({ s with consumed := s.consumed + 1, cursor := n.child b }, [])

/-- The bits of a payload byte in order; the stop condition is tested before each (R121). The state and the symbols emitted. -/
def decodeBits : List Bool → State → Except Fault (State × List Byte)
  | [], s => .ok (s, [])
  | b :: bs, s =>
    if stopped s then .ok (s, [])
    else match decodeBit b s with
      | .error e => .error e
      | .ok (s', out) =>
        match decodeBits bs s' with
        | .error e => .error e
        | .ok (s'', out') => .ok (s'', out ++ out')

/-- DEC on a tree whose root is Internal (R121). -/
def decodeWalk (b : Byte) (s : State) : Result :=
  match decodeBits (byteBits b) s with
  | .error e => .fault e
  | .ok (s', out) => rsp (BitVec.ofNat 64 out.length) out s'

/-- DEC b (R121). -/
def execDec (b : Byte) (s : State) : Result :=
  unlessFaulted s <|
  requirePhase [.decode] (encode (.dec b)) s <|
  if stopped s then rsp 0 [] (markExcess s)
  else match nodeAt s s.root with
    | none => .fault .nodeAbsent
    | some (.leaf sym _) => decodeRun b sym s
    | some (.internal _ _ _) => decodeWalk b s

/-- DECEND's write when there is no mismatch: PHASE (R122). -/
def endDecode (s : State) : State := { s with phase := .done }

/-- DECEND (R122). -/
def execDecend (s : State) : Result :=
  unlessFaulted s <|
  requirePhase [.decode] (encode .decend) s <|
  if s.emitted ≠ s.origlen ∨ s.consumed ≠ s.bitlimit ∨ s.excess = true then raise (encode .decend) .integrity s
  else rsp s.emitted [] (endDecode s)

end Sys2Proof.Machine
end

