-- ==== Sys2Proof/Machine/Dispatch.lean ====
section
/-! DEFINITION. One arm per command of 30_encoding.md rule R63; each calls its meaning. -/

namespace Sys2Proof.Machine

def exec (i : Instr) (s : State) : Host.Outcome State Fault Refusal :=
  match i with
  | .nop => Sys2Proof.Machine.execNop s
  | .clr => Sys2Proof.Machine.execClr s
  | .rdreg r => Sys2Proof.Machine.execRdreg r s
  | .wrreg r v => Sys2Proof.Machine.execWrreg r v s
  | .acc b => Sys2Proof.Machine.execAcc b s
  | .ldf b f => Sys2Proof.Machine.execLdf b f s
  | .rdf b => Sys2Proof.Machine.execRdf b s
  | .build => Sys2Proof.Machine.execBuild s
  | .rdnf n => Sys2Proof.Machine.execRdnf n s
  | .rdnl n => Sys2Proof.Machine.execRdnl n s
  | .gen => Sys2Proof.Machine.execGen s
  | .rdcl b => Sys2Proof.Machine.execRdcl b s
  | .rdcb b j => Sys2Proof.Machine.execRdcb b j s
  | .enc b => Sys2Proof.Machine.execEnc b s
  | .flush => Sys2Proof.Machine.execFlush s
  | .decbeg => Sys2Proof.Machine.execDecbeg s
  | .dec b => Sys2Proof.Machine.execDec b s
  | .decend => Sys2Proof.Machine.execDecend s

end Sys2Proof.Machine
end

