-- ==== Sys2Proof/Machine/Step.lean ====
section
/-! DEFINITION. One step: the block takes the oldest host input, a command word or a reset, and runs it whole (30_encoding.md
rule R72, 20_memory.md rule R46, 60_exceptions.md rule R146). There is no program counter and no fetch (10_state.md rule R11):
the "next instruction" is the oldest command the host has presented (log 4). -/

namespace Sys2Proof.Machine

/-- One step. A decoded command runs with the inputs behind it still waiting. -/
def step (s : State) : Host.Outcome State Fault Refusal :=
  match s.pending with
  | [] => idle s
  | .reset :: rest => takeReset { s with pending := rest }
  | .command w :: rest =>
    match decode w with
    | .ok i => exec i { s with pending := rest }
    | .error _ => illegalWord w { s with pending := rest }

/-- The word of a table row, presented on the command port before every input already waiting. -/
def State.withFetchWord (s : State) (nbits w : Nat) : State :=
  { s with pending := .command (tableWord nbits w) :: s.pending }

end Sys2Proof.Machine
end

