-- ==== Sys2Proof/Machine/Container.lean ====
section
/-! DEFINITION. The host's side of the contract: the container's bytes and the two jobs, 20_memory.md rules R50 to R56. The block
itself neither reads nor writes a container (00_scope.md rule R3): these are functions around the machine, and the step uses
none of them (log 12). -/

namespace Sys2Proof.Machine

/-- The `n` bytes of a number, lowest first (R42, R50). -/
def leBytes (n v : Nat) : List Byte := (List.range n).map fun k => BitVec.ofNat 8 (v / 256 ^ k)

/-- The number a list of bytes holds, lowest first (R42). -/
def leNat : List Byte → Nat
  | [] => 0
  | b :: bs => b.toNat + 256 * leNat bs

/-- A container's fields after the magic tag (R50). -/
structure Container where
  length : Word64
  pairs : List (Byte × Word64)
  payload : List Byte
  totalBits : Word64
  deriving DecidableEq, Repr

/-- One 9-byte pair (R50). -/
def pairBytes (p : Byte × Word64) : List Byte := p.1 :: leBytes 8 p.2.toNat

/-- The container's bytes, in R50's order. -/
def containerBytes (magic : List Byte) (c : Container) : List Byte :=
  magic ++ leBytes 8 c.length.toNat ++ leBytes 2 c.pairs.length ++ c.pairs.flatMap pairBytes ++ c.payload ++
    leBytes 8 c.totalBits.toNat

/-- The host's Format errors, found before any command is given (R54 steps 1 and 2, R157). -/
inductive FormatError where
  /-- shorter than header and trailer, 22 bytes -/
  | tooShort
  /-- the first four bytes are not MAGIC -/
  | badMagic
  /-- the symbol count is 0 or above 256 -/
  | badSymbolCount
  /-- shorter than 14 + 9 k + 8 bytes -/
  | truncated
  deriving DecidableEq, Repr

/-- The `k` pairs of a frequency table, in file order (R54). -/
def readPairs : Nat → List Byte → List (Byte × Word64)
  | 0, _ => []
  | k + 1, bs => (bs.headD 0, BitVec.ofNat 64 (leNat ((bs.drop 1).take 8))) :: readPairs k (bs.drop 9)

/-- The container's fields, its length and symbol count already checked (R54). -/
def readFields (k : Nat) (bs : List Byte) : Container where
  length := BitVec.ofNat 64 (leNat ((bs.drop 4).take 8))
  pairs := readPairs k (bs.drop 14)
  payload := (bs.drop (14 + 9 * k)).take (bs.length - 14 - 9 * k - 8)
  totalBits := BitVec.ofNat 64 (leNat (bs.drop (bs.length - 8)))

/-- The symbol count field (R50). -/
def symbolCountField (bs : List Byte) : Nat := leNat ((bs.drop 12).take 2)

/-- The host's checks and reading of a container (R54 steps 1 and 2, R51). -/
def readContainer (magic : List Byte) (bs : List Byte) : Except FormatError Container :=
  if bs.length < 22 then .error .tooShort
  else if bs.take 4 ≠ magic then .error .badMagic
  else if symbolCountField bs = 0 ∨ 256 < symbolCountField bs then .error .badSymbolCount
  else if bs.length < 14 + 9 * symbolCountField bs + 8 then .error .truncated
  else .ok (readFields (symbolCountField bs) bs)

/-- The pairs the host serialises: every symbol with a non-zero count, in ascending order (R52 step 5). -/
def storedPairs (s : State) : List (Byte × Word64) :=
  (List.range Config.symbols).filterMap fun a =>
    if freqAt s (BitVec.ofNat 8 a) = 0 then none else some (BitVec.ofNat 8 a, freqAt s (BitVec.ofNat 8 a))

/-- The container the host writes when the compress job has ended: TOTAL, the pairs, the bytes the job emitted, TOTALBITS
(R52 steps 5 to 8). DESIGN CHOICE (log 17): its values are taken from the state, without the read commands the host would issue
(R45). -/
def containerOf (s : State) (payload : List Byte) : Container where
  length := s.total
  pairs := storedPairs s
  payload := payload
  totalBits := s.totalbits

/-- The commands of a compress job (R52, R173). DESIGN CHOICE (log 17): where R52 step 1 lets the host use reset or CLR, the job
issues CLR, which gives a response; where step 2 lets the host stop on an empty input or issue BUILD and take the EMPTY fault
(R143), the job issues BUILD, and what follows it is refused. -/
def compressCommands (input : List Byte) : List Instr :=
  [.clr] ++ input.map .acc ++ [.build, .gen] ++ input.map .enc ++ [.flush]

/-- The commands of a decompress job (R54 steps 3 to 9, R173). DESIGN CHOICE (log 17): where R54 step 3 lets the host use reset or
CLR, the job issues CLR, which gives a response. -/
def decompressCommands (c : Container) : List Instr :=
  [.clr] ++ c.pairs.map (fun p => .ldf p.1 p.2) ++ [.build, .wrreg 6 c.length, .wrreg 7 c.totalBits, .decbeg] ++
    c.payload.map .dec ++ [.decend]

/-- Commands one after another, each on the state the one before it left (R47). -/
def runCommands : List Instr → State → Result
  | [], s => .next s
  | i :: is, s =>
    match exec i s with
    | .next s' => runCommands is s'
    | .fault e => .fault e
    | .refused r => .refused r

/-- The host presents commands behind the inputs already waiting (R72). -/
def present (cmds : List Instr) (s : State) : State :=
  { s with pending := s.pending ++ cmds.map fun i => .command (encode i) }

end Sys2Proof.Machine
end

