-- ==== Sys2Proof/Safety.lean ====
section
/-! DEFINITION. What the claims speak of: how a command ends (60_exceptions.md rules R145, R146, 30_encoding.md rules R70, R71),
the invariants between commands (10_state.md rule R28), and the tree, code and bit-stream notions of 41_tree.md rule R90,
42_codetable.md rule R100, 43_packer.md rule R110 and 44_unpacker.md rule R123. -/

namespace Sys2Proof.Machine

/-- Command `i` ends normally from `s` in `t`: the bytes `out` leave, then the response `err = 0`, `cause = 0`, value `v`
(R70, R71). -/
def Completes (i : Instr) (s t : State) (v : Word64) (out : List Byte) : Prop :=
  exec i s = .next t ∧ t.sent = s.sent ++ out.map .byte ++ [.response ⟨none, v⟩]

/-- `t` is `s` but for the fault record, the word `w` with cause `c`, and the response `err = 1`, cause `c`, value 0, no byte
(R145). -/
def FaultEntered (w : CmdWord) (c : Cause) (s t : State) : Prop :=
  t = { s with fault := t.fault, finfo := t.finfo, fimm := t.fimm, sent := t.sent } ∧
  t.fault = some c ∧ t.finfo.extractLsb' 0 8 = opField w ∧ t.finfo.extractLsb' 8 8 = symField w ∧ t.fimm = immField w ∧
  t.sent = s.sent ++ [.response ⟨some c, 0⟩]

/-- Command `i` raises Fault(c) from `s` (R145). -/
def Raises (i : Instr) (s : State) (c : Cause) : Prop := ∃ t, exec i s = .next t ∧ FaultEntered (encode i) c s t

/-- `t` is `s` but for a response `err = 1` with the recorded cause `c` and value 0, no byte (R146). -/
def Refused (c : Cause) (s t : State) : Prop := t = { s with sent := s.sent ++ [.response ⟨some c, 0⟩] }

/-- Command `i` is refused in the faulted state `s` (R146). -/
def Refuses (i : Instr) (s : State) (c : Cause) : Prop := ∃ t, exec i s = .next t ∧ Refused c s t

/-- The three commands that run in the faulted state (R146). -/
def runsFaulted : Instr → Bool
  | .nop => true
  | .clr => true
  | .rdreg _ => true
  | _ => false

/-- R134's table, the columns COUNT to DONE: may the command run in this phase (for RDCL and RDCB: with this CODEV)? -/
def phaseAllows (i : Instr) (s : State) : Bool :=
  match i with
  | .nop => true
  | .clr => true
  | .rdreg _ => true
  | .wrreg _ _ => s.phase != .decode
  | .acc _ => s.phase == .count
  | .ldf _ _ => s.phase == .count
  | .rdf _ => true
  | .build => s.phase == .count
  | .rdnf _ => s.phase != .count
  | .rdnl _ => s.phase != .count
  | .gen => s.phase == .built
  | .rdcl _ => s.codev
  | .rdcb _ _ => s.codev
  | .enc _ => s.phase == .coded
  | .flush => s.phase == .coded
  | .decbeg => s.phase == .built || s.phase == .coded
  | .dec _ => s.phase == .decode
  | .decend => s.phase == .decode

/-- The 256 entries of FREQ (R22). -/
def freqEntries (s : State) : List Word64 := (List.range Config.symbols).map fun a => freqAt s (BitVec.ofNat 8 a)

/-- R28 item 1: SYMCNT counts the non-zero entries of FREQ, TOTAL is their sum; the list that
holds FREQ is in canonical form, the model's own (log 8). -/
structure CountersInv (s : State) : Prop where
  canonical : tableWf Config.symbols 0 s.freq
  symcnt_eq : s.symcnt.toNat = (freqEntries s).countP (· ≠ 0)
  total_eq : s.total.toNat = ((freqEntries s).map BitVec.toNat).sum

/-- A record's frequency as a number, 0 where there is no record. -/
def freqOf (ns : List Node) (i : Nat) : Nat :=
  match ns[i]? with
  | some n => n.freq.toNat
  | none => 0

/-- Record `k` is Internal with child `c`. -/
def childOf (ns : List Node) (k c : Nat) : Bool :=
  match ns[k]? with
  | some (.internal _ l r) => l.toNat == c || r.toNat == c
  | _ => false

/-- Record `k` is Internal, its children are two different records below it, and its frequency is the sum of theirs. -/
def internalSound (ns : List Node) (k : Nat) : Bool :=
  match ns[k]? with
  | some (.internal f l r) =>
    decide (l.toNat < k) && decide (r.toNat < k) && l != r && f.toNat == freqOf ns l.toNat + freqOf ns r.toNat
  | _ => false

/-- Record `i` is a Leaf whose frequency is its symbol's non-zero count. -/
def leafSound (s : State) (i : Nat) : Bool :=
  match s.nodes[i]? with
  | some (.leaf b f) => f != 0 && f == freqAt s b
  | _ => false

/-- The symbol of record `i` as a number; 0 where it is no Leaf, which has no symbol. -/
def symbolOf (ns : List Node) (i : Nat) : Nat :=
  match ns[i]? with
  | some (.leaf b _) => b.toNat
  | _ => 0

/-- R28 item 2, for a state that holds a tree. The leaves are said record by record, not through the function BUILD makes them
with: records 0 to SYMCNT - 1 are Leaves, each with its symbol's count, in ascending symbol order, and every counted symbol is
among them. An Internal record's frequency is the sum of its children's (R20). That the arena holds the valid records and no
other is the model's own (log 1). -/
structure TreeShape (s : State) : Prop where
  present : 1 ≤ s.symcnt.toNat
  nnodes_eq : s.nnodes.toNat = 2 * s.symcnt.toNat - 1
  root_eq : s.root.toNat = s.nnodes.toNat - 1
  records : s.nodes.length = s.nnodes.toNat
  leaves : ∀ i < s.symcnt.toNat, leafSound s i = true
  ascending : ∀ j < s.symcnt.toNat, ∀ i < j, symbolOf s.nodes i < symbolOf s.nodes j
  counted : ∀ b : Byte, freqAt s b ≠ 0 → ∃ i < s.symcnt.toNat, s.nodes[i]? = some (.leaf b (freqAt s b))
  internals : ∀ k < s.nnodes.toNat, s.symcnt.toNat ≤ k → internalSound s.nodes k = true
  oneParent : ∀ c < s.root.toNat, (List.range s.nnodes.toNat).countP (childOf s.nodes · c) = 1
  rootFreq : freqOf s.nodes s.root.toNat = s.total.toNat

/-- R28 item 2: a tree outside COUNT. R16, R17: NNODES and ROOT are 0 in COUNT. That NODE holds nothing in COUNT is the model's
choice (log 1): R20 and R29 leave its contents unspecified. -/
structure TreeInv (s : State) : Prop where
  built : s.phase ≠ .count → TreeShape s
  unbuilt : s.phase = .count → s.nnodes = 0 ∧ s.root = 0 ∧ s.nodes = []

/-- R134: CODEV is 0 throughout COUNT and BUILT and 1 throughout CODED. -/
structure CodevInv (s : State) : Prop where
  early : s.phase = .count ∨ s.phase = .built → s.codev = false
  coded : s.phase = .coded → s.codev = true

/-- R28 item 3, R23: when CODEV is 1, exactly the counted symbols have codes, none is a prefix of another's, none is longer than
255 bits; the list that holds CODE is in canonical form, the model's own (log 14). -/
structure CodesInv (s : State) : Prop where
  canonical : tableWf Config.symbols [] s.code
  present : s.codev = true → ∀ b : Byte, codeAt s b ≠ [] ↔ freqAt s b ≠ 0
  unambiguous : s.codev = true → ∀ a b : Byte, a ≠ b → codeAt s a ≠ [] → codeAt s b ≠ [] → ¬ codeAt s a <+: codeAt s b
  bounded : s.codev = true → ∀ b : Byte, (codeAt s b).length ≤ Config.maxCodeLength

/-- The unfilled low bits of ACC are 0 (R19). -/
def unfilledZero (s : State) : Prop := ∀ k < 8 - s.nbits.toNat, s.acc.getLsbD k = false

/-- R28 item 4. -/
structure PackerInv (s : State) : Prop where
  nbits_eq : s.phase = .coded → s.nbits.toNat = s.totalbits.toNat % 8
  unfilled : s.phase = .coded → unfilledZero s

/-- A record is Internal. -/
def isInternal (ns : List Node) (i : Nat) : Bool :=
  match ns[i]? with
  | some (.internal _ _ _) => true
  | _ => false

/-- R28 item 5. -/
structure DecoderInv (s : State) : Prop where
  emitted_le : s.phase = .decode → s.emitted.toNat ≤ s.origlen.toNat
  consumed_le : s.phase = .decode → s.consumed.toNat ≤ s.bitlimit.toNat
  length_eq : s.phase = .decode → s.origlen = s.total ∧ 1 ≤ s.total.toNat
  cursor_ok : s.phase = .decode → s.cursor = s.root ∨ isInternal s.nodes s.cursor.toNat = true

/-- R28 items 1 to 5 together. Beside them it holds R16 and R17 (NNODES and ROOT are 0 in COUNT), R20's sum in every Internal
record, R23's bound on a code's length, R134's CODEV columns, and what is the model's own: NODE holds the valid records and no
other, so nothing in COUNT (log 1), and the lists that hold FREQ and CODE are in canonical form (logs 8 and 14). -/
structure Invariant (s : State) : Prop where
  counters : CountersInv s
  tree : TreeInv s
  codev : CodevInv s
  codes : CodesInv s
  packer : PackerInv s
  decoder : DecoderInv s

/-- The records still active when record `k` is made: those below `k` that no record below `k` has taken (R90). -/
def activeAt (ns : List Node) (k i : Nat) : Prop := i < k ∧ ∀ j < k, childOf ns j i = false

/-- `key(i) < key(j)` on the arena (R90). -/
def nodeKeyLt (ns : List Node) (i j : Nat) : Prop := freqOf ns i < freqOf ns j ∨ (freqOf ns i = freqOf ns j ∧ i < j)

/-- R90's choice at record `k`: `left` has the least key of the active records and `right` the next least. -/
def greedyAt (ns : List Node) (k : Nat) (l r : NodeIx) : Prop :=
  activeAt ns k l.toNat ∧ activeAt ns k r.toNat ∧ nodeKeyLt ns l.toNat r.toNat ∧
  ∀ i, activeAt ns k i → i ≠ l.toNat → i ≠ r.toNat → nodeKeyLt ns r.toNat i

/-- The branches `p` lead from record `i` to record `j`: '0' to the left child, '1' to the right (R100). -/
inductive TreePath (ns : List Node) : NodeIx → List Bool → NodeIx → Prop
  | here (i : NodeIx) : TreePath ns i [] i
  | left (i j : NodeIx) (f : Word64) (l r : NodeIx) (p : List Bool) :
      ns[i.toNat]? = some (.internal f l r) → TreePath ns l p j → TreePath ns i (false :: p) j
  | right (i j : NodeIx) (f : Word64) (l r : NodeIx) (p : List Bool) :
      ns[i.toNat]? = some (.internal f l r) → TreePath ns r p j → TreePath ns i (true :: p) j

/-- Walking the bits from record `c`, back to `root` after every Leaf, emits the symbols `out` and ends at record `d` (R121,
R123). -/
inductive Decodes (ns : List Node) (root : NodeIx) : NodeIx → List Bool → List Byte → NodeIx → Prop
  | stop (c : NodeIx) : Decodes ns root c [] [] c
  | inner (c d : NodeIx) (b : Bool) (bits : List Bool) (out : List Byte) (n : Node) :
      ns[c.toNat]? = some n → isInternal ns (n.child b).toNat = true →
      Decodes ns root (n.child b) bits out d → Decodes ns root c (b :: bits) out d
  | leaf (c d : NodeIx) (b : Bool) (bits : List Bool) (out : List Byte) (n : Node) (sym : Byte) (f : Word64) :
      ns[c.toNat]? = some n → ns[(n.child b).toNat]? = some (.leaf sym f) →
      Decodes ns root root bits out d → Decodes ns root c (b :: bits) (sym :: out) d

/-- The bits waiting in ACC, in time order (R19). -/
def waitingBits (s : State) : List Bool := (byteBits s.acc).take s.nbits.toNat

end Sys2Proof.Machine
end

