-- ==== Sys2Proof/Certificates/Slice0/Obligations.lean ====
section
/-! DEFINITION. The statements for the provers. Each docstring names the rule of spec/ it formalises. -/

open Sys2Proof
open Sys2Proof.Machine

/-! ### Encoding: 30_encoding.md -/

/-- The encoding round trip, every command and every operand value (R60 to R63). -/
def Obligations.DecodeEncodeRoundTrip : Prop :=
  ∀ i : Instr, i.wellFormed = true → decode (encode i) = .ok i

/-- A word that decodes to a command is that command's one encoding, and the command is well-formed (R64 to R67). -/
def Obligations.DecodedWordIsTheEncoding : Prop :=
  ∀ (w : CmdWord) (i : Instr), decode w = .ok i → encode i = w ∧ i.wellFormed = true

/-- R63 and R66: a word is a command exactly when it selects a row of the match and mask table and meets the register limits;
the row is the only one it selects, and it is the command's own row. -/
def Obligations.DecodeFollowsOpcodeTable : Prop :=
  (∀ w : CmdWord, (∃ i, decode w = .ok i) ↔
    ∃ row ∈ opcodeTable, row.selects w = true ∧
      (row.mnemonic = "RDREG" → (symField w).toNat ≤ 13) ∧
      (row.mnemonic = "WRREG" → (symField w).toNat = 6 ∨ (symField w).toNat = 7)) ∧
  (∀ (w : CmdWord) (i : Instr) (row : OpcodeRow), decode w = .ok i → row ∈ opcodeTable → row.selects w = true →
    row.mnemonic = i.mnemonic) ∧
  (∀ w : CmdWord, (opcodeTable.filter fun row => row.selects w).length ≤ 1)

/-- The worked encodings of 30_encoding.md section 8. -/
def Obligations.WorkedWordsDecode : Prop :=
  decode 0x10410000000000000000 = .ok (.acc 0x41) ∧
  decode 0x11430000000000000001 = .ok (.ldf 0x43 1) ∧
  decode 0x22000000000000000004 = .ok (.rdnl 4) ∧
  decode 0x32420000000000000000 = .ok (.rdcb 0x42 0) ∧
  decode 0x0307000000000000000A = .ok (.wrreg 7 10) ∧
  decode 0x51B20000000000000000 = .ok (.dec 0xB2) ∧
  decode 0x20010000000000000000 = .error (.nonzeroField 0x20) ∧
  decode 0x04000000000000000000 = .error (.reservedOpcode 0x04) ∧
  decode 0x020E0000000000000000 = .error (.badRegister 0x0E) ∧
  decode 0x03020000000000000005 = .error (.badRegister 0x02)

/-- R70: the response word, with R141's cause codes as numbers. -/
def Obligations.ResponseWordLayout : Prop :=
  ∀ r : Response,
    (r.word.extractLsb' 71 1 = 1 ↔ r.cause ≠ none) ∧
    r.word.extractLsb' 68 3 = 0 ∧
    (r.word.extractLsb' 64 4).toNat = (match r.cause with
      | none => 0
      | some .illegal => 1
      | some .sequence => 2
      | some .empty => 3
      | some .overflow => 4
      | some .format => 5
      | some .nocode => 6
      | some .integrity => 7
      | some .range => 8) ∧
    r.word.extractLsb' 0 64 = r.value

/-! ### The step and the dispatch: R72, R142, R146, R153, R160, R170 -/

/-- A step runs the oldest command presented: when its word decodes to `i`, the step is `exec i` on the state with that input
taken. -/
def Obligations.StepRunsDecodedCommand : Prop :=
  ∀ (s : State) (w : CmdWord) (rest : List HostInput) (i : Instr),
    s.pending = .command w :: rest → decode w = .ok i → step s = exec i { s with pending := rest }

/-- R142: an illegal word raises ILLEGAL, in every state that is not faulted; a faulted block refuses it (R146). -/
def Obligations.IllegalWordRaisesIllegal : Prop :=
  ∀ (s : State) (w : CmdWord) (rest : List HostInput) (e : Illegal),
    s.pending = .command w :: rest → decode w = .error e →
    (s.fault = none → ∃ t, step s = .next t ∧ FaultEntered w .illegal { s with pending := rest } t) ∧
    (∀ c, s.fault = some c → ∃ t, step s = .next t ∧ Refused c { s with pending := rest } t)

/-- R160 and R170: without input the block keeps all state; the reset input leaves the reset state of R29, gives no response and
emits nothing. The queue of inputs is the model's own (log 4), and so is that NODE and CODE hold nothing after reset (logs 1
and 2): R29 leaves their contents unspecified. -/
def Obligations.IdleAndResetSteps : Prop :=
  (∀ s : State, s.pending = [] → step s = .next s) ∧
  (∀ (s : State) (rest : List HostInput), s.pending = .reset :: rest →
    ∃ t, step s = .next t ∧ t.pending = rest ∧ t.sent = s.sent ∧
      t = { State.reset with pending := t.pending, sent := t.sent } ∧ faultO t = false ∧
      ∀ u, exec .clr s = .next u → { u with pending := t.pending, sent := t.sent } = t)

/-- R47: well-formed commands presented to the block run in the order given, each on the state the one before it left. -/
def Obligations.CommandsRunInOrder : Prop :=
  ∀ (cmds : List Instr) (s t : State), (∀ i ∈ cmds, i.wellFormed = true) → s.pending = [] →
    runCommands cmds s = .next t → core.run cmds.length (present cmds s) = .next t

/-- R146: in the faulted state every command but NOP, CLR and RDREG is refused, and a refused command is no new fault. -/
def Obligations.FaultedBlockRefuses : Prop :=
  ∀ (s : State) (c : Cause) (i : Instr), s.fault = some c → runsFaulted i = false → Refuses i s c

/-- R153: in the faulted state no register and no table changes and no byte leaves, except through CLR or the reset input. -/
def Obligations.FaultedStateIsQuiescent : Prop :=
  ∀ (s t : State), s.fault ≠ none → step s = .next t → (∀ rest, s.pending ≠ .reset :: rest) →
    (∀ rest, s.pending ≠ .command (encode .clr) :: rest) →
    t = { s with pending := t.pending, sent := t.sent } ∧ outStream t = outStream s

/-- R140: whatever command ends with `err = 1` changed nothing but the fault record and emitted no byte. -/
def Obligations.FaultsArePrecise : Prop :=
  ∀ (i : Instr) (s t : State) (c : Cause) (r : Response), exec i s = .next t →
    t.sent.getLast? = some (.response r) → r.cause = some c →
    t = { s with fault := t.fault, finfo := t.finfo, fimm := t.fimm, sent := t.sent } ∧
    t.sent = s.sent ++ [.response ⟨some c, 0⟩] ∧ t.fault = some c

/-- R70 and R71: every accepted word gives exactly one response, after all its bytes; with `err = 1` it emits none and its value
is 0. -/
def Obligations.OneResponsePerCommand : Prop :=
  ∀ (s t : State) (w : CmdWord) (rest : List HostInput), s.pending = .command w :: rest → step s = .next t →
    ∃ (out : List Byte) (r : Response), t.sent = s.sent ++ out.map .byte ++ [.response r] ∧
      responses t = responses s ++ [r] ∧ outStream t = outStream s ++ out ∧
      (r.err = true → out = [] ∧ r.value = 0)

/-- R134: the legal-phase table. In a cell "no" the command raises SEQUENCE; in a cell "yes" it does not. In the faulted state
NOP, CLR and RDREG end normally and everything else is refused. -/
def Obligations.LegalPhaseTable : Prop :=
  ∀ (i : Instr) (s : State), i.wellFormed = true →
    (s.fault = none → phaseAllows i s = false → Raises i s .sequence) ∧
    (s.fault = none → phaseAllows i s = true → ¬ Raises i s .sequence) ∧
    (∀ c, s.fault = some c → runsFaulted i = true → ∃ t v, Completes i s t v []) ∧
    (∀ c, s.fault = some c → runsFaulted i = false → Refuses i s c)

/-- R12: the legal phase changes are exactly these. -/
def Obligations.PhaseChangesAreLegal : Prop :=
  ∀ (i : Instr) (s t : State), exec i s = .next t → t.phase ≠ s.phase →
    (i = .build ∧ s.phase = .count ∧ t.phase = .built) ∨
    (i = .gen ∧ s.phase = .built ∧ t.phase = .coded) ∨
    (i = .flush ∧ s.phase = .coded ∧ t.phase = .done) ∨
    (i = .decbeg ∧ (s.phase = .built ∨ s.phase = .coded) ∧ t.phase = .decode) ∨
    (i = .decend ∧ s.phase = .decode ∧ t.phase = .done) ∨
    (i = .clr ∧ t.phase = .count)

/-- R150: `fault_o` is 1 exactly when a fault is recorded; a fault raises it and only CLR, or reset, drops it. -/
def Obligations.FaultOutputLevel : Prop :=
  (∀ s : State, faultO s = true ↔ s.fault ≠ none) ∧
  (∀ (i : Instr) (s : State) (c : Cause), Raises i s c → ∃ t, exec i s = .next t ∧ faultO t = true) ∧
  (∀ (i : Instr) (s t : State), exec i s = .next t → faultO s = true → faultO t = false → i = .clr)

/-! ### System commands: 45_system.md -/

/-- R130: NOP, in every state. -/
def Obligations.NopDoesNothing : Prop :=
  decode 0x00000000000000000000 = .ok .nop ∧
  ∀ s : State, ∃ t, Completes .nop s t 0 [] ∧ t = { s with sent := t.sent }

/-- R131: CLR, in every state, leaves every register and every FREQ entry 0 and the block out of the faulted state. That NODE and
CODE hold nothing afterwards is the model's choice (logs 1 and 2): R131 leaves their contents unspecified and unobservable, so
the statement is derived from R131 and these logs. -/
def Obligations.ClrRestoresReset : Prop :=
  decode 0x01000000000000000000 = .ok .clr ∧
  ∀ s : State, ∃ t, Completes .clr s t 0 [] ∧ t.pending = s.pending ∧
    t = { State.reset with pending := t.pending, sent := t.sent } ∧
    (∀ (r : Byte) (v : Word64), registerValue t r = some v → v = 0) ∧ ∀ b : Byte, freqAt t b = 0

/-- R132 with R24: RDREG, in every state, reads the register of that number and changes nothing; 14 and above is ILLEGAL, and
refused when faulted. STATUS is given with R12's PHASE codes and R141's cause codes as numbers. -/
def Obligations.RdregReadsRegister : Prop :=
  ∀ (r : Byte) (s : State),
    (r.toNat ≤ 13 → decode (commandWord 0x02 r 0) = .ok (.rdreg r)) ∧
    (r.toNat ≤ 13 → ∃ t v, Completes (.rdreg r) s t v [] ∧ t = { s with sent := t.sent } ∧
      (r = 0 → v.toNat =
        (match s.phase with
          | .count => 0
          | .built => 1
          | .coded => 2
          | .decode => 3
          | .done => 4) +
        8 * (if s.codev = true then 1 else 0) +
        16 * (match s.fault with
          | none => 0
          | some .illegal => 1
          | some .sequence => 2
          | some .empty => 3
          | some .overflow => 4
          | some .format => 5
          | some .nocode => 6
          | some .integrity => 7
          | some .range => 8) +
        256 * (if s.excess = true then 1 else 0)) ∧
      (r = 1 → v.toNat = s.finfo.toNat) ∧ (r = 2 → v = s.total) ∧ (r = 3 → v.toNat = s.symcnt.toNat) ∧
      (r = 4 → v.toNat = s.nnodes.toNat) ∧ (r = 5 → v.toNat = s.root.toNat) ∧ (r = 6 → v = s.origlen) ∧
      (r = 7 → v = s.bitlimit) ∧ (r = 8 → v = s.totalbits) ∧ (r = 9 → v.toNat = s.acc.toNat + 256 * s.nbits.toNat) ∧
      (r = 10 → v = s.emitted) ∧ (r = 11 → v = s.consumed) ∧ (r = 12 → v.toNat = s.cursor.toNat) ∧
      (r = 13 → v = s.fimm)) ∧
    (14 ≤ r.toNat → s.fault = none → Raises (.rdreg r) s .illegal) ∧
    (14 ≤ r.toNat → ∀ c, s.fault = some c → Refuses (.rdreg r) s c)

/-- R133: WRREG writes ORIGLEN or BITLIMIT, except in DECODE; any other register number is ILLEGAL. -/
def Obligations.WrregWritesLimit : Prop :=
  ∀ (r : Byte) (v : Word64) (s : State), s.fault = none →
    (r = 6 ∨ r = 7 → decode (commandWord 0x03 r v) = .ok (.wrreg r v)) ∧
    (r ≠ 6 → r ≠ 7 → Raises (.wrreg r v) s .illegal) ∧
    (r = 6 ∨ r = 7 → s.phase = .decode → Raises (.wrreg r v) s .sequence) ∧
    (r = 6 → s.phase ≠ .decode → ∃ t, Completes (.wrreg r v) s t 0 [] ∧ t = { s with origlen := v, sent := t.sent }) ∧
    (r = 7 → s.phase ≠ .decode → ∃ t, Completes (.wrreg r v) s t 0 [] ∧ t = { s with bitlimit := v, sent := t.sent })

/-- R18: no command but WRREG and CLR writes ORIGLEN or BITLIMIT. -/
def Obligations.LimitsWrittenOnlyByWrreg : Prop :=
  ∀ (i : Instr) (s t : State), exec i s = .next t → (∀ r v, i ≠ .wrreg r v) → i ≠ .clr →
    t.origlen = s.origlen ∧ t.bitlimit = s.bitlimit

/-! ### Frequency table: 40_frequency.md -/

/-- R80: ACC. The counts are exact numbers: no operation wraps (R9). -/
def Obligations.AccCountsOneByte : Prop :=
  ∀ (b : Byte) (s : State), s.fault = none →
    decode (commandWord 0x10 b 0) = .ok (.acc b) ∧
    (s.phase ≠ .count → Raises (.acc b) s .sequence) ∧
    (s.phase = .count → s.total.toNat = 2 ^ 64 - 1 → Raises (.acc b) s .overflow) ∧
    (s.phase = .count → s.total.toNat < 2 ^ 64 - 1 → CountersInv s →
      ∃ t, Completes (.acc b) s t 0 [] ∧
        t = { s with freq := t.freq, symcnt := t.symcnt, total := t.total, sent := t.sent } ∧
        (freqAt t b).toNat = (freqAt s b).toNat + 1 ∧ (∀ a, a ≠ b → freqAt t a = freqAt s a) ∧
        t.total.toNat = s.total.toNat + 1 ∧
        t.symcnt.toNat = s.symcnt.toNat + (if freqAt s b = 0 then 1 else 0))

/-- R81: LDF, with its faults in the order the rule gives. -/
def Obligations.LdfLoadsOneEntry : Prop :=
  ∀ (b : Byte) (f : Word64) (s : State), s.fault = none →
    decode (commandWord 0x11 b f) = .ok (.ldf b f) ∧
    (s.phase ≠ .count → Raises (.ldf b f) s .sequence) ∧
    (s.phase = .count → f = 0 → Raises (.ldf b f) s .format) ∧
    (s.phase = .count → f ≠ 0 → freqAt s b ≠ 0 → Raises (.ldf b f) s .format) ∧
    (s.phase = .count → f ≠ 0 → freqAt s b = 0 → 2 ^ 64 ≤ s.total.toNat + f.toNat → Raises (.ldf b f) s .overflow) ∧
    (s.phase = .count → f ≠ 0 → freqAt s b = 0 → s.total.toNat + f.toNat < 2 ^ 64 → CountersInv s →
      ∃ t, Completes (.ldf b f) s t 0 [] ∧
        t = { s with freq := t.freq, symcnt := t.symcnt, total := t.total, sent := t.sent } ∧
        freqAt t b = f ∧ (∀ a, a ≠ b → freqAt t a = freqAt s a) ∧
        t.total.toNat = s.total.toNat + f.toNat ∧ t.symcnt.toNat = s.symcnt.toNat + 1)

/-- R82: RDF, in every phase. -/
def Obligations.RdfReadsEntry : Prop :=
  ∀ (b : Byte) (s : State), s.fault = none →
    decode (commandWord 0x12 b 0) = .ok (.rdf b) ∧
    ∃ t, Completes (.rdf b) s t (freqAt s b) [] ∧ t = { s with sent := t.sent }

/-! ### Tree builder: 41_tree.md -/

/-- R90: BUILD. The tree is the greedy one: the first SYMCNT records are the counted symbols' leaves in ascending symbol order, each
with its count (`TreeShape` says so record by record), and every further record takes the two active records with the least
keys, the lesser as its left child, with their frequencies' sum. -/
def Obligations.BuildMakesGreedyTree : Prop :=
  ∀ s : State, s.fault = none →
    decode 0x20000000000000000000 = .ok .build ∧
    (s.phase ≠ .count → Raises .build s .sequence) ∧
    (s.phase = .count → s.symcnt = 0 → Raises .build s .empty) ∧
    (s.phase = .count → s.symcnt ≠ 0 → CountersInv s →
      ∃ t, Completes .build s t (t.nnodes.setWidth 64) [] ∧
        t = { s with nodes := t.nodes, root := t.root, nnodes := t.nnodes, phase := .built, sent := t.sent } ∧
        TreeShape t ∧
        ∀ (k : Nat) (f : Word64) (l r : NodeIx), t.nodes[k]? = some (.internal f l r) →
          f.toNat = freqOf t.nodes l.toNat + freqOf t.nodes r.toNat ∧ greedyAt t.nodes k l r)

/-- R93: BUILD's result is a function of the 256 FREQ values and of nothing else. -/
def Obligations.BuildDependsOnFreqOnly : Prop :=
  ∀ s s' t t' : State, CountersInv s → CountersInv s' → (∀ b, freqAt s b = freqAt s' b) →
    s.fault = none → s'.fault = none → s.phase = .count → s'.phase = .count → s.symcnt ≠ 0 →
    exec .build s = .next t → exec .build s' = .next t' →
    t.nodes = t'.nodes ∧ t.root = t'.root ∧ t.nnodes = t'.nnodes

/-- R95: the single-symbol tree is one Leaf record. -/
def Obligations.SingleSymbolTreeIsOneLeaf : Prop :=
  ∀ (s : State) (b : Byte), CountersInv s → s.fault = none → s.phase = .count → freqAt s b ≠ 0 →
    (∀ a, a ≠ b → freqAt s a = 0) →
    ∃ t, Completes .build s t 1 [] ∧ t.nodes = [.leaf b (freqAt s b)] ∧ t.root = 0 ∧ t.nnodes = 1

/-- R91: RDNF. The premise on the tree holds that NODE is empty in
COUNT, the model's choice (log 1); `UnspecifiedTablesUnobservable` says the same for every content. -/
def Obligations.RdnfReadsFrequency : Prop :=
  ∀ (i : NodeIx) (s : State), s.fault = none → TreeInv s →
    decode (commandWord 0x21 0 (i.setWidth 64)) = .ok (.rdnf i) ∧
    (s.phase = .count → Raises (.rdnf i) s .sequence) ∧
    (s.phase ≠ .count → s.nnodes.toNat ≤ i.toNat → Raises (.rdnf i) s .range) ∧
    (s.phase ≠ .count → i.toNat < s.nnodes.toNat →
      ∃ t n, nodeAt s i = some n ∧ Completes (.rdnf i) s t n.freq [] ∧ t = { s with sent := t.sent })

/-- R92: RDNL, field by field. The premise on the tree holds that NODE is empty in
COUNT, the model's choice (log 1); `UnspecifiedTablesUnobservable` says the same for every content. -/
def Obligations.RdnlReadsLinks : Prop :=
  ∀ (i : NodeIx) (s : State), s.fault = none → TreeInv s →
    decode (commandWord 0x22 0 (i.setWidth 64)) = .ok (.rdnl i) ∧
    (s.phase = .count → Raises (.rdnl i) s .sequence) ∧
    (s.phase ≠ .count → s.nnodes.toNat ≤ i.toNat → Raises (.rdnl i) s .range) ∧
    (s.phase ≠ .count → i.toNat < s.nnodes.toNat →
      ∃ t v n, nodeAt s i = some n ∧ Completes (.rdnl i) s t v [] ∧ t = { s with sent := t.sent } ∧
        v.extractLsb' 0 9 = n.left ∧ v.extractLsb' 9 9 = n.right ∧ v.extractLsb' 18 8 = n.sym ∧
        v.extractLsb' 26 1 = n.kind ∧ v.extractLsb' 27 37 = 0)

/-! ### Code table: 42_codetable.md -/

/-- R100: GEN. With a Leaf root the one code is "0"; else a counted symbol's code is the branches from the root to its leaf;
every other symbol has no code. -/
def Obligations.GenRecordsTreePaths : Prop :=
  ∀ s : State, s.fault = none →
    decode 0x30000000000000000000 = .ok .gen ∧
    (s.phase ≠ .built → Raises .gen s .sequence) ∧
    (s.phase = .built → CountersInv s → TreeShape s →
      ∃ t, Completes .gen s t 0 [] ∧
        t = { s with code := t.code, totalbits := 0, acc := 0, nbits := 0, codev := true, phase := .coded, sent := t.sent } ∧
        (∀ b, freqAt s b = 0 → codeAt t b = []) ∧
        (∀ b f, nodeAt s s.root = some (.leaf b f) → codeAt t b = [false]) ∧
        (isInternal s.nodes s.root.toNat = true → ∀ b, freqAt s b ≠ 0 →
          ∃ i, TreePath s.nodes s.root (codeAt t b) i ∧ nodeAt s i = some (.leaf b (freqAt s b))))

/-- R101: RDCL. -/
def Obligations.RdclReadsLength : Prop :=
  ∀ (b : Byte) (s : State), s.fault = none →
    decode (commandWord 0x31 b 0) = .ok (.rdcl b) ∧
    (s.codev = false → Raises (.rdcl b) s .sequence) ∧
    (s.codev = true → CodesInv s →
      ∃ t v, Completes (.rdcl b) s t v [] ∧ t = { s with sent := t.sent } ∧ v.toNat = (codeAt s b).length)

/-- R102: RDCB, bit by bit. -/
def Obligations.RdcbReadsChunk : Prop :=
  ∀ (b : Byte) (j : BitVec 2) (s : State), s.fault = none →
    decode (commandWord 0x32 b (j.setWidth 64)) = .ok (.rdcb b j) ∧
    (s.codev = false → Raises (.rdcb b j) s .sequence) ∧
    (s.codev = true →
      ∃ t v, Completes (.rdcb b j) s t v [] ∧ t = { s with sent := t.sent } ∧
        ∀ u < 64, v.getLsbD (63 - u) = (codeAt s b).getD (64 * j.toNat + u) false)

/-! ### Packer: 43_packer.md -/

/-- R110: ENC. The bits waiting in ACC and then the code's bits are the bytes emitted and then the bits left waiting. -/
def Obligations.EncAppendsCode : Prop :=
  ∀ (b : Byte) (s : State), s.fault = none →
    decode (commandWord 0x40 b 0) = .ok (.enc b) ∧
    (s.phase ≠ .coded → Raises (.enc b) s .sequence) ∧
    (s.phase = .coded → codeAt s b = [] → Raises (.enc b) s .nocode) ∧
    (s.phase = .coded → codeAt s b ≠ [] → 2 ^ 64 ≤ s.totalbits.toNat + (codeAt s b).length → Raises (.enc b) s .overflow) ∧
    (s.phase = .coded → codeAt s b ≠ [] → s.totalbits.toNat + (codeAt s b).length < 2 ^ 64 →
      ∃ t out, Completes (.enc b) s t (BitVec.ofNat 64 out.length) out ∧
        t = { s with acc := t.acc, nbits := t.nbits, totalbits := t.totalbits, sent := t.sent } ∧
        out.length = (s.nbits.toNat + (codeAt s b).length) / 8 ∧
        waitingBits s ++ codeAt s b = out.flatMap byteBits ++ waitingBits t ∧
        (unfilledZero s → unfilledZero t) ∧
        t.totalbits.toNat = s.totalbits.toNat + (codeAt s b).length)

/-- R111: FLUSH. The byte emitted, if bits are waiting, holds them and then zero padding. -/
def Obligations.FlushPadsLastByte : Prop :=
  ∀ s : State, s.fault = none →
    decode 0x41000000000000000000 = .ok .flush ∧
    (s.phase ≠ .coded → Raises .flush s .sequence) ∧
    (s.phase = .coded → unfilledZero s →
      ∃ t out, Completes .flush s t (BitVec.ofNat 64 out.length) out ∧
        t = { s with acc := 0, nbits := 0, phase := .done, sent := t.sent } ∧
        (s.nbits = 0 → out = []) ∧
        (s.nbits ≠ 0 → ∃ c, out = [c] ∧ byteBits c = waitingBits s ++ List.replicate (8 - s.nbits.toNat) false))

/-- R112: the stream-level statement of the packer, from the state GEN leaves, for symbols that all have codes. -/
def Obligations.PackerStream : Prop :=
  ∀ (bs : List Byte) (s : State), s.fault = none → s.phase = .coded → s.totalbits = 0 → s.acc = 0 → s.nbits = 0 →
    (∀ b ∈ bs, codeAt s b ≠ []) → (bs.flatMap (codeAt s)).length < 2 ^ 64 →
    ∃ t u out last, runCommands (bs.map .enc) s = .next t ∧ exec .flush t = .next u ∧
      outStream t = outStream s ++ out ∧ outStream u = outStream t ++ last ∧
      t.totalbits.toNat = (bs.flatMap (codeAt s)).length ∧ u.totalbits = t.totalbits ∧
      out.length = (bs.flatMap (codeAt s)).length / 8 ∧
      (∀ m < out.length, ∀ k < 8, (out.getD m 0).getLsbD (7 - k) = (bs.flatMap (codeAt s)).getD (8 * m + k) false) ∧
      ((bs.flatMap (codeAt s)).length % 8 = 0 → last = []) ∧
      ((bs.flatMap (codeAt s)).length % 8 ≠ 0 → ∃ c, last = [c] ∧
        ∀ k < 8, c.getLsbD (7 - k) = (bs.flatMap (codeAt s)).getD (8 * out.length + k) false)

/-! ### Unpacker: 44_unpacker.md -/

/-- R120: DECBEG. -/
def Obligations.DecbegArmsUnpacker : Prop :=
  ∀ s : State, s.fault = none →
    decode 0x50000000000000000000 = .ok .decbeg ∧
    (s.phase ≠ .built → s.phase ≠ .coded → Raises .decbeg s .sequence) ∧
    (s.phase = .built ∨ s.phase = .coded → s.origlen ≠ s.total → Raises .decbeg s .format) ∧
    (s.phase = .built ∨ s.phase = .coded → s.origlen = s.total →
      ∃ t, Completes .decbeg s t 0 [] ∧
        t = { s with cursor := s.root, emitted := 0, consumed := 0, excess := false, phase := .decode, sent := t.sent })

/-- R121: DEC. After the stop only EXCESS is set; on a Leaf root a run of 0 bits emits the symbol and a 1 bit raises INTEGRITY;
on an Internal root the bits of the byte are walked, most significant first, until the first stop. The premise on the
tree holds that NODE is empty in COUNT, the model's choice (log 1); `UnspecifiedTablesUnobservable` says that no answer there
depends on it. -/
def Obligations.DecConsumesOneByte : Prop :=
  ∀ (b : Byte) (s : State), s.fault = none → TreeInv s → DecoderInv s →
    decode (commandWord 0x51 b 0) = .ok (.dec b) ∧
    (s.phase ≠ .decode → Raises (.dec b) s .sequence) ∧
    (s.phase = .decode → s.emitted = s.origlen ∨ s.consumed = s.bitlimit →
      ∃ t, Completes (.dec b) s t 0 [] ∧ t = { s with excess := true, sent := t.sent }) ∧
    (∀ sym f m, s.phase = .decode → s.emitted ≠ s.origlen → s.consumed ≠ s.bitlimit →
      nodeAt s s.root = some (.leaf sym f) →
      m = min 8 (min (s.bitlimit.toNat - s.consumed.toNat) (s.origlen.toNat - s.emitted.toNat)) →
      (true ∈ (byteBits b).take m → Raises (.dec b) s .integrity) ∧
      (true ∉ (byteBits b).take m →
        ∃ t, Completes (.dec b) s t (BitVec.ofNat 64 m) (List.replicate m sym) ∧
          t = { s with consumed := t.consumed, emitted := t.emitted, sent := t.sent } ∧
          t.consumed.toNat = s.consumed.toNat + m ∧ t.emitted.toNat = s.emitted.toNat + m)) ∧
    (s.phase = .decode → s.emitted ≠ s.origlen → s.consumed ≠ s.bitlimit → isInternal s.nodes s.root.toNat = true →
      ∃ t out n, Completes (.dec b) s t (BitVec.ofNat 64 out.length) out ∧
        t = { s with consumed := t.consumed, emitted := t.emitted, cursor := t.cursor, sent := t.sent } ∧
        n ≤ 8 ∧ Decodes s.nodes s.root s.cursor ((byteBits b).take n) out t.cursor ∧
        t.consumed.toNat = s.consumed.toNat + n ∧ t.emitted.toNat = s.emitted.toNat + out.length ∧
        (n = 8 ∨ t.emitted = t.origlen ∨ t.consumed = t.bitlimit) ∧
        ∀ k < n, ∀ out' d, Decodes s.nodes s.root s.cursor ((byteBits b).take k) out' d →
          s.emitted.toNat + out'.length < s.origlen.toNat ∧ s.consumed.toNat + k < s.bitlimit.toNat)

/-- R122: DECEND. -/
def Obligations.DecendChecksIntegrity : Prop :=
  ∀ s : State, s.fault = none →
    decode 0x52000000000000000000 = .ok .decend ∧
    (s.phase ≠ .decode → Raises .decend s .sequence) ∧
    (s.phase = .decode → s.emitted ≠ s.origlen ∨ s.consumed ≠ s.bitlimit ∨ s.excess = true → Raises .decend s .integrity) ∧
    (s.phase = .decode → s.emitted = s.origlen → s.consumed = s.bitlimit → s.excess = false →
      ∃ t, Completes .decend s t s.emitted [] ∧ t = { s with phase := .done, sent := t.sent })

/-- R123: the stream-level statement of the unpacker, from the state DECBEG leaves, when the root is Internal. -/
def Obligations.UnpackerStream : Prop :=
  ∀ (bs : List Byte) (s : State), s.fault = none → s.phase = .decode → Invariant s →
    isInternal s.nodes s.root.toNat = true → s.emitted = 0 → s.consumed = 0 → s.cursor = s.root →
    ∃ t out, runCommands (bs.map .dec) s = .next t ∧ outStream t = outStream s ++ out ∧
      t.consumed.toNat ≤ (bs.flatMap byteBits).length ∧
      Decodes s.nodes s.root s.root ((bs.flatMap byteBits).take t.consumed.toNat) out t.cursor ∧
      t.emitted.toNat = out.length ∧
      (t.emitted = s.origlen ∨ t.consumed = s.bitlimit ∨ t.consumed.toNat = (bs.flatMap byteBits).length) ∧
      ∀ k < t.consumed.toNat, ∀ out' d, Decodes s.nodes s.root s.root ((bs.flatMap byteBits).take k) out' d →
        out'.length < s.origlen.toNat ∧ k < s.bitlimit.toNat

/-- R124, through the container of R50: what a compress job writes, a decompress job reads back, for every non-empty input whose
code bits fit the 64-bit counter whatever the code lengths (R9, R110). That both jobs begin with CLR and not with reset is the
model's choice (log 17). -/
def Obligations.CompressDecompressRoundTrip : Prop :=
  ∀ (input magic : List Byte) (s : State), input ≠ [] → 255 * input.length < 2 ^ 64 → magic.length = 4 →
    ∃ t c u, runCommands (compressCommands input) s = .next t ∧ t.fault = none ∧ t.phase = .done ∧
      ∃ payload, outStream t = outStream s ++ payload ∧
      readContainer magic (containerBytes magic (containerOf t payload)) = .ok c ∧
      runCommands (decompressCommands c) t = .next u ∧ u.fault = none ∧ u.phase = .done ∧
      outStream u = outStream t ++ input

/-! ### Reads, tables, reset: R20, R22, R23, R29, R45, R171 -/

/-- R45: a read command that ends normally changes no state, and doing it again gives the same response. -/
def Obligations.ReadsHaveNoSideEffects : Prop :=
  ∀ (i : Instr) (s t : State) (v : Word64) (out : List Byte),
    ((∃ r, i = .rdreg r) ∨ (∃ b, i = .rdf b) ∨ (∃ n, i = .rdnf n) ∨ (∃ n, i = .rdnl n) ∨ (∃ b, i = .rdcl b) ∨
      ∃ b j, i = .rdcb b j) →
    Completes i s t v out → out = [] ∧ t = { s with sent := t.sent } ∧ ∃ u, Completes i t u v []

/-- R20, R22, R23: FREQ is written by ACC, LDF and CLR only, NODE by BUILD and CLR only, CODE by GEN and CLR only. -/
def Obligations.TablesWrittenOnlyByTheirCommands : Prop :=
  ∀ (i : Instr) (s t : State), exec i s = .next t → i ≠ .clr →
    (t.freq ≠ s.freq → s.phase = .count ∧ ((∃ b, i = .acc b) ∨ ∃ b f, i = .ldf b f)) ∧
    (t.nodes ≠ s.nodes ∨ t.nnodes ≠ s.nnodes ∨ t.root ≠ s.root → i = .build) ∧
    (t.code ≠ s.code ∨ t.codev ≠ s.codev → i = .gen)

/-- R171: before BUILD nothing a command answers depends on NODE or CODE, and before GEN nothing depends on CODE. The contents the
model gives them then (log entries 1 and 2) cannot be seen. -/
def Obligations.UnspecifiedTablesUnobservable : Prop :=
  (∀ (i : Instr) (s t : State) (ns : List Node) (cs : List (Nat × List Bool)), CodevInv s → s.phase = .count →
    exec i s = .next t →
    ∃ u, exec i { s with nodes := ns, code := cs } = .next u ∧ u = { t with nodes := u.nodes, code := u.code } ∧
      (t.phase ≠ .count → u.nodes = t.nodes)) ∧
  (∀ (i : Instr) (s t : State) (cs : List (Nat × List Bool)), CodevInv s → s.codev = false → exec i s = .next t →
    ∃ u, exec i { s with code := cs } = .next u ∧ u = { t with code := u.code } ∧ (t.codev = true → u.code = t.code))

/-- R29: the reset state, as the read commands see it. -/
def Obligations.ResetReadsZero : Prop :=
  (∀ (r : Byte) (v : Word64), registerValue State.reset r = some v → v = 0) ∧
  (∀ b : Byte, freqAt State.reset b = 0) ∧ State.reset.phase = .count ∧ State.reset.fault = none ∧
  faultO State.reset = false ∧ (∀ b : Byte, ∃ t, Completes (.rdf b) State.reset t 0 []) ∧
  ∀ r : Byte, r.toNat ≤ 13 → ∃ t, Completes (.rdreg r) State.reset t 0 []

/-! ### Invariants between commands: R28 -/

/-- The reset state meets `Invariant`: R28 items 1 to 5, NNODES and ROOT 0 in COUNT (R16, R17) and R134's CODEV columns. With them
go the model's own choices: NODE holds nothing at reset (log 1; R20 and R29 leave it unspecified), and the lists that hold FREQ
and CODE are in canonical form (logs 8 and 14). -/
def Obligations.ResetMeetsInvariant : Prop := Invariant State.reset ∧ State.reset.memoryWf

/-- Every step keeps the lists that hold FREQ and CODE in canonical form. That form is the model's own representation of the two
256-entry tables (log 8 for FREQ, log 14 for CODE); the spec says nothing of lists. -/
def Obligations.StepKeepsTablesCanonical : Prop :=
  ∀ s t : State, s.memoryWf → step s = .next t → t.memoryWf

/-- R28 item 1, with the canonical form of the list that holds FREQ (the model's own, log 8). -/
def Obligations.StepKeepsCounters : Prop :=
  ∀ s t : State, CountersInv s → step s = .next t → CountersInv t

/-- R28 item 2 outside COUNT, with R20's sum in every Internal record; NNODES and ROOT are 0 in COUNT (R16, R17). That NODE holds
the valid records and no other, so nothing in COUNT, is the model's choice (log 1; R20 and R29 leave the rest unspecified). The
premise on the counters holds the canonical form of the list for FREQ, the model's own (log 8). -/
def Obligations.StepKeepsTreeShape : Prop :=
  ∀ s t : State, CountersInv s → TreeInv s → step s = .next t → TreeInv t

/-- R28 item 3 with R134's CODEV columns and R23's bound on a code's length, with the canonical form of the list that holds CODE
(the model's own, log 14). The premises on the counters and the tree hold the model's own forms of FREQ and NODE (logs 8 and 1). -/
def Obligations.StepKeepsPrefixFreeCodes : Prop :=
  ∀ s t : State, CountersInv s → TreeInv s → CodevInv s → CodesInv s → step s = .next t → CodevInv t ∧ CodesInv t

/-- R28 item 4. -/
def Obligations.StepKeepsPacker : Prop :=
  ∀ s t : State, PackerInv s → step s = .next t → PackerInv t

/-- R28 item 5. The premises on the counters and the tree hold the model's own forms of FREQ and NODE (logs 8 and 1). -/
def Obligations.StepKeepsDecoder : Prop :=
  ∀ s t : State, CountersInv s → TreeInv s → DecoderInv s → step s = .next t → DecoderInv t

/-- R28 and R180: from every state that meets `Invariant` a step answers a next state, never a stop, and it meets `Invariant`.
Beside R28 items 1 to 5 that holds R16 and R17 (NNODES and ROOT are 0 in COUNT), R20's sum in every Internal record, R23's bound
on a code's length, R134's CODEV columns, and what is the model's own: NODE holds the valid records and no other, so nothing in
COUNT (log 1), and the lists that hold FREQ and CODE are in canonical form (logs 8 and 14). -/
def Obligations.StepNeverStops : Prop :=
  ∀ s : State, Invariant s → ∃ t, step s = .next t ∧ Invariant t

/-! ### The container: 20_memory.md -/

/-- R50 and R54: the host reads back the container it wrote, for a symbol count of 1 to 256. -/
def Obligations.ContainerReadsBack : Prop :=
  ∀ (magic : List Byte) (c : Container), magic.length = 4 → 1 ≤ c.pairs.length → c.pairs.length ≤ 256 →
    readContainer magic (containerBytes magic c) = .ok c ∧
    (containerBytes magic c).length = 14 + 9 * c.pairs.length + c.payload.length + 8
end

