-- ==== Sys2Proof/Laws/State.lean ====
section
/-! SUPPORT. What each named update of the state does to each field, so that no later proof unfolds a record update. -/

namespace Sys2Proof.Machine

/-! `respond`: the response and the bytes before it (R71). -/

@[simp] theorem respond_phase (s : State) (r : Response) (out : List Byte) : (respond s r out).phase = s.phase := rfl
@[simp] theorem respond_codev (s : State) (r : Response) (out : List Byte) : (respond s r out).codev = s.codev := rfl
@[simp] theorem respond_fault (s : State) (r : Response) (out : List Byte) : (respond s r out).fault = s.fault := rfl
@[simp] theorem respond_excess (s : State) (r : Response) (out : List Byte) : (respond s r out).excess = s.excess := rfl
@[simp] theorem respond_finfo (s : State) (r : Response) (out : List Byte) : (respond s r out).finfo = s.finfo := rfl
@[simp] theorem respond_fimm (s : State) (r : Response) (out : List Byte) : (respond s r out).fimm = s.fimm := rfl
@[simp] theorem respond_total (s : State) (r : Response) (out : List Byte) : (respond s r out).total = s.total := rfl
@[simp] theorem respond_symcnt (s : State) (r : Response) (out : List Byte) : (respond s r out).symcnt = s.symcnt := rfl
@[simp] theorem respond_nnodes (s : State) (r : Response) (out : List Byte) : (respond s r out).nnodes = s.nnodes := rfl
@[simp] theorem respond_root (s : State) (r : Response) (out : List Byte) : (respond s r out).root = s.root := rfl
@[simp] theorem respond_origlen (s : State) (r : Response) (out : List Byte) : (respond s r out).origlen = s.origlen := rfl
@[simp] theorem respond_bitlimit (s : State) (r : Response) (out : List Byte) : (respond s r out).bitlimit = s.bitlimit := rfl
@[simp] theorem respond_totalbits (s : State) (r : Response) (out : List Byte) : (respond s r out).totalbits = s.totalbits := rfl
@[simp] theorem respond_acc (s : State) (r : Response) (out : List Byte) : (respond s r out).acc = s.acc := rfl
@[simp] theorem respond_nbits (s : State) (r : Response) (out : List Byte) : (respond s r out).nbits = s.nbits := rfl
@[simp] theorem respond_emitted (s : State) (r : Response) (out : List Byte) : (respond s r out).emitted = s.emitted := rfl
@[simp] theorem respond_consumed (s : State) (r : Response) (out : List Byte) : (respond s r out).consumed = s.consumed := rfl
@[simp] theorem respond_cursor (s : State) (r : Response) (out : List Byte) : (respond s r out).cursor = s.cursor := rfl
@[simp] theorem respond_freq (s : State) (r : Response) (out : List Byte) : (respond s r out).freq = s.freq := rfl
@[simp] theorem respond_nodes (s : State) (r : Response) (out : List Byte) : (respond s r out).nodes = s.nodes := rfl
@[simp] theorem respond_code (s : State) (r : Response) (out : List Byte) : (respond s r out).code = s.code := rfl
@[simp] theorem respond_pending (s : State) (r : Response) (out : List Byte) : (respond s r out).pending = s.pending := rfl
@[simp] theorem respond_sent (s : State) (r : Response) (out : List Byte) : (respond s r out).sent = s.sent ++ out.map .byte ++ [.response r] := rfl

/-! `blockReset`: the reset state (R29). -/

@[simp] theorem blockReset_phase (s : State) : (blockReset s).phase = State.reset.phase := rfl
@[simp] theorem blockReset_codev (s : State) : (blockReset s).codev = State.reset.codev := rfl
@[simp] theorem blockReset_fault (s : State) : (blockReset s).fault = State.reset.fault := rfl
@[simp] theorem blockReset_excess (s : State) : (blockReset s).excess = State.reset.excess := rfl
@[simp] theorem blockReset_finfo (s : State) : (blockReset s).finfo = State.reset.finfo := rfl
@[simp] theorem blockReset_fimm (s : State) : (blockReset s).fimm = State.reset.fimm := rfl
@[simp] theorem blockReset_total (s : State) : (blockReset s).total = State.reset.total := rfl
@[simp] theorem blockReset_symcnt (s : State) : (blockReset s).symcnt = State.reset.symcnt := rfl
@[simp] theorem blockReset_nnodes (s : State) : (blockReset s).nnodes = State.reset.nnodes := rfl
@[simp] theorem blockReset_root (s : State) : (blockReset s).root = State.reset.root := rfl
@[simp] theorem blockReset_origlen (s : State) : (blockReset s).origlen = State.reset.origlen := rfl
@[simp] theorem blockReset_bitlimit (s : State) : (blockReset s).bitlimit = State.reset.bitlimit := rfl
@[simp] theorem blockReset_totalbits (s : State) : (blockReset s).totalbits = State.reset.totalbits := rfl
@[simp] theorem blockReset_acc (s : State) : (blockReset s).acc = State.reset.acc := rfl
@[simp] theorem blockReset_nbits (s : State) : (blockReset s).nbits = State.reset.nbits := rfl
@[simp] theorem blockReset_emitted (s : State) : (blockReset s).emitted = State.reset.emitted := rfl
@[simp] theorem blockReset_consumed (s : State) : (blockReset s).consumed = State.reset.consumed := rfl
@[simp] theorem blockReset_cursor (s : State) : (blockReset s).cursor = State.reset.cursor := rfl
@[simp] theorem blockReset_freq (s : State) : (blockReset s).freq = State.reset.freq := rfl
@[simp] theorem blockReset_nodes (s : State) : (blockReset s).nodes = State.reset.nodes := rfl
@[simp] theorem blockReset_code (s : State) : (blockReset s).code = State.reset.code := rfl
@[simp] theorem blockReset_pending (s : State) : (blockReset s).pending = s.pending := rfl
@[simp] theorem blockReset_sent (s : State) : (blockReset s).sent = s.sent := rfl

/-! `countByte`: ACC's updates (R80). -/

@[simp] theorem countByte_phase (b : Byte) (s : State) : (countByte b s).phase = s.phase := rfl
@[simp] theorem countByte_codev (b : Byte) (s : State) : (countByte b s).codev = s.codev := rfl
@[simp] theorem countByte_fault (b : Byte) (s : State) : (countByte b s).fault = s.fault := rfl
@[simp] theorem countByte_excess (b : Byte) (s : State) : (countByte b s).excess = s.excess := rfl
@[simp] theorem countByte_finfo (b : Byte) (s : State) : (countByte b s).finfo = s.finfo := rfl
@[simp] theorem countByte_fimm (b : Byte) (s : State) : (countByte b s).fimm = s.fimm := rfl
@[simp] theorem countByte_total (b : Byte) (s : State) : (countByte b s).total = s.total + 1 := rfl
@[simp] theorem countByte_symcnt (b : Byte) (s : State) : (countByte b s).symcnt = if freqAt s b = 0 then s.symcnt + 1 else s.symcnt := rfl
@[simp] theorem countByte_nnodes (b : Byte) (s : State) : (countByte b s).nnodes = s.nnodes := rfl
@[simp] theorem countByte_root (b : Byte) (s : State) : (countByte b s).root = s.root := rfl
@[simp] theorem countByte_origlen (b : Byte) (s : State) : (countByte b s).origlen = s.origlen := rfl
@[simp] theorem countByte_bitlimit (b : Byte) (s : State) : (countByte b s).bitlimit = s.bitlimit := rfl
@[simp] theorem countByte_totalbits (b : Byte) (s : State) : (countByte b s).totalbits = s.totalbits := rfl
@[simp] theorem countByte_acc (b : Byte) (s : State) : (countByte b s).acc = s.acc := rfl
@[simp] theorem countByte_nbits (b : Byte) (s : State) : (countByte b s).nbits = s.nbits := rfl
@[simp] theorem countByte_emitted (b : Byte) (s : State) : (countByte b s).emitted = s.emitted := rfl
@[simp] theorem countByte_consumed (b : Byte) (s : State) : (countByte b s).consumed = s.consumed := rfl
@[simp] theorem countByte_cursor (b : Byte) (s : State) : (countByte b s).cursor = s.cursor := rfl
@[simp] theorem countByte_freq (b : Byte) (s : State) : (countByte b s).freq = tableWrite 0 s.freq b.toNat (freqAt s b + 1) := rfl
@[simp] theorem countByte_nodes (b : Byte) (s : State) : (countByte b s).nodes = s.nodes := rfl
@[simp] theorem countByte_code (b : Byte) (s : State) : (countByte b s).code = s.code := rfl
@[simp] theorem countByte_pending (b : Byte) (s : State) : (countByte b s).pending = s.pending := rfl
@[simp] theorem countByte_sent (b : Byte) (s : State) : (countByte b s).sent = s.sent := rfl

/-! `loadEntry`: LDF's updates (R81). -/

@[simp] theorem loadEntry_phase (b : Byte) (f : Word64) (s : State) : (loadEntry b f s).phase = s.phase := rfl
@[simp] theorem loadEntry_codev (b : Byte) (f : Word64) (s : State) : (loadEntry b f s).codev = s.codev := rfl
@[simp] theorem loadEntry_fault (b : Byte) (f : Word64) (s : State) : (loadEntry b f s).fault = s.fault := rfl
@[simp] theorem loadEntry_excess (b : Byte) (f : Word64) (s : State) : (loadEntry b f s).excess = s.excess := rfl
@[simp] theorem loadEntry_finfo (b : Byte) (f : Word64) (s : State) : (loadEntry b f s).finfo = s.finfo := rfl
@[simp] theorem loadEntry_fimm (b : Byte) (f : Word64) (s : State) : (loadEntry b f s).fimm = s.fimm := rfl
@[simp] theorem loadEntry_total (b : Byte) (f : Word64) (s : State) : (loadEntry b f s).total = s.total + f := rfl
@[simp] theorem loadEntry_symcnt (b : Byte) (f : Word64) (s : State) : (loadEntry b f s).symcnt = s.symcnt + 1 := rfl
@[simp] theorem loadEntry_nnodes (b : Byte) (f : Word64) (s : State) : (loadEntry b f s).nnodes = s.nnodes := rfl
@[simp] theorem loadEntry_root (b : Byte) (f : Word64) (s : State) : (loadEntry b f s).root = s.root := rfl
@[simp] theorem loadEntry_origlen (b : Byte) (f : Word64) (s : State) : (loadEntry b f s).origlen = s.origlen := rfl
@[simp] theorem loadEntry_bitlimit (b : Byte) (f : Word64) (s : State) : (loadEntry b f s).bitlimit = s.bitlimit := rfl
@[simp] theorem loadEntry_totalbits (b : Byte) (f : Word64) (s : State) : (loadEntry b f s).totalbits = s.totalbits := rfl
@[simp] theorem loadEntry_acc (b : Byte) (f : Word64) (s : State) : (loadEntry b f s).acc = s.acc := rfl
@[simp] theorem loadEntry_nbits (b : Byte) (f : Word64) (s : State) : (loadEntry b f s).nbits = s.nbits := rfl
@[simp] theorem loadEntry_emitted (b : Byte) (f : Word64) (s : State) : (loadEntry b f s).emitted = s.emitted := rfl
@[simp] theorem loadEntry_consumed (b : Byte) (f : Word64) (s : State) : (loadEntry b f s).consumed = s.consumed := rfl
@[simp] theorem loadEntry_cursor (b : Byte) (f : Word64) (s : State) : (loadEntry b f s).cursor = s.cursor := rfl
@[simp] theorem loadEntry_freq (b : Byte) (f : Word64) (s : State) : (loadEntry b f s).freq = tableWrite 0 s.freq b.toNat f := rfl
@[simp] theorem loadEntry_nodes (b : Byte) (f : Word64) (s : State) : (loadEntry b f s).nodes = s.nodes := rfl
@[simp] theorem loadEntry_code (b : Byte) (f : Word64) (s : State) : (loadEntry b f s).code = s.code := rfl
@[simp] theorem loadEntry_pending (b : Byte) (f : Word64) (s : State) : (loadEntry b f s).pending = s.pending := rfl
@[simp] theorem loadEntry_sent (b : Byte) (f : Word64) (s : State) : (loadEntry b f s).sent = s.sent := rfl

/-! `installTree`: BUILD's writes (R90). -/

@[simp] theorem installTree_phase (ns : List Node) (i : Nat) (s : State) : (installTree ns i s).phase = .built := rfl
@[simp] theorem installTree_codev (ns : List Node) (i : Nat) (s : State) : (installTree ns i s).codev = s.codev := rfl
@[simp] theorem installTree_fault (ns : List Node) (i : Nat) (s : State) : (installTree ns i s).fault = s.fault := rfl
@[simp] theorem installTree_excess (ns : List Node) (i : Nat) (s : State) : (installTree ns i s).excess = s.excess := rfl
@[simp] theorem installTree_finfo (ns : List Node) (i : Nat) (s : State) : (installTree ns i s).finfo = s.finfo := rfl
@[simp] theorem installTree_fimm (ns : List Node) (i : Nat) (s : State) : (installTree ns i s).fimm = s.fimm := rfl
@[simp] theorem installTree_total (ns : List Node) (i : Nat) (s : State) : (installTree ns i s).total = s.total := rfl
@[simp] theorem installTree_symcnt (ns : List Node) (i : Nat) (s : State) : (installTree ns i s).symcnt = s.symcnt := rfl
@[simp] theorem installTree_nnodes (ns : List Node) (i : Nat) (s : State) : (installTree ns i s).nnodes = BitVec.ofNat 9 ns.length := rfl
@[simp] theorem installTree_root (ns : List Node) (i : Nat) (s : State) : (installTree ns i s).root = BitVec.ofNat 9 i := rfl
@[simp] theorem installTree_origlen (ns : List Node) (i : Nat) (s : State) : (installTree ns i s).origlen = s.origlen := rfl
@[simp] theorem installTree_bitlimit (ns : List Node) (i : Nat) (s : State) : (installTree ns i s).bitlimit = s.bitlimit := rfl
@[simp] theorem installTree_totalbits (ns : List Node) (i : Nat) (s : State) : (installTree ns i s).totalbits = s.totalbits := rfl
@[simp] theorem installTree_acc (ns : List Node) (i : Nat) (s : State) : (installTree ns i s).acc = s.acc := rfl
@[simp] theorem installTree_nbits (ns : List Node) (i : Nat) (s : State) : (installTree ns i s).nbits = s.nbits := rfl
@[simp] theorem installTree_emitted (ns : List Node) (i : Nat) (s : State) : (installTree ns i s).emitted = s.emitted := rfl
@[simp] theorem installTree_consumed (ns : List Node) (i : Nat) (s : State) : (installTree ns i s).consumed = s.consumed := rfl
@[simp] theorem installTree_cursor (ns : List Node) (i : Nat) (s : State) : (installTree ns i s).cursor = s.cursor := rfl
@[simp] theorem installTree_freq (ns : List Node) (i : Nat) (s : State) : (installTree ns i s).freq = s.freq := rfl
@[simp] theorem installTree_nodes (ns : List Node) (i : Nat) (s : State) : (installTree ns i s).nodes = ns := rfl
@[simp] theorem installTree_code (ns : List Node) (i : Nat) (s : State) : (installTree ns i s).code = s.code := rfl
@[simp] theorem installTree_pending (ns : List Node) (i : Nat) (s : State) : (installTree ns i s).pending = s.pending := rfl
@[simp] theorem installTree_sent (ns : List Node) (i : Nat) (s : State) : (installTree ns i s).sent = s.sent := rfl

/-! `installCodes`: GEN's writes (R100). -/

@[simp] theorem installCodes_phase (t : Table (List Bool)) (s : State) : (installCodes t s).phase = .coded := rfl
@[simp] theorem installCodes_codev (t : Table (List Bool)) (s : State) : (installCodes t s).codev = true := rfl
@[simp] theorem installCodes_fault (t : Table (List Bool)) (s : State) : (installCodes t s).fault = s.fault := rfl
@[simp] theorem installCodes_excess (t : Table (List Bool)) (s : State) : (installCodes t s).excess = s.excess := rfl
@[simp] theorem installCodes_finfo (t : Table (List Bool)) (s : State) : (installCodes t s).finfo = s.finfo := rfl
@[simp] theorem installCodes_fimm (t : Table (List Bool)) (s : State) : (installCodes t s).fimm = s.fimm := rfl
@[simp] theorem installCodes_total (t : Table (List Bool)) (s : State) : (installCodes t s).total = s.total := rfl
@[simp] theorem installCodes_symcnt (t : Table (List Bool)) (s : State) : (installCodes t s).symcnt = s.symcnt := rfl
@[simp] theorem installCodes_nnodes (t : Table (List Bool)) (s : State) : (installCodes t s).nnodes = s.nnodes := rfl
@[simp] theorem installCodes_root (t : Table (List Bool)) (s : State) : (installCodes t s).root = s.root := rfl
@[simp] theorem installCodes_origlen (t : Table (List Bool)) (s : State) : (installCodes t s).origlen = s.origlen := rfl
@[simp] theorem installCodes_bitlimit (t : Table (List Bool)) (s : State) : (installCodes t s).bitlimit = s.bitlimit := rfl
@[simp] theorem installCodes_totalbits (t : Table (List Bool)) (s : State) : (installCodes t s).totalbits = 0 := rfl
@[simp] theorem installCodes_acc (t : Table (List Bool)) (s : State) : (installCodes t s).acc = 0 := rfl
@[simp] theorem installCodes_nbits (t : Table (List Bool)) (s : State) : (installCodes t s).nbits = 0 := rfl
@[simp] theorem installCodes_emitted (t : Table (List Bool)) (s : State) : (installCodes t s).emitted = s.emitted := rfl
@[simp] theorem installCodes_consumed (t : Table (List Bool)) (s : State) : (installCodes t s).consumed = s.consumed := rfl
@[simp] theorem installCodes_cursor (t : Table (List Bool)) (s : State) : (installCodes t s).cursor = s.cursor := rfl
@[simp] theorem installCodes_freq (t : Table (List Bool)) (s : State) : (installCodes t s).freq = s.freq := rfl
@[simp] theorem installCodes_nodes (t : Table (List Bool)) (s : State) : (installCodes t s).nodes = s.nodes := rfl
@[simp] theorem installCodes_code (t : Table (List Bool)) (s : State) : (installCodes t s).code = t := rfl
@[simp] theorem installCodes_pending (t : Table (List Bool)) (s : State) : (installCodes t s).pending = s.pending := rfl
@[simp] theorem installCodes_sent (t : Table (List Bool)) (s : State) : (installCodes t s).sent = s.sent := rfl

/-! `appendCode`: ENC's writes (R110). -/

@[simp] theorem appendCode_phase (bits : List Bool) (s : State) : (appendCode bits s).phase = s.phase := rfl
@[simp] theorem appendCode_codev (bits : List Bool) (s : State) : (appendCode bits s).codev = s.codev := rfl
@[simp] theorem appendCode_fault (bits : List Bool) (s : State) : (appendCode bits s).fault = s.fault := rfl
@[simp] theorem appendCode_excess (bits : List Bool) (s : State) : (appendCode bits s).excess = s.excess := rfl
@[simp] theorem appendCode_finfo (bits : List Bool) (s : State) : (appendCode bits s).finfo = s.finfo := rfl
@[simp] theorem appendCode_fimm (bits : List Bool) (s : State) : (appendCode bits s).fimm = s.fimm := rfl
@[simp] theorem appendCode_total (bits : List Bool) (s : State) : (appendCode bits s).total = s.total := rfl
@[simp] theorem appendCode_symcnt (bits : List Bool) (s : State) : (appendCode bits s).symcnt = s.symcnt := rfl
@[simp] theorem appendCode_nnodes (bits : List Bool) (s : State) : (appendCode bits s).nnodes = s.nnodes := rfl
@[simp] theorem appendCode_root (bits : List Bool) (s : State) : (appendCode bits s).root = s.root := rfl
@[simp] theorem appendCode_origlen (bits : List Bool) (s : State) : (appendCode bits s).origlen = s.origlen := rfl
@[simp] theorem appendCode_bitlimit (bits : List Bool) (s : State) : (appendCode bits s).bitlimit = s.bitlimit := rfl
@[simp] theorem appendCode_totalbits (bits : List Bool) (s : State) : (appendCode bits s).totalbits = s.totalbits + BitVec.ofNat 64 bits.length := rfl
@[simp] theorem appendCode_acc (bits : List Bool) (s : State) : (appendCode bits s).acc = (packBits bits s.acc s.nbits).1 := rfl
@[simp] theorem appendCode_nbits (bits : List Bool) (s : State) : (appendCode bits s).nbits = (packBits bits s.acc s.nbits).2.1 := rfl
@[simp] theorem appendCode_emitted (bits : List Bool) (s : State) : (appendCode bits s).emitted = s.emitted := rfl
@[simp] theorem appendCode_consumed (bits : List Bool) (s : State) : (appendCode bits s).consumed = s.consumed := rfl
@[simp] theorem appendCode_cursor (bits : List Bool) (s : State) : (appendCode bits s).cursor = s.cursor := rfl
@[simp] theorem appendCode_freq (bits : List Bool) (s : State) : (appendCode bits s).freq = s.freq := rfl
@[simp] theorem appendCode_nodes (bits : List Bool) (s : State) : (appendCode bits s).nodes = s.nodes := rfl
@[simp] theorem appendCode_code (bits : List Bool) (s : State) : (appendCode bits s).code = s.code := rfl
@[simp] theorem appendCode_pending (bits : List Bool) (s : State) : (appendCode bits s).pending = s.pending := rfl
@[simp] theorem appendCode_sent (bits : List Bool) (s : State) : (appendCode bits s).sent = s.sent := rfl

/-! `closePacker`: FLUSH's writes (R111). -/

@[simp] theorem closePacker_phase (s : State) : (closePacker s).phase = .done := rfl
@[simp] theorem closePacker_codev (s : State) : (closePacker s).codev = s.codev := rfl
@[simp] theorem closePacker_fault (s : State) : (closePacker s).fault = s.fault := rfl
@[simp] theorem closePacker_excess (s : State) : (closePacker s).excess = s.excess := rfl
@[simp] theorem closePacker_finfo (s : State) : (closePacker s).finfo = s.finfo := rfl
@[simp] theorem closePacker_fimm (s : State) : (closePacker s).fimm = s.fimm := rfl
@[simp] theorem closePacker_total (s : State) : (closePacker s).total = s.total := rfl
@[simp] theorem closePacker_symcnt (s : State) : (closePacker s).symcnt = s.symcnt := rfl
@[simp] theorem closePacker_nnodes (s : State) : (closePacker s).nnodes = s.nnodes := rfl
@[simp] theorem closePacker_root (s : State) : (closePacker s).root = s.root := rfl
@[simp] theorem closePacker_origlen (s : State) : (closePacker s).origlen = s.origlen := rfl
@[simp] theorem closePacker_bitlimit (s : State) : (closePacker s).bitlimit = s.bitlimit := rfl
@[simp] theorem closePacker_totalbits (s : State) : (closePacker s).totalbits = s.totalbits := rfl
@[simp] theorem closePacker_acc (s : State) : (closePacker s).acc = 0 := rfl
@[simp] theorem closePacker_nbits (s : State) : (closePacker s).nbits = 0 := rfl
@[simp] theorem closePacker_emitted (s : State) : (closePacker s).emitted = s.emitted := rfl
@[simp] theorem closePacker_consumed (s : State) : (closePacker s).consumed = s.consumed := rfl
@[simp] theorem closePacker_cursor (s : State) : (closePacker s).cursor = s.cursor := rfl
@[simp] theorem closePacker_freq (s : State) : (closePacker s).freq = s.freq := rfl
@[simp] theorem closePacker_nodes (s : State) : (closePacker s).nodes = s.nodes := rfl
@[simp] theorem closePacker_code (s : State) : (closePacker s).code = s.code := rfl
@[simp] theorem closePacker_pending (s : State) : (closePacker s).pending = s.pending := rfl
@[simp] theorem closePacker_sent (s : State) : (closePacker s).sent = s.sent := rfl

/-! `armUnpacker`: DECBEG's writes (R120). -/

@[simp] theorem armUnpacker_phase (s : State) : (armUnpacker s).phase = .decode := rfl
@[simp] theorem armUnpacker_codev (s : State) : (armUnpacker s).codev = s.codev := rfl
@[simp] theorem armUnpacker_fault (s : State) : (armUnpacker s).fault = s.fault := rfl
@[simp] theorem armUnpacker_excess (s : State) : (armUnpacker s).excess = false := rfl
@[simp] theorem armUnpacker_finfo (s : State) : (armUnpacker s).finfo = s.finfo := rfl
@[simp] theorem armUnpacker_fimm (s : State) : (armUnpacker s).fimm = s.fimm := rfl
@[simp] theorem armUnpacker_total (s : State) : (armUnpacker s).total = s.total := rfl
@[simp] theorem armUnpacker_symcnt (s : State) : (armUnpacker s).symcnt = s.symcnt := rfl
@[simp] theorem armUnpacker_nnodes (s : State) : (armUnpacker s).nnodes = s.nnodes := rfl
@[simp] theorem armUnpacker_root (s : State) : (armUnpacker s).root = s.root := rfl
@[simp] theorem armUnpacker_origlen (s : State) : (armUnpacker s).origlen = s.origlen := rfl
@[simp] theorem armUnpacker_bitlimit (s : State) : (armUnpacker s).bitlimit = s.bitlimit := rfl
@[simp] theorem armUnpacker_totalbits (s : State) : (armUnpacker s).totalbits = s.totalbits := rfl
@[simp] theorem armUnpacker_acc (s : State) : (armUnpacker s).acc = s.acc := rfl
@[simp] theorem armUnpacker_nbits (s : State) : (armUnpacker s).nbits = s.nbits := rfl
@[simp] theorem armUnpacker_emitted (s : State) : (armUnpacker s).emitted = 0 := rfl
@[simp] theorem armUnpacker_consumed (s : State) : (armUnpacker s).consumed = 0 := rfl
@[simp] theorem armUnpacker_cursor (s : State) : (armUnpacker s).cursor = s.root := rfl
@[simp] theorem armUnpacker_freq (s : State) : (armUnpacker s).freq = s.freq := rfl
@[simp] theorem armUnpacker_nodes (s : State) : (armUnpacker s).nodes = s.nodes := rfl
@[simp] theorem armUnpacker_code (s : State) : (armUnpacker s).code = s.code := rfl
@[simp] theorem armUnpacker_pending (s : State) : (armUnpacker s).pending = s.pending := rfl
@[simp] theorem armUnpacker_sent (s : State) : (armUnpacker s).sent = s.sent := rfl

/-! `markExcess`: EXCESS (R121). -/

@[simp] theorem markExcess_phase (s : State) : (markExcess s).phase = s.phase := rfl
@[simp] theorem markExcess_codev (s : State) : (markExcess s).codev = s.codev := rfl
@[simp] theorem markExcess_fault (s : State) : (markExcess s).fault = s.fault := rfl
@[simp] theorem markExcess_excess (s : State) : (markExcess s).excess = true := rfl
@[simp] theorem markExcess_finfo (s : State) : (markExcess s).finfo = s.finfo := rfl
@[simp] theorem markExcess_fimm (s : State) : (markExcess s).fimm = s.fimm := rfl
@[simp] theorem markExcess_total (s : State) : (markExcess s).total = s.total := rfl
@[simp] theorem markExcess_symcnt (s : State) : (markExcess s).symcnt = s.symcnt := rfl
@[simp] theorem markExcess_nnodes (s : State) : (markExcess s).nnodes = s.nnodes := rfl
@[simp] theorem markExcess_root (s : State) : (markExcess s).root = s.root := rfl
@[simp] theorem markExcess_origlen (s : State) : (markExcess s).origlen = s.origlen := rfl
@[simp] theorem markExcess_bitlimit (s : State) : (markExcess s).bitlimit = s.bitlimit := rfl
@[simp] theorem markExcess_totalbits (s : State) : (markExcess s).totalbits = s.totalbits := rfl
@[simp] theorem markExcess_acc (s : State) : (markExcess s).acc = s.acc := rfl
@[simp] theorem markExcess_nbits (s : State) : (markExcess s).nbits = s.nbits := rfl
@[simp] theorem markExcess_emitted (s : State) : (markExcess s).emitted = s.emitted := rfl
@[simp] theorem markExcess_consumed (s : State) : (markExcess s).consumed = s.consumed := rfl
@[simp] theorem markExcess_cursor (s : State) : (markExcess s).cursor = s.cursor := rfl
@[simp] theorem markExcess_freq (s : State) : (markExcess s).freq = s.freq := rfl
@[simp] theorem markExcess_nodes (s : State) : (markExcess s).nodes = s.nodes := rfl
@[simp] theorem markExcess_code (s : State) : (markExcess s).code = s.code := rfl
@[simp] theorem markExcess_pending (s : State) : (markExcess s).pending = s.pending := rfl
@[simp] theorem markExcess_sent (s : State) : (markExcess s).sent = s.sent := rfl

/-! `consumeRun`: the single-symbol case's writes (R121). -/

@[simp] theorem consumeRun_phase (m : Nat) (s : State) : (consumeRun m s).phase = s.phase := rfl
@[simp] theorem consumeRun_codev (m : Nat) (s : State) : (consumeRun m s).codev = s.codev := rfl
@[simp] theorem consumeRun_fault (m : Nat) (s : State) : (consumeRun m s).fault = s.fault := rfl
@[simp] theorem consumeRun_excess (m : Nat) (s : State) : (consumeRun m s).excess = s.excess := rfl
@[simp] theorem consumeRun_finfo (m : Nat) (s : State) : (consumeRun m s).finfo = s.finfo := rfl
@[simp] theorem consumeRun_fimm (m : Nat) (s : State) : (consumeRun m s).fimm = s.fimm := rfl
@[simp] theorem consumeRun_total (m : Nat) (s : State) : (consumeRun m s).total = s.total := rfl
@[simp] theorem consumeRun_symcnt (m : Nat) (s : State) : (consumeRun m s).symcnt = s.symcnt := rfl
@[simp] theorem consumeRun_nnodes (m : Nat) (s : State) : (consumeRun m s).nnodes = s.nnodes := rfl
@[simp] theorem consumeRun_root (m : Nat) (s : State) : (consumeRun m s).root = s.root := rfl
@[simp] theorem consumeRun_origlen (m : Nat) (s : State) : (consumeRun m s).origlen = s.origlen := rfl
@[simp] theorem consumeRun_bitlimit (m : Nat) (s : State) : (consumeRun m s).bitlimit = s.bitlimit := rfl
@[simp] theorem consumeRun_totalbits (m : Nat) (s : State) : (consumeRun m s).totalbits = s.totalbits := rfl
@[simp] theorem consumeRun_acc (m : Nat) (s : State) : (consumeRun m s).acc = s.acc := rfl
@[simp] theorem consumeRun_nbits (m : Nat) (s : State) : (consumeRun m s).nbits = s.nbits := rfl
@[simp] theorem consumeRun_emitted (m : Nat) (s : State) : (consumeRun m s).emitted = s.emitted + BitVec.ofNat 64 m := rfl
@[simp] theorem consumeRun_consumed (m : Nat) (s : State) : (consumeRun m s).consumed = s.consumed + BitVec.ofNat 64 m := rfl
@[simp] theorem consumeRun_cursor (m : Nat) (s : State) : (consumeRun m s).cursor = s.cursor := rfl
@[simp] theorem consumeRun_freq (m : Nat) (s : State) : (consumeRun m s).freq = s.freq := rfl
@[simp] theorem consumeRun_nodes (m : Nat) (s : State) : (consumeRun m s).nodes = s.nodes := rfl
@[simp] theorem consumeRun_code (m : Nat) (s : State) : (consumeRun m s).code = s.code := rfl
@[simp] theorem consumeRun_pending (m : Nat) (s : State) : (consumeRun m s).pending = s.pending := rfl
@[simp] theorem consumeRun_sent (m : Nat) (s : State) : (consumeRun m s).sent = s.sent := rfl

/-! `endDecode`: DECEND's write (R122). -/

@[simp] theorem endDecode_phase (s : State) : (endDecode s).phase = .done := rfl
@[simp] theorem endDecode_codev (s : State) : (endDecode s).codev = s.codev := rfl
@[simp] theorem endDecode_fault (s : State) : (endDecode s).fault = s.fault := rfl
@[simp] theorem endDecode_excess (s : State) : (endDecode s).excess = s.excess := rfl
@[simp] theorem endDecode_finfo (s : State) : (endDecode s).finfo = s.finfo := rfl
@[simp] theorem endDecode_fimm (s : State) : (endDecode s).fimm = s.fimm := rfl
@[simp] theorem endDecode_total (s : State) : (endDecode s).total = s.total := rfl
@[simp] theorem endDecode_symcnt (s : State) : (endDecode s).symcnt = s.symcnt := rfl
@[simp] theorem endDecode_nnodes (s : State) : (endDecode s).nnodes = s.nnodes := rfl
@[simp] theorem endDecode_root (s : State) : (endDecode s).root = s.root := rfl
@[simp] theorem endDecode_origlen (s : State) : (endDecode s).origlen = s.origlen := rfl
@[simp] theorem endDecode_bitlimit (s : State) : (endDecode s).bitlimit = s.bitlimit := rfl
@[simp] theorem endDecode_totalbits (s : State) : (endDecode s).totalbits = s.totalbits := rfl
@[simp] theorem endDecode_acc (s : State) : (endDecode s).acc = s.acc := rfl
@[simp] theorem endDecode_nbits (s : State) : (endDecode s).nbits = s.nbits := rfl
@[simp] theorem endDecode_emitted (s : State) : (endDecode s).emitted = s.emitted := rfl
@[simp] theorem endDecode_consumed (s : State) : (endDecode s).consumed = s.consumed := rfl
@[simp] theorem endDecode_cursor (s : State) : (endDecode s).cursor = s.cursor := rfl
@[simp] theorem endDecode_freq (s : State) : (endDecode s).freq = s.freq := rfl
@[simp] theorem endDecode_nodes (s : State) : (endDecode s).nodes = s.nodes := rfl
@[simp] theorem endDecode_code (s : State) : (endDecode s).code = s.code := rfl
@[simp] theorem endDecode_pending (s : State) : (endDecode s).pending = s.pending := rfl
@[simp] theorem endDecode_sent (s : State) : (endDecode s).sent = s.sent := rfl

/-! `recordFault`: the fault record, when none is kept yet (R145). -/

@[simp] theorem recordFault_phase (w : CmdWord) (c : Cause) (s : State) : (recordFault w c s).phase = s.phase := by
  unfold recordFault; split <;> rfl
@[simp] theorem recordFault_codev (w : CmdWord) (c : Cause) (s : State) : (recordFault w c s).codev = s.codev := by
  unfold recordFault; split <;> rfl
@[simp] theorem recordFault_excess (w : CmdWord) (c : Cause) (s : State) : (recordFault w c s).excess = s.excess := by
  unfold recordFault; split <;> rfl
@[simp] theorem recordFault_total (w : CmdWord) (c : Cause) (s : State) : (recordFault w c s).total = s.total := by
  unfold recordFault; split <;> rfl
@[simp] theorem recordFault_symcnt (w : CmdWord) (c : Cause) (s : State) : (recordFault w c s).symcnt = s.symcnt := by
  unfold recordFault; split <;> rfl
@[simp] theorem recordFault_nnodes (w : CmdWord) (c : Cause) (s : State) : (recordFault w c s).nnodes = s.nnodes := by
  unfold recordFault; split <;> rfl
@[simp] theorem recordFault_root (w : CmdWord) (c : Cause) (s : State) : (recordFault w c s).root = s.root := by
  unfold recordFault; split <;> rfl
@[simp] theorem recordFault_origlen (w : CmdWord) (c : Cause) (s : State) : (recordFault w c s).origlen = s.origlen := by
  unfold recordFault; split <;> rfl
@[simp] theorem recordFault_bitlimit (w : CmdWord) (c : Cause) (s : State) : (recordFault w c s).bitlimit = s.bitlimit := by
  unfold recordFault; split <;> rfl
@[simp] theorem recordFault_totalbits (w : CmdWord) (c : Cause) (s : State) : (recordFault w c s).totalbits = s.totalbits := by
  unfold recordFault; split <;> rfl
@[simp] theorem recordFault_acc (w : CmdWord) (c : Cause) (s : State) : (recordFault w c s).acc = s.acc := by
  unfold recordFault; split <;> rfl
@[simp] theorem recordFault_nbits (w : CmdWord) (c : Cause) (s : State) : (recordFault w c s).nbits = s.nbits := by
  unfold recordFault; split <;> rfl
@[simp] theorem recordFault_emitted (w : CmdWord) (c : Cause) (s : State) : (recordFault w c s).emitted = s.emitted := by
  unfold recordFault; split <;> rfl
@[simp] theorem recordFault_consumed (w : CmdWord) (c : Cause) (s : State) : (recordFault w c s).consumed = s.consumed := by
  unfold recordFault; split <;> rfl
@[simp] theorem recordFault_cursor (w : CmdWord) (c : Cause) (s : State) : (recordFault w c s).cursor = s.cursor := by
  unfold recordFault; split <;> rfl
@[simp] theorem recordFault_freq (w : CmdWord) (c : Cause) (s : State) : (recordFault w c s).freq = s.freq := by
  unfold recordFault; split <;> rfl
@[simp] theorem recordFault_nodes (w : CmdWord) (c : Cause) (s : State) : (recordFault w c s).nodes = s.nodes := by
  unfold recordFault; split <;> rfl
@[simp] theorem recordFault_code (w : CmdWord) (c : Cause) (s : State) : (recordFault w c s).code = s.code := by
  unfold recordFault; split <;> rfl
@[simp] theorem recordFault_pending (w : CmdWord) (c : Cause) (s : State) : (recordFault w c s).pending = s.pending := by
  unfold recordFault; split <;> rfl
@[simp] theorem recordFault_sent (w : CmdWord) (c : Cause) (s : State) : (recordFault w c s).sent = s.sent := by
  unfold recordFault; split <;> rfl
@[simp] theorem recordFault_fault (w : CmdWord) (c : Cause) (s : State) (h : s.fault = none) :
    (recordFault w c s).fault = some c := by simp [recordFault, h]
@[simp] theorem recordFault_finfo (w : CmdWord) (c : Cause) (s : State) (h : s.fault = none) :
    (recordFault w c s).finfo = symField w ++ opField w := by simp [recordFault, h]
@[simp] theorem recordFault_fimm (w : CmdWord) (c : Cause) (s : State) (h : s.fault = none) :
    (recordFault w c s).fimm = immField w := by simp [recordFault, h]

/-! `writeLimit`: ORIGLEN or BITLIMIT (R133). -/

@[simp] theorem writeLimit_phase (r : Byte) (v : Word64) (s : State) : (writeLimit r v s).phase = s.phase := by
  unfold writeLimit; split <;> rfl
@[simp] theorem writeLimit_codev (r : Byte) (v : Word64) (s : State) : (writeLimit r v s).codev = s.codev := by
  unfold writeLimit; split <;> rfl
@[simp] theorem writeLimit_fault (r : Byte) (v : Word64) (s : State) : (writeLimit r v s).fault = s.fault := by
  unfold writeLimit; split <;> rfl
@[simp] theorem writeLimit_excess (r : Byte) (v : Word64) (s : State) : (writeLimit r v s).excess = s.excess := by
  unfold writeLimit; split <;> rfl
@[simp] theorem writeLimit_finfo (r : Byte) (v : Word64) (s : State) : (writeLimit r v s).finfo = s.finfo := by
  unfold writeLimit; split <;> rfl
@[simp] theorem writeLimit_fimm (r : Byte) (v : Word64) (s : State) : (writeLimit r v s).fimm = s.fimm := by
  unfold writeLimit; split <;> rfl
@[simp] theorem writeLimit_total (r : Byte) (v : Word64) (s : State) : (writeLimit r v s).total = s.total := by
  unfold writeLimit; split <;> rfl
@[simp] theorem writeLimit_symcnt (r : Byte) (v : Word64) (s : State) : (writeLimit r v s).symcnt = s.symcnt := by
  unfold writeLimit; split <;> rfl
@[simp] theorem writeLimit_nnodes (r : Byte) (v : Word64) (s : State) : (writeLimit r v s).nnodes = s.nnodes := by
  unfold writeLimit; split <;> rfl
@[simp] theorem writeLimit_root (r : Byte) (v : Word64) (s : State) : (writeLimit r v s).root = s.root := by
  unfold writeLimit; split <;> rfl
@[simp] theorem writeLimit_totalbits (r : Byte) (v : Word64) (s : State) : (writeLimit r v s).totalbits = s.totalbits := by
  unfold writeLimit; split <;> rfl
@[simp] theorem writeLimit_acc (r : Byte) (v : Word64) (s : State) : (writeLimit r v s).acc = s.acc := by
  unfold writeLimit; split <;> rfl
@[simp] theorem writeLimit_nbits (r : Byte) (v : Word64) (s : State) : (writeLimit r v s).nbits = s.nbits := by
  unfold writeLimit; split <;> rfl
@[simp] theorem writeLimit_emitted (r : Byte) (v : Word64) (s : State) : (writeLimit r v s).emitted = s.emitted := by
  unfold writeLimit; split <;> rfl
@[simp] theorem writeLimit_consumed (r : Byte) (v : Word64) (s : State) : (writeLimit r v s).consumed = s.consumed := by
  unfold writeLimit; split <;> rfl
@[simp] theorem writeLimit_cursor (r : Byte) (v : Word64) (s : State) : (writeLimit r v s).cursor = s.cursor := by
  unfold writeLimit; split <;> rfl
@[simp] theorem writeLimit_freq (r : Byte) (v : Word64) (s : State) : (writeLimit r v s).freq = s.freq := by
  unfold writeLimit; split <;> rfl
@[simp] theorem writeLimit_nodes (r : Byte) (v : Word64) (s : State) : (writeLimit r v s).nodes = s.nodes := by
  unfold writeLimit; split <;> rfl
@[simp] theorem writeLimit_code (r : Byte) (v : Word64) (s : State) : (writeLimit r v s).code = s.code := by
  unfold writeLimit; split <;> rfl
@[simp] theorem writeLimit_pending (r : Byte) (v : Word64) (s : State) : (writeLimit r v s).pending = s.pending := by
  unfold writeLimit; split <;> rfl
@[simp] theorem writeLimit_sent (r : Byte) (v : Word64) (s : State) : (writeLimit r v s).sent = s.sent := by
  unfold writeLimit; split <;> rfl
@[simp] theorem writeLimit_origlen (r : Byte) (v : Word64) (s : State) :
    (writeLimit r v s).origlen = if r = 6 then v else s.origlen := by unfold writeLimit; split <;> rfl
@[simp] theorem writeLimit_bitlimit (r : Byte) (v : Word64) (s : State) :
    (writeLimit r v s).bitlimit = if r = 6 then s.bitlimit else v := by unfold writeLimit; split <;> rfl

end Sys2Proof.Machine
end

