-- ==== Sys2Proof/Laws/Tables.lean ====
section
/-! SUPPORT. The tables: what a read after a write gives, and that a write keeps the canonical form (10_state.md rules R22,
R23). -/

namespace Sys2Proof.Machine

variable {α : Type}

/-- In a canonical table an index below every listed one reads the default. -/
theorem tableRead_below (d : α) (t : Table α) (i : Nat) (h : ∀ x ∈ t, i < x.1) : tableRead d t i = d := by
  induction t with
  | nil => rfl
  | cons x t ih =>
    have hx := h x (by simp)
    simp only [tableRead]
    rw [if_neg (by omega)]
    exact ih fun y hy => h y (by simp [hy])

theorem tableErase_subset (t : Table α) (i : Nat) : ∀ x ∈ tableErase t i, x ∈ t := by
  induction t with
  | nil => simp [tableErase]
  | cons y t ih =>
    intro x hx
    simp only [tableErase] at hx
    split at hx
    · simp [hx]
    · simp only [List.mem_cons] at hx ⊢
      exact hx.imp id (ih x)

theorem tableInsert_mem (t : Table α) (i : Nat) (v : α) : ∀ x ∈ tableInsert t i v, x = (i, v) ∨ x ∈ t := by
  induction t with
  | nil => simp [tableInsert]
  | cons y t ih =>
    intro x hx
    simp only [tableInsert] at hx
    split at hx
    · simpa using hx
    · split at hx
      · simp only [List.mem_cons] at hx ⊢; tauto
      · simp only [List.mem_cons] at hx ⊢
        rcases hx with h | h
        · exact .inr (.inl h)
        · exact (ih x h).imp id .inr

theorem tableInsert_pairwise (t : Table α) (i : Nat) (v : α) (h : t.Pairwise fun x y => x.1 < y.1) :
    (tableInsert t i v).Pairwise fun x y => x.1 < y.1 := by
  induction t with
  | nil => simp [tableInsert]
  | cons y t ih =>
    obtain ⟨hy, ht⟩ := List.pairwise_cons.1 h
    simp only [tableInsert]
    split
    · refine List.pairwise_cons.2 ⟨?_, h⟩
      intro x hx
      rcases List.mem_cons.1 hx with rfl | hx
      · assumption
      · have := hy x hx; simp only; omega
    · split
      · subst_vars; exact List.pairwise_cons.2 ⟨hy, ht⟩
      · refine List.pairwise_cons.2 ⟨?_, ih ht⟩
        intro x hx
        rcases tableInsert_mem t i v x hx with rfl | hx
        · simp only; omega
        · exact hy x hx

theorem tableErase_pairwise (t : Table α) (i : Nat) (h : t.Pairwise fun x y => x.1 < y.1) :
    (tableErase t i).Pairwise fun x y => x.1 < y.1 := by
  induction t with
  | nil => simp [tableErase]
  | cons y t ih =>
    obtain ⟨hy, ht⟩ := List.pairwise_cons.1 h
    simp only [tableErase]
    split
    · exact ht
    · exact List.pairwise_cons.2 ⟨fun x hx => hy x (tableErase_subset t i x hx), ih ht⟩

/-- A write keeps the canonical form. -/
theorem tableWrite_wf [DecidableEq α] (n : Nat) (d : α) (t : Table α) (i : Nat) (v : α) (hi : i < n) (h : tableWf n d t) :
    tableWf n d (tableWrite d t i v) := by
  unfold tableWrite
  split
  · exact ⟨tableErase_pairwise t i h.1, fun x hx => h.2 x (tableErase_subset t i x hx)⟩
  · refine ⟨tableInsert_pairwise t i v h.1, fun x hx => ?_⟩
    rcases tableInsert_mem t i v x hx with rfl | hx
    · exact ⟨hi, by assumption⟩
    · exact h.2 x hx

theorem tableWf_nil (n : Nat) (d : α) : tableWf n d ([] : Table α) := ⟨.nil, by simp⟩

theorem tableRead_insert_same (d : α) (t : Table α) (i : Nat) (v : α) : tableRead d (tableInsert t i v) i = v := by
  induction t with
  | nil => simp [tableInsert, tableRead]
  | cons y t ih =>
    simp only [tableInsert]
    split
    · simp [tableRead]
    · split
      · simp [tableRead]
      · simp only [tableRead]; rw [if_neg (by omega), ih]

theorem tableRead_insert_other (d : α) (t : Table α) (i j : Nat) (v : α) (h : i ≠ j) :
    tableRead d (tableInsert t i v) j = tableRead d t j := by
  induction t with
  | nil => simp [tableInsert, tableRead, h]
  | cons y t ih =>
    simp only [tableInsert]
    split
    · simp [tableRead, h]
    · split
      · subst_vars; simp [tableRead, h]
      · simp only [tableRead, ih]

theorem tableRead_erase_other (d : α) (t : Table α) (i j : Nat) (h : i ≠ j) :
    tableRead d (tableErase t i) j = tableRead d t j := by
  induction t with
  | nil => rfl
  | cons y t ih =>
    simp only [tableErase]
    split
    · subst_vars; simp [tableRead, h]
    · simp only [tableRead, ih]

theorem tableRead_erase_same (d : α) (t : Table α) (i : Nat) (h : t.Pairwise fun x y => x.1 < y.1) :
    tableRead d (tableErase t i) i = d := by
  induction t with
  | nil => rfl
  | cons y t ih =>
    obtain ⟨hy, ht⟩ := List.pairwise_cons.1 h
    simp only [tableErase]
    split
    · subst_vars; exact tableRead_below d t _ hy
    · simp only [tableRead]; rw [if_neg (by assumption), ih ht]

/-- A read after a write to the same index gives the value written. -/
theorem tableRead_write_same [DecidableEq α] (n : Nat) (d : α) (t : Table α) (i : Nat) (v : α) (h : tableWf n d t) :
    tableRead d (tableWrite d t i v) i = v := by
  unfold tableWrite
  split
  · subst_vars; exact tableRead_erase_same _ t i h.1
  · exact tableRead_insert_same d t i v

/-- A write leaves every other index as it was. -/
theorem tableRead_write_other [DecidableEq α] (d : α) (t : Table α) (i j : Nat) (v : α) (h : i ≠ j) :
    tableRead d (tableWrite d t i v) j = tableRead d t j := by
  unfold tableWrite
  split
  · exact tableRead_erase_other d t i j h
  · exact tableRead_insert_other d t i j v h

/-- FREQ after a write through its index: the entry written, and every other entry. -/
theorem freqAt_write (s t : State) (b : Byte) (v : Word64) (h : tableWf Config.symbols 0 s.freq)
    (ht : t.freq = tableWrite 0 s.freq b.toNat v) (a : Byte) :
    freqAt t a = if a = b then v else freqAt s a := by
  unfold freqAt
  rw [ht]
  split
  · subst_vars; exact tableRead_write_same Config.symbols 0 s.freq _ v h
  · exact tableRead_write_other 0 s.freq _ _ v fun e => by
      have := BitVec.eq_of_toNat_eq e; simp_all

/-- The reset state's tables are in canonical form. -/
theorem reset_memoryWf : State.reset.memoryWf := ⟨tableWf_nil _ _, tableWf_nil _ _⟩

end Sys2Proof.Machine
end

