-- ==== Sys2Proof/Laws/Codes.lean ====
section
/-! SUPPORT. GEN's walk (42_codetable.md rule R100): when it ends, what it writes, and that branches lead to one record. -/

namespace Sys2Proof.Machine

/-- Branches lead from a record to one record only. -/
theorem TreePath.unique {ns : List Node} {i j k : NodeIx} {p : List Bool} (h : TreePath ns i p j)
    (h' : TreePath ns i p k) : j = k := by
  induction h with
  | here i => cases h'; rfl
  | left i j f l r p hi _ ih => cases h' with | left _ _ f' l' r' _ hi' hp' => rw [hi] at hi'; cases hi'; exact ih hp'
  | right i j f l r p hi _ ih => cases h' with | right _ _ f' l' r' _ hi' hp' => rw [hi] at hi'; cases hi'; exact ih hp'

/-- No branch leads on from a Leaf. -/
theorem TreePath.leaf {ns : List Node} {i j : NodeIx} {p : List Bool} {b : Byte} {f : Word64}
    (hi : ns[i.toNat]? = some (.leaf b f)) (h : TreePath ns i p j) : p = [] ∧ j = i := by
  cases h with
  | here => exact ⟨rfl, rfl⟩
  | left _ _ f l r p hi' _ => rw [hi] at hi'; cases hi'
  | right _ _ f l r p hi' _ => rw [hi] at hi'; cases hi'

/-- The walk ends without a stop when every record at `n` or above is sound, the others are leaves, and there is fuel for every
Internal record it can pass. -/
theorem walk_ok (ns : List Node) (n : Nat) (hs : ∀ k, n ≤ k → k < ns.length → internalSound ns k = true)
    (fuel : Nat) (i : NodeIx) (p : List Bool) (t : Table (List Bool)) (hi : i.toNat < ns.length)
    (hl : ∀ k < n, ∃ b f, ns[k]? = some (.leaf b f)) (hf : i.toNat < n + fuel) :
    ∃ t', walk ns fuel i p t = .ok t' := by
  induction fuel generalizing i p t with
  | zero =>
    obtain ⟨b, f, hb⟩ := hl i.toNat (by omega)
    exact ⟨_, by simp [walk, hb]; rfl⟩
  | succ fuel ih =>
    by_cases hin : i.toNat < n
    · obtain ⟨b, f, hb⟩ := hl i.toNat hin
      exact ⟨_, by simp [walk, hb]; rfl⟩
    · have := hs i.toNat (by omega) hi
      unfold internalSound at this
      split at this
      · rename_i f l r hk
        simp only [Bool.and_eq_true, decide_eq_true_eq] at this
        obtain ⟨t1, h1⟩ := ih l (p ++ [false]) t (by omega) (by omega)
        obtain ⟨t2, h2⟩ := ih r (p ++ [true]) t1 (by omega) (by omega)
        exact ⟨t2, by simp [walk, hk, h1, h2]⟩
      · simp at this

/-- The walk keeps the table canonical. -/
theorem walk_wf (ns : List Node) (fuel : Nat) (i : NodeIx) (p : List Bool) (t t' : Table (List Bool))
    (h : walk ns fuel i p t = .ok t') (ht : tableWf Config.symbols [] t) : tableWf Config.symbols [] t' := by
  induction fuel generalizing i p t t' with
  | zero =>
    simp only [walk] at h
    split at h
    · cases h
    · cases h; exact tableWrite_wf _ _ _ _ _ (BitVec.isLt _) ht
    · cases h
  | succ fuel ih =>
    simp only [walk] at h
    split at h
    · cases h
    · cases h; exact tableWrite_wf _ _ _ _ _ (BitVec.isLt _) ht
    · split at h
      · cases h
      · rename_i t1 h1
        exact ih _ _ _ _ h (ih _ _ _ _ h1 ht)

/-- What the walk writes: an entry keeps its value or becomes the walked branches and then branches to a leaf of its symbol. -/
theorem walk_sound (ns : List Node) (fuel : Nat) (i : NodeIx) (p : List Bool) (t t' : Table (List Bool))
    (h : walk ns fuel i p t = .ok t') (ht : tableWf Config.symbols [] t) (b : Byte) :
    tableRead [] t' b.toNat = tableRead [] t b.toNat ∨
    ∃ q j f, TreePath ns i q j ∧ ns[j.toNat]? = some (.leaf b f) ∧ tableRead [] t' b.toNat = p ++ q := by
  have leafCase : ∀ (i : NodeIx) (p : List Bool) (t t' : Table (List Bool)), tableWf Config.symbols [] t →
      ∀ c f, ns[i.toNat]? = some (.leaf c f) → t' = tableWrite [] t c.toNat p →
      tableRead [] t' b.toNat = tableRead [] t b.toNat ∨
      ∃ q j f, TreePath ns i q j ∧ ns[j.toNat]? = some (.leaf b f) ∧ tableRead [] t' b.toNat = p ++ q := by
    rintro i p t _ ht c f hc rfl
    by_cases hbc : c = b
    · subst hbc
      exact .inr ⟨[], i, f, .here i, hc, by rw [tableRead_write_same _ _ _ _ _ ht]; simp⟩
    · exact .inl (tableRead_write_other _ _ _ _ _ fun e => hbc (BitVec.eq_of_toNat_eq e))
  induction fuel generalizing i p t t' with
  | zero =>
    simp only [walk] at h
    split at h
    · cases h
    · cases h; exact leafCase _ _ _ _ ht _ _ (by assumption) rfl
    · cases h
  | succ fuel ih =>
    simp only [walk] at h
    split at h
    · cases h
    · cases h; exact leafCase _ _ _ _ ht _ _ (by assumption) rfl
    · rename_i f l r hi
      split at h
      · cases h
      · rename_i t1 h1
        have step : ∀ (c : Bool) (k : NodeIx) (u u' : Table (List Bool)),
            (∀ q j, TreePath ns k q j → TreePath ns i (c :: q) j) → walk ns fuel k (p ++ [c]) u = .ok u' →
            tableWf Config.symbols [] u →
            tableRead [] u' b.toNat = tableRead [] u b.toNat ∨
            ∃ q j f, TreePath ns i q j ∧ ns[j.toNat]? = some (.leaf b f) ∧ tableRead [] u' b.toNat = p ++ q := by
          intro c k u u' hp hw hu
          rcases ih k (p ++ [c]) u u' hw hu with e | ⟨q, j, g, hq, hj, e⟩
          · exact .inl e
          · exact .inr ⟨c :: q, j, g, hp q j hq, hj, by simpa using e⟩
        have hl := step false l t t1 (fun q j hq => .left i j f l r q hi hq) h1 ht
        have hr := step true r t1 t' (fun q j hq => .right i j f l r q hi hq) h (walk_wf _ _ _ _ _ _ h1 ht)
        rcases hr with hr | hr
        · rw [hr]; exact hl
        · exact .inr hr

/-- The walk reaches every leaf its branches lead to: the leaf's symbol has an entry of the walk's. -/
theorem walk_complete (ns : List Node) (fuel : Nat) (i : NodeIx) (p : List Bool) (t t' : Table (List Bool))
    (h : walk ns fuel i p t = .ok t') (ht : tableWf Config.symbols [] t) (q : List Bool) (j : NodeIx) (b : Byte) (f : Word64)
    (hq : TreePath ns i q j) (hj : ns[j.toNat]? = some (.leaf b f)) :
    ∃ q' j' f', TreePath ns i q' j' ∧ ns[j'.toNat]? = some (.leaf b f') ∧ tableRead [] t' b.toNat = p ++ q' := by
  induction fuel generalizing i p t t' q with
  | zero =>
    simp only [walk] at h
    split at h
    · cases h
    · rename_i c g hi
      obtain ⟨rfl, rfl⟩ := hq.leaf hi
      rw [hi] at hj
      cases hj; cases h
      exact ⟨[], j, f, .here j, hi, by rw [tableRead_write_same _ _ _ _ _ ht]; simp⟩
    · cases h
  | succ fuel ih =>
    simp only [walk] at h
    split at h
    · cases h
    · rename_i c g hi
      obtain ⟨rfl, rfl⟩ := hq.leaf hi
      rw [hi] at hj
      cases hj; cases h
      exact ⟨[], j, f, .here j, hi, by rw [tableRead_write_same _ _ _ _ _ ht]; simp⟩
    · rename_i g l r hi
      split at h
      · cases h
      · rename_i t1 h1
        have ht1 := walk_wf _ _ _ _ _ _ h1 ht
        cases hq with
        | here => rw [hi] at hj; cases hj
        | left _ _ g' l' r' q hi' hq =>
          rw [hi] at hi'; cases hi'
          obtain ⟨q', j', f', hq', hj', e⟩ := ih l _ t t1 h1 ht q hq
          rcases walk_sound ns fuel r _ t1 t' h ht1 b with e' | ⟨q2, j2, f2, hq2, hj2, e2⟩
          · exact ⟨false :: q', j', f', .left i j' g l r q' hi hq', hj', by rw [e', e]; simp⟩
          · exact ⟨true :: q2, j2, f2, .right i j2 g l r q2 hi hq2, hj2, by rw [e2]; simp⟩
        | right _ _ g' l' r' q hi' hq =>
          rw [hi] at hi'; cases hi'
          obtain ⟨q', j', f', hq', hj', e⟩ := ih r _ t1 t' h ht1 q hq
          exact ⟨true :: q', j', f', .right i j' g l r q' hi hq', hj', by rw [e]; simp⟩

end Sys2Proof.Machine
end

