-- ==== Sys2Proof/Laws/Counters.lean ====
section
/-! SUPPORT. Counting and adding up the 256 entries of FREQ when one of them is written (10_state.md rule R28 item 1, 40_frequency.md
rules R80, R81), and what the leaves of 41_tree.md rule R90 have in common with the counters. -/

namespace Sys2Proof.Machine

/-- One entry changed changes the sum by the difference. -/
theorem sum_range_change (n i : Nat) (f g : Nat → Nat) (hi : i < n) (h : ∀ j, j ≠ i → f j = g j) :
    ((List.range n).map f).sum + g i = ((List.range n).map g).sum + f i := by
  induction n with
  | zero => omega
  | succ n ih =>
    simp only [List.range_succ, List.map_append, List.sum_append, List.map_cons, List.map_nil, List.sum_singleton]
    by_cases hn : i = n
    · subst hn
      rw [List.map_congr_left (g := g) fun j hj => h j (by have := List.mem_range.1 hj; omega)]
      omega
    · have := ih (by omega)
      have := h n (by omega)
      omega

/-- One entry changed changes a count by the difference. -/
theorem countP_range_change (n i : Nat) (p q : Nat → Bool) (hi : i < n) (h : ∀ j, j ≠ i → p j = q j) :
    (List.range n).countP p + (if q i then 1 else 0) = (List.range n).countP q + (if p i then 1 else 0) := by
  induction n with
  | zero => omega
  | succ n ih =>
    simp only [List.range_succ, List.countP_append, List.countP_singleton]
    by_cases hn : i = n
    · subst hn
      rw [List.countP_congr (p := p) (q := q) fun j hj => by
        rw [h j (by have := List.mem_range.1 hj; omega)]]
      omega
    · have := ih (by omega)
      have := h n (by omega)
      simp only [this]
      omega

/-- Each entry of FREQ is at most their sum. -/
theorem freqAt_le_sum (s : State) (b : Byte) : (freqAt s b).toNat ≤ ((freqEntries s).map BitVec.toNat).sum := by
  apply List.single_le_sum (by simp)
  simp only [freqEntries, List.map_map, List.mem_map, List.mem_range]
  exact ⟨b.toNat, b.isLt, by simp⟩

/-- A FREQ entry that is 0 leaves room in SYMCNT. -/
theorem countP_freqEntries_lt (s : State) (b : Byte) (h : freqAt s b = 0) :
    (freqEntries s).countP (· ≠ 0) < 256 := by
  refine Nat.lt_of_le_of_ne ?_ fun he => ?_
  · exact List.countP_le_length.trans (by simp [freqEntries, Config.symbols])
  · have hl : (freqEntries s).length = 256 := by simp [freqEntries, Config.symbols]
    have := List.countP_eq_length.1 (he.trans hl.symm) (freqAt s b)
      (by simp only [freqEntries, List.mem_map, List.mem_range]; exact ⟨b.toNat, b.isLt, by simp⟩)
    simp [h] at this

/-- Writing one entry of FREQ: the sum. -/
theorem freqEntries_sum_write (s t : State) (b : Byte) (v : Word64) (h : tableWf Config.symbols 0 s.freq)
    (ht : t.freq = tableWrite 0 s.freq b.toNat v) :
    ((freqEntries t).map BitVec.toNat).sum + (freqAt s b).toNat = ((freqEntries s).map BitVec.toNat).sum + v.toNat := by
  have := sum_range_change Config.symbols b.toNat (fun a => (tableRead 0 t.freq a).toNat) (fun a => (tableRead 0 s.freq a).toNat)
    b.isLt fun j hj => by rw [ht, tableRead_write_other _ _ _ _ _ (Ne.symm hj)]
  simp only [ht, tableRead_write_same _ _ _ _ _ h] at this
  have hm : ∀ u : State, (freqEntries u).map BitVec.toNat =
      (List.range Config.symbols).map fun a => (tableRead 0 u.freq a).toNat := fun u => by
    simp only [freqEntries, List.map_map]
    refine List.map_congr_left fun a ha => ?_
    have : a < 256 := List.mem_range.1 ha
    simp [freqAt, Nat.mod_eq_of_lt this]
  rw [hm, hm, ht]
  exact this

/-- Writing one entry of FREQ: how many are not 0. -/
theorem freqEntries_count_write (s t : State) (b : Byte) (v : Word64) (h : tableWf Config.symbols 0 s.freq)
    (ht : t.freq = tableWrite 0 s.freq b.toNat v) :
    (freqEntries t).countP (· ≠ 0) + (if freqAt s b = 0 then 0 else 1) =
      (freqEntries s).countP (· ≠ 0) + (if v = 0 then 0 else 1) := by
  have := countP_range_change Config.symbols b.toNat (fun a => tableRead 0 t.freq a != 0) (fun a => tableRead 0 s.freq a != 0)
    b.isLt fun j hj => by rw [ht, tableRead_write_other _ _ _ _ _ (Ne.symm hj)]
  simp only [ht, tableRead_write_same _ _ _ _ _ h] at this
  have hm : ∀ u : State, (freqEntries u).countP (· ≠ 0) =
      (List.range Config.symbols).countP fun a => tableRead 0 u.freq a != 0 := fun u => by
    simp only [freqEntries, List.countP_map]
    refine List.countP_congr fun a ha => ?_
    have : a < 256 := List.mem_range.1 ha
    simp [freqAt, Nat.mod_eq_of_lt this]
  rw [hm, hm, ht]
  unfold freqAt
  split <;> split at this <;> simp_all

/-- As many leaves as symbols counted. -/
theorem seedLeaves_length (s : State) : (seedLeaves s).length = (freqEntries s).countP (· ≠ 0) := by
  simp only [seedLeaves, freqEntries, List.countP_map, List.length_filterMap_eq_countP]
  refine List.countP_congr fun a ha => ?_
  have : a < 256 := List.mem_range.1 ha
  simp only [freqAt, Function.comp, BitVec.toNat_ofNat, Nat.mod_eq_of_lt this]
  split <;> simp_all

/-- The leaves' frequencies add up to the sum of FREQ. -/
theorem seedLeaves_sum (s : State) :
    ((seedLeaves s).map fun x => x.freq.toNat).sum = ((freqEntries s).map BitVec.toNat).sum := by
  simp only [seedLeaves, freqEntries, List.map_map]
  have : ∀ l : List Nat, (∀ a ∈ l, a < 256) →
      ((l.filterMap fun a => if tableRead 0 s.freq a = 0 then none
        else some (Node.leaf (BitVec.ofNat 8 a) (tableRead 0 s.freq a))).map fun x => x.freq.toNat).sum =
      (l.map (BitVec.toNat ∘ fun a => freqAt s (BitVec.ofNat 8 a))).sum := by
    intro l
    induction l with
    | nil => intro _; rfl
    | cons a l ih =>
      intro h
      have ha : a < 256 := h a (by simp)
      have hi := ih fun x hx => h x (by simp [hx])
      have hf : freqAt s (BitVec.ofNat 8 a) = tableRead 0 s.freq a := by simp [freqAt, Nat.mod_eq_of_lt ha]
      rw [List.filterMap_cons, List.map_cons, List.sum_cons, ← hi, Function.comp, hf]
      by_cases hz : tableRead 0 s.freq a = 0
      · rw [if_pos hz, hz]; simp
      · rw [if_neg hz]; simp [Node.freq]
  exact this _ fun a ha => List.mem_range.1 ha

/-- Every leaf seeded is a Leaf record. -/
theorem seedLeaves_leaf (s : State) : ∀ n ∈ seedLeaves s, ∃ b f, n = .leaf b f := by
  intro n hn
  simp only [seedLeaves, List.mem_filterMap] at hn
  obtain ⟨a, _, ha⟩ := hn
  split at ha
  · cases ha
  · cases ha; exact ⟨_, _, rfl⟩

/-- The leaves seeded are one for each counted symbol, with its count (R90). -/
theorem mem_seedLeaves (s : State) (n : Node) :
    n ∈ seedLeaves s ↔ ∃ b : Byte, freqAt s b ≠ 0 ∧ n = .leaf b (freqAt s b) := by
  simp only [seedLeaves, List.mem_filterMap, List.mem_range]
  constructor
  · rintro ⟨a, ha, h⟩
    split at h
    · cases h
    · rename_i hz
      cases h
      have : a % 256 = a := Nat.mod_eq_of_lt ha
      exact ⟨BitVec.ofNat 8 a, by simpa [freqAt, this] using hz, by simp [freqAt, this]⟩
  · rintro ⟨b, hb, rfl⟩
    exact ⟨b.toNat, b.isLt, by rw [if_neg (by simpa [freqAt] using hb)]; simp [freqAt]⟩

/-- They stand in ascending symbol order (R90). -/
theorem seedLeaves_ascending (s : State) : (seedLeaves s).Pairwise fun x y => x.sym.toNat < y.sym.toNat := by
  have hr : (List.range Config.symbols).Pairwise fun a b => a < b ∧ b < 256 :=
    List.pairwise_lt_range.imp_of_mem fun {a b} _ hb h => ⟨h, List.mem_range.1 hb⟩
  rw [seedLeaves, List.pairwise_filterMap]
  refine hr.imp ?_
  rintro a b ⟨hab, hb⟩ x hx y hy
  split at hx
  · cases hx
  · split at hy
    · cases hy
    · cases hx; cases hy
      simp only [Node.sym, BitVec.toNat_ofNat]
      omega

end Sys2Proof.Machine
end

