-- ==== Sys2Proof/Laws/Words.lean ====
section
/-! SUPPORT. The fields of a command word and of an encoding (30_encoding.md rules R60 to R63). -/

namespace Sys2Proof

@[simp] theorem opField_commandWord (op sym : Byte) (imm : Word64) : opField (commandWord op sym imm) = op := by
  simp only [opField, commandWord]
  ext k hk
  simp only [BitVec.getElem_extractLsb', BitVec.getLsbD_append]
  rw [if_neg (by omega), if_neg (by omega), BitVec.getLsbD_eq_getElem (by omega)]
  congr 1; omega

@[simp] theorem symField_commandWord (op sym : Byte) (imm : Word64) : symField (commandWord op sym imm) = sym := by
  simp only [symField, commandWord]
  ext k hk
  simp only [BitVec.getElem_extractLsb', BitVec.getLsbD_append]
  rw [if_neg (by omega), if_pos (by omega), BitVec.getLsbD_eq_getElem (by omega)]
  congr 1; omega

@[simp] theorem immField_commandWord (op sym : Byte) (imm : Word64) : immField (commandWord op sym imm) = imm := by
  simp only [immField, commandWord]
  ext k hk
  simp only [BitVec.getElem_extractLsb', BitVec.getLsbD_append]
  rw [if_pos (by omega), BitVec.getLsbD_eq_getElem (by omega)]
  congr 1; omega

/-- A word is its three fields. -/
theorem commandWord_fields (w : CmdWord) : commandWord (opField w) (symField w) (immField w) = w := by
  simp only [opField, symField, immField, commandWord]
  apply BitVec.eq_of_getLsbD_eq
  intro k hk
  simp only [BitVec.getLsbD_append, BitVec.getLsbD_extractLsb']
  by_cases h1 : k < 64
  · simp [h1]
  · by_cases h2 : k - 64 < 8
    · rw [if_neg h1, if_pos h2]
      simp only [h2, decide_true, Bool.true_and]
      congr 1; omega
    · rw [if_neg h1, if_neg h2]
      simp only [show k - 64 - 8 < 8 by omega, decide_true, Bool.true_and]
      congr 1; omega

/-- The parts of a response's fault-record FINFO: `sym` above `op` (R145). -/
@[simp] theorem finfo_op (a b : Byte) : (a ++ b : BitVec 16).extractLsb' 0 8 = b := by
  ext k hk
  simp only [BitVec.getElem_extractLsb', BitVec.getLsbD_append]
  rw [if_pos (by omega), BitVec.getLsbD_eq_getElem (by omega)]
  congr 1; omega

@[simp] theorem finfo_sym (a b : Byte) : (a ++ b : BitVec 16).extractLsb' 8 8 = a := by
  ext k hk
  simp only [BitVec.getElem_extractLsb', BitVec.getLsbD_append]
  rw [if_neg (by omega), BitVec.getLsbD_eq_getElem (by omega)]
  congr 1; omega

/-- A node index in `imm` reads back, and leaves `imm[63:9]` zero. -/
@[simp] theorem index_low (i : NodeIx) : (i.setWidth 64).extractLsb' 0 9 = i := by
  ext k hk
  simp only [BitVec.getElem_extractLsb', BitVec.getLsbD_setWidth]
  rw [BitVec.getLsbD_eq_getElem (by omega)]
  simp only [show 0 + k < 64 by omega, decide_true, Bool.true_and]
  congr 1; omega

@[simp] theorem index_high (i : NodeIx) : (i.setWidth 64).extractLsb' 9 55 = 0 := by
  ext k hk
  simp only [BitVec.getElem_extractLsb', BitVec.getLsbD_setWidth]
  rw [BitVec.getLsbD_of_ge i (9 + k) (by omega)]
  simp

/-- A chunk number in `imm` reads back, and leaves `imm[63:2]` zero. -/
@[simp] theorem chunk_low (j : BitVec 2) : (j.setWidth 64).extractLsb' 0 2 = j := by
  ext k hk
  simp only [BitVec.getElem_extractLsb', BitVec.getLsbD_setWidth]
  rw [BitVec.getLsbD_eq_getElem (by omega)]
  simp only [show 0 + k < 64 by omega, decide_true, Bool.true_and]
  congr 1; omega

@[simp] theorem chunk_high (j : BitVec 2) : (j.setWidth 64).extractLsb' 2 62 = 0 := by
  ext k hk
  simp only [BitVec.getElem_extractLsb', BitVec.getLsbD_setWidth]
  rw [BitVec.getLsbD_of_ge j (2 + k) (by omega)]
  simp

end Sys2Proof
end

