-- ==== Sys2Proof/Laws/Dispatch.lean ====
section
/-! SUPPORT. The shared operations, each said once: what fault entry, refusal, the checks of the dispatch and a normal end can do
(60_exceptions.md rules R145, R146, 30_encoding.md rules R70, R71). -/

namespace Sys2Proof.Machine

/-- Fault entry answers a next state in which the fault is entered (R145). -/
theorem raise_entered (w : CmdWord) (c : Cause) (s : State) (h : s.fault = none) :
    ∃ t, raise w c s = .next t ∧ FaultEntered w c s t := by
  refine ⟨_, rfl, ?_⟩
  refine ⟨?_, ?_, ?_, ?_, ?_, ?_⟩ <;> simp [respond, recordFault, h]

/-- A normal end answers the state given, with the bytes and the response sent (R70, R71). -/
theorem rsp_next (v : Word64) (out : List Byte) (s t : State) (h : rsp v out s = .next t) :
    t = { s with sent := s.sent ++ out.map .byte ++ [.response ⟨none, v⟩] } := by
  cases h; rfl

/-- The first check of the dispatch: a faulted block refuses, any other goes on (R146). -/
theorem unlessFaulted_of_none (s : State) (body : Result) (h : s.fault = none) : unlessFaulted s body = body := by
  simp [unlessFaulted, h]

theorem unlessFaulted_of_some (s : State) (body : Result) (c : Cause) (h : s.fault = some c) :
    ∃ t, unlessFaulted s body = .next t ∧ Refused c s t := by
  refine ⟨_, by simp [unlessFaulted, h]; rfl, ?_⟩
  simp [Refused, respond]

theorem unlessFaulted_next (s t : State) (body : Result) (h : unlessFaulted s body = .next t) :
    (∃ c, s.fault = some c ∧ Refused c s t) ∨ (s.fault = none ∧ body = .next t) := by
  cases hf : s.fault with
  | none => exact .inr ⟨rfl, by simpa [unlessFaulted, hf] using h⟩
  | some c =>
    refine .inl ⟨c, rfl, ?_⟩
    simp [unlessFaulted, hf] at h
    subst h
    simp [Refused, respond]

/-- The phase check: SEQUENCE is raised, or the phase is one of those allowed (R144). -/
theorem requirePhase_next (phases : List Phase) (w : CmdWord) (s t : State) (body : Result) (hf : s.fault = none)
    (h : requirePhase phases w s body = .next t) :
    (s.phase ∉ phases ∧ FaultEntered w .sequence s t) ∨ (s.phase ∈ phases ∧ body = .next t) := by
  unfold requirePhase at h
  split at h
  · exact .inr ⟨by assumption, h⟩
  · obtain ⟨u, hu, he⟩ := raise_entered w .sequence s hf
    rw [hu] at h; cases h
    exact .inl ⟨by assumption, he⟩

/-- The CODEV check (R101, R102). -/
theorem requireCodev_next (w : CmdWord) (s t : State) (body : Result) (hf : s.fault = none)
    (h : requireCodev w s body = .next t) :
    (s.codev = false ∧ FaultEntered w .sequence s t) ∨ (s.codev = true ∧ body = .next t) := by
  unfold requireCodev at h
  split at h
  · exact .inr ⟨by assumption, h⟩
  · obtain ⟨u, hu, he⟩ := raise_entered w .sequence s hf
    rw [hu] at h; cases h
    exact .inl ⟨by simp_all, he⟩

/-- An illegal word is refused, or raises ILLEGAL (R146). -/
theorem illegalWord_next (w : CmdWord) (s t : State) (h : illegalWord w s = .next t) :
    (∃ c, s.fault = some c ∧ Refused c s t) ∨ (s.fault = none ∧ FaultEntered w .illegal s t) := by
  rcases unlessFaulted_next s t _ h with h | ⟨hf, h⟩
  · exact .inl h
  · obtain ⟨u, hu, he⟩ := raise_entered w .illegal s hf
    rw [hu] at h; cases h
    exact .inr ⟨hf, he⟩

/-- What leaves the block when a command sends bytes and then a response. -/
theorem outStream_append (s t : State) (out : List Byte) (r : Response)
    (h : t.sent = s.sent ++ out.map .byte ++ [.response r]) : outStream t = outStream s ++ out := by
  simp [outStream, h, List.filterMap_append]

theorem responses_append (s t : State) (out : List Byte) (r : Response)
    (h : t.sent = s.sent ++ out.map .byte ++ [.response r]) : responses t = responses s ++ [r] := by
  simp [responses, h, List.filterMap_append]

end Sys2Proof.Machine
end

