-- ==== Sys2Proof/Laws/Step.lean ====
section
/-! SUPPORT. What a command can do, said once: it is refused, it enters a fault, or it has its normal effect, which `Effect` lists
command by command. The invariants and the whole-machine rules are derived from this and not from the meanings' text. -/

namespace Sys2Proof.Machine

/-- `Effect i s u v out`: the conditions under which command `i` ends normally from `s`, with the updated state `u`, the response
value `v` and the bytes `out`. -/
inductive Effect : Instr → State → State → Word64 → List Byte → Prop
  | nop (s : State) : Effect .nop s s 0 []
  | clr (s : State) : Effect .clr s (blockReset s) 0 []
  | rdreg (s : State) (r : Byte) (v : Word64) : registerValue s r = some v → Effect (.rdreg r) s s v []
  | wrreg (s : State) (r : Byte) (v : Word64) : s.fault = none → r = 6 ∨ r = 7 → s.phase ≠ .decode →
      Effect (.wrreg r v) s (writeLimit r v s) 0 []
  | acc (s : State) (b : Byte) : s.fault = none → s.phase = .count → s.total.toNat ≠ 2 ^ 64 - 1 →
      Effect (.acc b) s (countByte b s) 0 []
  | ldf (s : State) (b : Byte) (f : Word64) : s.fault = none → s.phase = .count → f ≠ 0 → freqAt s b = 0 →
      s.total.toNat + f.toNat < 2 ^ 64 → Effect (.ldf b f) s (loadEntry b f s) 0 []
  | rdf (s : State) (b : Byte) : s.fault = none → Effect (.rdf b) s s (freqAt s b) []
  | build (s : State) (r : Active) (rest : List Active) : s.fault = none → s.phase = .count → s.symcnt ≠ 0 →
      (buildTree s).2 = r :: rest →
      Effect .build s (installTree (buildTree s).1 r.ix s) (BitVec.ofNat 64 (buildTree s).1.length) []
  | rdnf (s : State) (i : NodeIx) (n : Node) : s.fault = none → s.phase ≠ .count → i < s.nnodes → nodeAt s i = some n →
      Effect (.rdnf i) s s n.freq []
  | rdnl (s : State) (i : NodeIx) (n : Node) : s.fault = none → s.phase ≠ .count → i < s.nnodes → nodeAt s i = some n →
      Effect (.rdnl i) s s (linkWord n) []
  | gen (s : State) (t : Table (List Bool)) : s.fault = none → s.phase = .built → generateCodes s = .ok t →
      Effect .gen s (installCodes t s) 0 []
  | rdcl (s : State) (b : Byte) : s.fault = none → s.codev = true →
      Effect (.rdcl b) s s ((codeLength (codeAt s b)).setWidth 64) []
  | rdcb (s : State) (b : Byte) (j : BitVec 2) : s.fault = none → s.codev = true →
      Effect (.rdcb b j) s s (codeChunk (codeAt s b) j) []
  | enc (s : State) (b : Byte) : s.fault = none → s.phase = .coded → codeAt s b ≠ [] →
      s.totalbits.toNat + (codeAt s b).length < 2 ^ 64 →
      Effect (.enc b) s (appendCode (codeAt s b) s) (BitVec.ofNat 64 (packedBytes (codeAt s b) s).length)
        (packedBytes (codeAt s b) s)
  | flush (s : State) : s.fault = none → s.phase = .coded →
      Effect .flush s (closePacker s) (BitVec.ofNat 64 (flushedBytes s).length) (flushedBytes s)
  | decbeg (s : State) : s.fault = none → s.phase = .built ∨ s.phase = .coded → s.origlen = s.total →
      Effect .decbeg s (armUnpacker s) 0 []
  | decStopped (s : State) (b : Byte) : s.fault = none → s.phase = .decode → stopped s = true →
      Effect (.dec b) s (markExcess s) 0 []
  | decRun (s : State) (b sym : Byte) (f : Word64) : s.fault = none → s.phase = .decode → stopped s = false →
      nodeAt s s.root = some (.leaf sym f) → b >>> (8 - runLength s) = 0 →
      Effect (.dec b) s (consumeRun (runLength s) s) (BitVec.ofNat 64 (runLength s)) (List.replicate (runLength s) sym)
  | decWalk (s u : State) (b : Byte) (out : List Byte) : s.fault = none → s.phase = .decode → stopped s = false →
      isInternal s.nodes s.root.toNat = true → decodeBits (byteBits b) s = .ok (u, out) →
      Effect (.dec b) s u (BitVec.ofNat 64 out.length) out
  | decend (s : State) : s.fault = none → s.phase = .decode → s.emitted = s.origlen → s.consumed = s.bitlimit →
      s.excess = false → Effect .decend s (endDecode s) s.emitted []

/-- The three ways a command can end in a next state. -/
inductive Ends (i : Instr) (s t : State) : Prop
  | refused (c : Cause) : runsFaulted i = false ∨ i.wellFormed = false → s.fault = some c → Refused c s t → Ends i s t
  | faulted (c : Cause) : s.fault = none → FaultEntered (encode i) c s t → Ends i s t
  | normal (u : State) (v : Word64) (out : List Byte) : Effect i s u v out → t = respond u ⟨none, v⟩ out → Ends i s t

theorem Ends.of_raise (i : Instr) (c : Cause) (s t : State) (hf : s.fault = none) (h : raise (encode i) c s = .next t) :
    Ends i s t := by
  obtain ⟨u, hu, he⟩ := raise_entered (encode i) c s hf
  rw [hu] at h; cases h
  exact .faulted c hf he

theorem Ends.of_rsp (i : Instr) (s u t : State) (v : Word64) (out : List Byte) (he : Effect i s u v out)
    (h : rsp v out u = .next t) : Ends i s t := by
  cases h; exact .normal u v out he rfl

/-- Every command that answers a next state ends in one of the three ways. -/
theorem exec_ends (i : Instr) (s t : State) (h : exec i s = .next t) : Ends i s t := by
  cases i with
  | nop => exact .of_rsp _ s s t 0 [] (.nop s) h
  | clr => exact .of_rsp _ s _ t 0 [] (.clr s) h
  | rdreg r =>
    simp only [exec, execRdreg] at h
    split at h
    · exact .of_rsp _ s s t _ [] (.rdreg s r _ (by assumption)) h
    · rename_i hn
      have hw : (Instr.rdreg r).wellFormed = false := by
        simp only [Instr.wellFormed, decide_eq_false_iff_not]
        intro hr
        unfold registerValue at hn
        split at hn <;> simp_all
        omega
      rcases illegalWord_next _ s t h with ⟨c, hc, hr⟩ | ⟨hf, he⟩
      · exact .refused c (.inr hw) hc hr
      · exact .faulted _ hf he
  | wrreg r v =>
    simp only [exec, execWrreg] at h
    split at h
    · rename_i hr
      rcases unlessFaulted_next s t _ h with ⟨c, hc, he⟩ | ⟨hf, h⟩
      · exact .refused c (.inl rfl) hc he
      · rcases requirePhase_next _ _ s t _ hf h with ⟨_, he⟩ | ⟨hp, h⟩
        · exact .faulted _ hf he
        · exact .of_rsp _ s _ t _ _ (.wrreg s r v hf hr (by rintro hd; simp [hd] at hp)) h
    · rcases illegalWord_next _ s t h with ⟨c, hc, he⟩ | ⟨hf, he⟩
      · exact .refused c (.inl rfl) hc he
      · exact .faulted _ hf he
  | acc b =>
    rcases unlessFaulted_next s t _ h with ⟨c, hc, he⟩ | ⟨hf, h⟩
    · exact .refused c (.inl rfl) hc he
    rcases requirePhase_next _ _ s t _ hf h with ⟨_, he⟩ | ⟨hp, h⟩
    · exact .faulted _ hf he
    split at h
    · exact .of_raise _ _ s t hf h
    · exact .of_rsp _ s _ t _ _ (.acc s b hf (by simpa using hp) (by assumption)) h
  | ldf b f =>
    rcases unlessFaulted_next s t _ h with ⟨c, hc, he⟩ | ⟨hf, h⟩
    · exact .refused c (.inl rfl) hc he
    rcases requirePhase_next _ _ s t _ hf h with ⟨_, he⟩ | ⟨hp, h⟩
    · exact .faulted _ hf he
    split at h
    · exact .of_raise _ _ s t hf h
    · split at h
      · exact .of_raise _ _ s t hf h
      · split at h
        · exact .of_raise _ _ s t hf h
        · exact .of_rsp _ s _ t _ _ (.ldf s b f hf (by simpa using hp) (by assumption) (by simp_all) (by omega)) h
  | rdf b =>
    rcases unlessFaulted_next s t _ h with ⟨c, hc, he⟩ | ⟨hf, h⟩
    · exact .refused c (.inl rfl) hc he
    exact .of_rsp _ s _ t _ _ (.rdf s b hf) h
  | build =>
    rcases unlessFaulted_next s t _ h with ⟨c, hc, he⟩ | ⟨hf, h⟩
    · exact .refused c (.inl rfl) hc he
    rcases requirePhase_next _ _ s t _ hf h with ⟨_, he⟩ | ⟨hp, h⟩
    · exact .faulted _ hf he
    split at h
    · exact .of_raise _ _ s t hf h
    · split at h
      · cases h
      · exact .of_rsp _ s _ t _ _ (.build s _ _ hf (by simpa using hp) (by assumption) (by assumption)) h
  | rdnf n =>
    rcases unlessFaulted_next s t _ h with ⟨c, hc, he⟩ | ⟨hf, h⟩
    · exact .refused c (.inl rfl) hc he
    rcases requirePhase_next _ _ s t _ hf h with ⟨_, he⟩ | ⟨hp, h⟩
    · exact .faulted _ hf he
    split at h
    · exact .of_raise _ _ s t hf h
    · split at h
      · cases h
      · exact .of_rsp _ s _ t _ _ (.rdnf s n _ hf (by rintro hd; simp [hd] at hp)
          (BitVec.not_le.1 (by assumption)) (by assumption)) h
  | rdnl n =>
    rcases unlessFaulted_next s t _ h with ⟨c, hc, he⟩ | ⟨hf, h⟩
    · exact .refused c (.inl rfl) hc he
    rcases requirePhase_next _ _ s t _ hf h with ⟨_, he⟩ | ⟨hp, h⟩
    · exact .faulted _ hf he
    split at h
    · exact .of_raise _ _ s t hf h
    · split at h
      · cases h
      · exact .of_rsp _ s _ t _ _ (.rdnl s n _ hf (by rintro hd; simp [hd] at hp)
          (BitVec.not_le.1 (by assumption)) (by assumption)) h
  | gen =>
    rcases unlessFaulted_next s t _ h with ⟨c, hc, he⟩ | ⟨hf, h⟩
    · exact .refused c (.inl rfl) hc he
    rcases requirePhase_next _ _ s t _ hf h with ⟨_, he⟩ | ⟨hp, h⟩
    · exact .faulted _ hf he
    split at h
    · cases h
    · exact .of_rsp _ s _ t _ _ (.gen s _ hf (by simpa using hp) (by assumption)) h
  | rdcl b =>
    rcases unlessFaulted_next s t _ h with ⟨c, hc, he⟩ | ⟨hf, h⟩
    · exact .refused c (.inl rfl) hc he
    rcases requireCodev_next _ s t _ hf h with ⟨_, he⟩ | ⟨hp, h⟩
    · exact .faulted _ hf he
    exact .of_rsp _ s _ t _ _ (.rdcl s b hf hp) h
  | rdcb b j =>
    rcases unlessFaulted_next s t _ h with ⟨c, hc, he⟩ | ⟨hf, h⟩
    · exact .refused c (.inl rfl) hc he
    rcases requireCodev_next _ s t _ hf h with ⟨_, he⟩ | ⟨hp, h⟩
    · exact .faulted _ hf he
    exact .of_rsp _ s _ t _ _ (.rdcb s b j hf hp) h
  | enc b =>
    rcases unlessFaulted_next s t _ h with ⟨c, hc, he⟩ | ⟨hf, h⟩
    · exact .refused c (.inl rfl) hc he
    rcases requirePhase_next _ _ s t _ hf h with ⟨_, he⟩ | ⟨hp, h⟩
    · exact .faulted _ hf he
    split at h
    · exact .of_raise _ _ s t hf h
    · split at h
      · exact .of_raise _ _ s t hf h
      · exact .of_rsp _ s _ t _ _ (.enc s b hf (by simpa using hp) (by intro e; simp_all) (by omega)) h
  | flush =>
    rcases unlessFaulted_next s t _ h with ⟨c, hc, he⟩ | ⟨hf, h⟩
    · exact .refused c (.inl rfl) hc he
    rcases requirePhase_next _ _ s t _ hf h with ⟨_, he⟩ | ⟨hp, h⟩
    · exact .faulted _ hf he
    exact .of_rsp _ s _ t _ _ (.flush s hf (by simpa using hp)) h
  | decbeg =>
    rcases unlessFaulted_next s t _ h with ⟨c, hc, he⟩ | ⟨hf, h⟩
    · exact .refused c (.inl rfl) hc he
    rcases requirePhase_next _ _ s t _ hf h with ⟨_, he⟩ | ⟨hp, h⟩
    · exact .faulted _ hf he
    split at h
    · exact .of_raise _ _ s t hf h
    · exact .of_rsp _ s _ t _ _ (.decbeg s hf (by simpa using hp) (by simp_all)) h
  | dec b =>
    rcases unlessFaulted_next s t _ h with ⟨c, hc, he⟩ | ⟨hf, h⟩
    · exact .refused c (.inl rfl) hc he
    rcases requirePhase_next _ _ s t _ hf h with ⟨_, he⟩ | ⟨hp, h⟩
    · exact .faulted _ hf he
    have hp : s.phase = .decode := by simpa using hp
    split at h
    · exact .of_rsp _ s _ t _ _ (.decStopped s b hf hp (by assumption)) h
    · rename_i hs
      have hs : stopped s = false := by simpa using hs
      split at h
      · cases h
      · rename_i sym f hn
        simp only [decodeRun] at h
        split at h
        · exact .of_raise _ _ s t hf h
        · exact .of_rsp _ s _ t _ _ (.decRun s b sym f hf hp hs hn (by simp_all)) h
      · rename_i f l r hn
        simp only [decodeWalk] at h
        split at h
        · cases h
        · exact .of_rsp _ s _ t _ _ (.decWalk s _ b _ hf hp hs
            (by unfold nodeAt at hn; simp [isInternal, hn]) (by assumption)) h
  | decend =>
    rcases unlessFaulted_next s t _ h with ⟨c, hc, he⟩ | ⟨hf, h⟩
    · exact .refused c (.inl rfl) hc he
    rcases requirePhase_next _ _ s t _ hf h with ⟨_, he⟩ | ⟨hp, h⟩
    · exact .faulted _ hf he
    split at h
    · exact .of_raise _ _ s t hf h
    · rename_i hn
      simp only [not_or, ne_eq, not_not, Bool.not_eq_true] at hn
      exact .of_rsp _ s _ t _ _ (.decend s hf (by simpa using hp) hn.1 hn.2.1 hn.2.2) h

/-- The three ways a step can end: idle, the reset input, or a command word. -/
theorem step_cases (s t : State) (h : step s = .next t) :
    (s.pending = [] ∧ t = s) ∨
    (∃ rest, s.pending = .reset :: rest ∧ t = blockReset { s with pending := rest }) ∨
    (∃ w rest i, s.pending = .command w :: rest ∧ decode w = .ok i ∧ Ends i { s with pending := rest } t) ∨
    (∃ w rest e, s.pending = .command w :: rest ∧ decode w = .error e ∧
      ((∃ c, s.fault = some c ∧ Refused c { s with pending := rest } t) ∨
        (s.fault = none ∧ FaultEntered w .illegal { s with pending := rest } t))) := by
  unfold step at h
  split at h
  · cases h; exact .inl ⟨by assumption, rfl⟩
  · cases h; exact .inr (.inl ⟨_, by assumption, rfl⟩)
  · split at h
    · exact .inr (.inr (.inl ⟨_, _, _, by assumption, by assumption, exec_ends _ _ _ h⟩))
    · rename_i w rest hp _ e hd
      exact .inr (.inr (.inr ⟨w, rest, e, hp, hd, illegalWord_next w { s with pending := rest } t h⟩))

end Sys2Proof.Machine
end

