-- ==== Sys2Proof/Laws/Effect.lean ====
section
/-! SUPPORT. A normal effect leaves the ports' lists alone, and a command whose effect applies completes with it: the converse of
Sys2Proof/Laws/Step.lean. -/

namespace Sys2Proof.Machine

/-- What the walk over payload bits can change (44_unpacker.md rule R121). -/
theorem decodeBits_frame (bits : List Bool) (s t : State) (out : List Byte) (h : decodeBits bits s = .ok (t, out)) :
    t = { s with consumed := t.consumed, emitted := t.emitted, cursor := t.cursor } := by
  induction bits generalizing s out with
  | nil => cases h; rfl
  | cons b bits ih =>
    simp only [decodeBits] at h
    split at h
    · cases h; rfl
    · split at h
      · cases h
      · rename_i s' o hd
        split at h
        · cases h
        · rename_i u o' hb
          cases h
          have hs : s' = { s with consumed := s'.consumed, emitted := s'.emitted, cursor := s'.cursor } := by
            unfold decodeBit at hd
            split at hd
            · cases hd
            · split at hd <;> cases hd <;> rfl
          rw [ih s' o' hb, hs]

/-- No command's own effect touches the inputs waiting or what has left. -/
theorem Effect.ports {i : Instr} {s u : State} {v : Word64} {out : List Byte} (h : Effect i s u v out) :
    u.pending = s.pending ∧ u.sent = s.sent := by
  cases h with
  | wrreg _ r v hf hr hp => unfold writeLimit; split <;> exact ⟨rfl, rfl⟩
  | decWalk s u b out hf hp hs hi hd => rw [decodeBits_frame _ _ _ _ hd]; exact ⟨rfl, rfl⟩
  | _ => exact ⟨rfl, rfl⟩

/-- A command whose effect applies ends normally with it. -/
theorem Effect.completes {i : Instr} {s u : State} {v : Word64} {out : List Byte} (h : Effect i s u v out) :
    Completes i s (respond u ⟨none, v⟩ out) v out := by
  refine ⟨?_, by simp [respond, h.ports.2]⟩
  cases h with
  | nop => rfl
  | clr => rfl
  | rdreg _ r v hv => simp [exec, execRdreg, hv, rsp]
  | wrreg _ r v hf hr hp =>
    have hm : s.phase ∈ [Phase.count, .built, .coded, .done] := by cases hs : s.phase <;> simp_all
    simp only [exec, execWrreg, if_pos hr, unlessFaulted, hf, requirePhase, if_pos hm, rsp]
  | acc _ b hf hp ht =>
    simp only [exec, execAcc, unlessFaulted, hf, requirePhase, hp, List.mem_singleton, if_true, rsp, if_neg ht]
  | ldf _ b f hf hp h0 h1 ht =>
    simp only [exec, execLdf, unlessFaulted, hf, requirePhase, hp, List.mem_singleton, if_true, rsp, if_neg h0,
      if_neg (not_not.2 h1), if_neg (Nat.not_le.2 ht)]
  | rdf _ b hf => simp [exec, execRdf, unlessFaulted, hf, rsp]
  | build _ r rest hf hp h0 hb =>
    simp only [exec, execBuild, unlessFaulted, hf, requirePhase, hp, List.mem_singleton, if_true, rsp, if_neg h0, hb]
  | rdnf _ i n hf hp hi hn =>
    have hm : s.phase ∈ [Phase.built, .coded, .decode, .done] := by cases hs : s.phase <;> simp_all
    simp [exec, execRdnf, readNode, unlessFaulted, hf, requirePhase, hm, rsp, BitVec.not_le.2 hi, hn]
  | rdnl _ i n hf hp hi hn =>
    have hm : s.phase ∈ [Phase.built, .coded, .decode, .done] := by cases hs : s.phase <;> simp_all
    simp [exec, execRdnl, readNode, unlessFaulted, hf, requirePhase, hm, rsp, BitVec.not_le.2 hi, hn]
  | gen _ t hf hp hg => simp [exec, execGen, unlessFaulted, hf, requirePhase, hp, rsp, hg]
  | rdcl _ b hf hc => simp [exec, execRdcl, unlessFaulted, hf, requireCodev, hc, rsp]
  | rdcb _ b j hf hc => simp [exec, execRdcb, unlessFaulted, hf, requireCodev, hc, rsp]
  | enc _ b hf hp hc ht =>
    simp only [exec, execEnc, unlessFaulted, hf, requirePhase, hp, List.mem_singleton, if_true, rsp,
      if_neg (mt List.length_eq_zero_iff.1 hc), if_neg (Nat.not_le.2 ht)]
  | flush _ hf hp => simp [exec, execFlush, unlessFaulted, hf, requirePhase, hp, rsp]
  | decbeg _ hf hp ho =>
    have hm : s.phase ∈ [Phase.built, .coded] := by simpa using hp
    simp [exec, execDecbeg, unlessFaulted, hf, requirePhase, hm, rsp, ho]
  | decStopped _ b hf hp hs => simp [exec, execDec, unlessFaulted, hf, requirePhase, hp, rsp, hs]
  | decRun _ b sym f hf hp hs hn hz =>
    simp [exec, execDec, unlessFaulted, hf, requirePhase, hp, rsp, hs, hn, decodeRun, hz]
  | decWalk s u b out hf hp hs hi hd =>
    obtain ⟨f, l, r, hn⟩ : ∃ f l r, nodeAt s s.root = some (.internal f l r) := by
      unfold isInternal at hi; unfold nodeAt
      split at hi <;> simp_all
    simp [exec, execDec, unlessFaulted, hf, requirePhase, hp, rsp, hs, hn, decodeWalk, hd]
  | decend _ hf hp he hc hx => simp [exec, execDecend, unlessFaulted, hf, requirePhase, hp, rsp, he, hc, hx]

/-- Two states that differ at most in the fault record and the ports' lists. -/
def sameBlock (s t : State) : Prop :=
  t = { s with fault := t.fault, finfo := t.finfo, fimm := t.fimm, pending := t.pending, sent := t.sent }

/-- What a step keeps: a property that does not read the fault record or the ports' lists, that the reset state has, and that
every command's own effect keeps. -/
theorem step_keeps (P : State → Prop) (same : ∀ s t, sameBlock s t → P s → P t) (reset : P State.reset)
    (effect : ∀ i s u v out, Effect i s u v out → P s → P u) (s t : State) (hs : P s) (h : step s = .next t) : P t := by
  rcases step_cases s t h with ⟨_, rfl⟩ | ⟨rest, _, rfl⟩ | ⟨w, rest, i, _, _, he⟩ | ⟨w, rest, e, _, _, he⟩
  · exact hs
  · exact same _ _ rfl reset
  · have hq : P { s with pending := rest } := same _ _ rfl hs
    rcases he with ⟨c, _, _, hr⟩ | ⟨c, _, hr, _⟩ | ⟨u, v, out, he, rfl⟩
    · exact same _ _ (by unfold Refused at hr; rw [hr]; rfl) hq
    · exact same _ _ (by unfold sameBlock; rw [hr]) hq
    · exact same _ _ rfl (effect _ _ _ _ _ he hq)
  · have hq : P { s with pending := rest } := same _ _ rfl hs
    rcases he with ⟨c, _, hr⟩ | ⟨_, hr, _⟩
    · exact same _ _ (by unfold Refused at hr; rw [hr]; rfl) hq
    · exact same _ _ (by unfold sameBlock; rw [hr]) hq

end Sys2Proof.Machine
end

