-- ==== Sys2Proof/Laws/Packer.lean ====
section
/-! SUPPORT. The packer's loop as one statement about bits (43_packer.md rules R110 and R112). -/

namespace Sys2Proof.Machine

theorem placeBit_getLsbD (acc : BitVec 8) (k j : Nat) (b : Bool) (hk : k < 8) (hj : j < 8) :
    (placeBit acc k b).getLsbD j = if j = k then b else acc.getLsbD j := by
  simp only [placeBit, BitVec.getLsbD_or, BitVec.getLsbD_and, BitVec.getLsbD_not, BitVec.getLsbD_shiftLeft,
    BitVec.getLsbD_setWidth, BitVec.getLsbD_ofBool]
  by_cases h : j = k
  · subst h; cases b <;> simp [hj]
  · rcases Nat.lt_or_ge j k with h' | h'
    · simp [hj, h, h']
    · have h1 : ¬ j < k := by omega
      have h2 : j - k ≠ 0 := by omega
      simp [hj, h, h1, h2]

/-- The bits of a byte, by position (R41). -/
theorem byteBits_getElem (b : Byte) (k : Nat) (h : k < 8) : (byteBits b)[k]? = some (b.getLsbD (7 - k)) := by
  interval_cases k <;> rfl

theorem byteBits_length (b : Byte) : (byteBits b).length = 8 := rfl

/-- Placing the next bit: the bits waiting gain it at their end. -/
theorem byteBits_placeBit (acc : BitVec 8) (n : Nat) (b : Bool) (h : n < 8) :
    (byteBits (placeBit acc (7 - n) b)).take (n + 1) = (byteBits acc).take n ++ [b] := by
  apply List.ext_getElem?
  intro k
  rcases Nat.lt_trichotomy k n with hk | hk | hk
  · rw [List.getElem?_take_of_lt (by omega), byteBits_getElem _ _ (by omega),
      List.getElem?_append_left (by simp [byteBits_length]; omega), List.getElem?_take_of_lt hk,
      byteBits_getElem _ _ (by omega), placeBit_getLsbD _ _ _ _ (by omega) (by omega), if_neg (by omega)]
  · subst hk
    rw [List.getElem?_take_of_lt (by omega), byteBits_getElem _ _ (by omega),
      placeBit_getLsbD _ _ _ _ (by omega) (by omega), if_pos rfl,
      List.getElem?_append_right (by simp)]
    simp [byteBits_length, show min k 8 = k by omega]
  · rw [List.getElem?_eq_none (by simp [byteBits_length]; omega),
      List.getElem?_eq_none (by simp [byteBits_length]; omega)]

/-- What the loop does: the waiting bits and the new bits, in order, are the bytes emitted and then the bits left waiting; the
counts; the unfilled low bits stay 0. -/
theorem packBits_spec (bits : List Bool) (acc : BitVec 8) (n : BitVec 3) :
    (byteBits acc).take n.toNat ++ bits =
      (packBits bits acc n).2.2.flatMap byteBits ++ (byteBits (packBits bits acc n).1).take (packBits bits acc n).2.1.toNat ∧
    (packBits bits acc n).2.2.length = (n.toNat + bits.length) / 8 ∧
    (packBits bits acc n).2.1.toNat = (n.toNat + bits.length) % 8 ∧
    ((∀ k < 8 - n.toNat, acc.getLsbD k = false) →
      ∀ k < 8 - (packBits bits acc n).2.1.toNat, (packBits bits acc n).1.getLsbD k = false) := by
  induction bits generalizing acc n with
  | nil =>
    have := n.isLt
    exact ⟨by simp [packBits], by simp [packBits]; omega, by simp [packBits]; omega, fun h => h⟩
  | cons b bs ih =>
    have hn := n.isLt
    simp only [packBits]
    split
    · rename_i h7
      obtain ⟨h1, h2, h3, h4⟩ := ih 0 0
      refine ⟨?_, ?_, ?_, ?_⟩
      · have hb := byteBits_placeBit acc 7 b (by omega)
        rw [List.take_of_length_le (by simp [byteBits_length])] at hb
        simp only [BitVec.toNat_zero, BitVec.ofNat_eq_ofNat, List.take_zero, List.nil_append] at h1
        rw [h7, List.flatMap_cons, hb, List.append_assoc, List.append_assoc]
        rw [show (byteBits acc).take 7 ++ (b :: bs) = (byteBits acc).take 7 ++ ([b] ++ bs) from rfl]
        congr 2
      · have : (0 : BitVec 3).toNat = 0 := rfl
        simp only [List.length_cons]
        rw [h2]; omega
      · have : (0 : BitVec 3).toNat = 0 := rfl
        rw [h3]; simp only [List.length_cons]; omega
      · intro _; exact h4 (by intro k _; simp)
    · rename_i h7
      have hn1 : (n + 1).toNat = n.toNat + 1 := by
        rw [BitVec.toNat_add]
        have : (1 : BitVec 3).toNat = 1 := rfl
        omega
      obtain ⟨h1, h2, h3, h4⟩ := ih (placeBit acc (7 - n.toNat) b) (n + 1)
      rw [hn1] at h1 h2 h3 h4
      refine ⟨?_, ?_, ?_, ?_⟩
      · rw [← h1, byteBits_placeBit _ _ _ (by omega)]; simp
      · rw [h2]; simp only [List.length_cons]; congr 1; omega
      · rw [h3]; simp only [List.length_cons]; congr 1; omega
      · intro h
        refine h4 fun k hk => ?_
        rw [placeBit_getLsbD _ _ _ _ (by omega) (by omega), if_neg (by omega)]
        exact h k (by omega)

end Sys2Proof.Machine
end

