-- ==== Sys2Proof/Laws/PerInstr.lean ====
section
/-! SUPPORT. Per command: its encoding selects its own row of the opcode table (30_encoding.md rule R63). -/

namespace Sys2Proof.Laws

/-- A word AND a mask, field by field. -/
theorem commandWord_and (a b : Byte) (c : Word64) (a' b' : Byte) (c' : Word64) :
    commandWord a b c &&& commandWord a' b' c' = commandWord (a &&& a') (b &&& b') (c &&& c') := by
  simp only [commandWord]
  rw [BitVec.and_append, BitVec.and_append]

/-- A node index has no bit in `imm[63:9]`. -/
theorem index_and_mask (i : NodeIx) : i.setWidth 64 &&& 0xFFFFFFFFFFFFFE00#64 = 0 := by
  apply BitVec.eq_of_toNat_eq
  rw [BitVec.toNat_and, BitVec.toNat_setWidth]
  have hi := i.isLt
  have : i.toNat % 2 ^ 64 = i.toNat := Nat.mod_eq_of_lt (by omega)
  rw [this]
  interval_cases h : i.toNat <;> rfl

/-- A chunk number has no bit in `imm[63:2]`. -/
theorem chunk_and_mask (j : BitVec 2) : j.setWidth 64 &&& 0xFFFFFFFFFFFFFFFC#64 = 0 := by
  revert j; decide

/-- The command's encoding, if it has one, selects the command's own row. -/
def EncodeFitsRow.Statement (i : Instr) : Prop :=
  i.wellFormed = true → ∃ row ∈ opcodeTable, row.mnemonic = i.mnemonic ∧ row.selects (encode i) = true

theorem EncodeFitsRow.nop : EncodeFitsRow.Statement .nop := fun _ =>
  ⟨⟨"NOP", 0x00000000000000000000, 0xFFFFFFFFFFFFFFFFFFFF⟩, by simp [opcodeTable], rfl, by decide⟩

theorem EncodeFitsRow.clr : EncodeFitsRow.Statement .clr := fun _ =>
  ⟨⟨"CLR", 0x01000000000000000000, 0xFFFFFFFFFFFFFFFFFFFF⟩, by simp [opcodeTable], rfl, by decide⟩

theorem EncodeFitsRow.rdreg (r : Byte) : EncodeFitsRow.Statement (.rdreg r) := fun _ =>
  ⟨⟨"RDREG", 0x02000000000000000000, 0xFF00FFFFFFFFFFFFFFFF⟩, by simp [opcodeTable], rfl, by
    have hm : (0xFF00FFFFFFFFFFFFFFFF : CmdWord) = commandWord 0xFF 0x00 0xFFFFFFFFFFFFFFFF := by decide
    have hp : (0x02000000000000000000 : CmdWord) = commandWord 0x02 0 0 := by decide
    simp [OpcodeRow.selects, encode, hm, hp, commandWord_and]⟩

theorem EncodeFitsRow.wrreg (r : Byte) (v : Word64) : EncodeFitsRow.Statement (.wrreg r v) := fun _ =>
  ⟨⟨"WRREG", 0x03000000000000000000, 0xFF000000000000000000⟩, by simp [opcodeTable], rfl, by
    have hm : (0xFF000000000000000000 : CmdWord) = commandWord 0xFF 0x00 0x0000000000000000 := by decide
    have hp : (0x03000000000000000000 : CmdWord) = commandWord 0x03 0 0 := by decide
    simp [OpcodeRow.selects, encode, hm, hp, commandWord_and]⟩

theorem EncodeFitsRow.acc (b : Byte) : EncodeFitsRow.Statement (.acc b) := fun _ =>
  ⟨⟨"ACC", 0x10000000000000000000, 0xFF00FFFFFFFFFFFFFFFF⟩, by simp [opcodeTable], rfl, by
    have hm : (0xFF00FFFFFFFFFFFFFFFF : CmdWord) = commandWord 0xFF 0x00 0xFFFFFFFFFFFFFFFF := by decide
    have hp : (0x10000000000000000000 : CmdWord) = commandWord 0x10 0 0 := by decide
    simp [OpcodeRow.selects, encode, hm, hp, commandWord_and]⟩

theorem EncodeFitsRow.ldf (b : Byte) (f : Word64) : EncodeFitsRow.Statement (.ldf b f) := fun _ =>
  ⟨⟨"LDF", 0x11000000000000000000, 0xFF000000000000000000⟩, by simp [opcodeTable], rfl, by
    have hm : (0xFF000000000000000000 : CmdWord) = commandWord 0xFF 0x00 0x0000000000000000 := by decide
    have hp : (0x11000000000000000000 : CmdWord) = commandWord 0x11 0 0 := by decide
    simp [OpcodeRow.selects, encode, hm, hp, commandWord_and]⟩

theorem EncodeFitsRow.rdf (b : Byte) : EncodeFitsRow.Statement (.rdf b) := fun _ =>
  ⟨⟨"RDF", 0x12000000000000000000, 0xFF00FFFFFFFFFFFFFFFF⟩, by simp [opcodeTable], rfl, by
    have hm : (0xFF00FFFFFFFFFFFFFFFF : CmdWord) = commandWord 0xFF 0x00 0xFFFFFFFFFFFFFFFF := by decide
    have hp : (0x12000000000000000000 : CmdWord) = commandWord 0x12 0 0 := by decide
    simp [OpcodeRow.selects, encode, hm, hp, commandWord_and]⟩

theorem EncodeFitsRow.build : EncodeFitsRow.Statement .build := fun _ =>
  ⟨⟨"BUILD", 0x20000000000000000000, 0xFFFFFFFFFFFFFFFFFFFF⟩, by simp [opcodeTable], rfl, by decide⟩

theorem EncodeFitsRow.rdnf (i : NodeIx) : EncodeFitsRow.Statement (.rdnf i) := fun _ =>
  ⟨⟨"RDNF", 0x21000000000000000000, 0xFFFFFFFFFFFFFFFFFE00⟩, by simp [opcodeTable], rfl, by
    have hm : (0xFFFFFFFFFFFFFFFFFE00 : CmdWord) = commandWord 0xFF 0xFF 0xFFFFFFFFFFFFFE00 := by decide
    have hp : (0x21000000000000000000 : CmdWord) = commandWord 0x21 0 0 := by decide
    simp [OpcodeRow.selects, encode, hm, hp, commandWord_and, index_and_mask]⟩

theorem EncodeFitsRow.rdnl (i : NodeIx) : EncodeFitsRow.Statement (.rdnl i) := fun _ =>
  ⟨⟨"RDNL", 0x22000000000000000000, 0xFFFFFFFFFFFFFFFFFE00⟩, by simp [opcodeTable], rfl, by
    have hm : (0xFFFFFFFFFFFFFFFFFE00 : CmdWord) = commandWord 0xFF 0xFF 0xFFFFFFFFFFFFFE00 := by decide
    have hp : (0x22000000000000000000 : CmdWord) = commandWord 0x22 0 0 := by decide
    simp [OpcodeRow.selects, encode, hm, hp, commandWord_and, index_and_mask]⟩

theorem EncodeFitsRow.gen : EncodeFitsRow.Statement .gen := fun _ =>
  ⟨⟨"GEN", 0x30000000000000000000, 0xFFFFFFFFFFFFFFFFFFFF⟩, by simp [opcodeTable], rfl, by decide⟩

theorem EncodeFitsRow.rdcl (b : Byte) : EncodeFitsRow.Statement (.rdcl b) := fun _ =>
  ⟨⟨"RDCL", 0x31000000000000000000, 0xFF00FFFFFFFFFFFFFFFF⟩, by simp [opcodeTable], rfl, by
    have hm : (0xFF00FFFFFFFFFFFFFFFF : CmdWord) = commandWord 0xFF 0x00 0xFFFFFFFFFFFFFFFF := by decide
    have hp : (0x31000000000000000000 : CmdWord) = commandWord 0x31 0 0 := by decide
    simp [OpcodeRow.selects, encode, hm, hp, commandWord_and]⟩

theorem EncodeFitsRow.rdcb (b : Byte) (j : BitVec 2) : EncodeFitsRow.Statement (.rdcb b j) := fun _ =>
  ⟨⟨"RDCB", 0x32000000000000000000, 0xFF00FFFFFFFFFFFFFFFC⟩, by simp [opcodeTable], rfl, by
    have hm : (0xFF00FFFFFFFFFFFFFFFC : CmdWord) = commandWord 0xFF 0x00 0xFFFFFFFFFFFFFFFC := by decide
    have hp : (0x32000000000000000000 : CmdWord) = commandWord 0x32 0 0 := by decide
    simp [OpcodeRow.selects, encode, hm, hp, commandWord_and, chunk_and_mask]⟩

theorem EncodeFitsRow.enc (b : Byte) : EncodeFitsRow.Statement (.enc b) := fun _ =>
  ⟨⟨"ENC", 0x40000000000000000000, 0xFF00FFFFFFFFFFFFFFFF⟩, by simp [opcodeTable], rfl, by
    have hm : (0xFF00FFFFFFFFFFFFFFFF : CmdWord) = commandWord 0xFF 0x00 0xFFFFFFFFFFFFFFFF := by decide
    have hp : (0x40000000000000000000 : CmdWord) = commandWord 0x40 0 0 := by decide
    simp [OpcodeRow.selects, encode, hm, hp, commandWord_and]⟩

theorem EncodeFitsRow.flush : EncodeFitsRow.Statement .flush := fun _ =>
  ⟨⟨"FLUSH", 0x41000000000000000000, 0xFFFFFFFFFFFFFFFFFFFF⟩, by simp [opcodeTable], rfl, by decide⟩

theorem EncodeFitsRow.decbeg : EncodeFitsRow.Statement .decbeg := fun _ =>
  ⟨⟨"DECBEG", 0x50000000000000000000, 0xFFFFFFFFFFFFFFFFFFFF⟩, by simp [opcodeTable], rfl, by decide⟩

theorem EncodeFitsRow.dec (b : Byte) : EncodeFitsRow.Statement (.dec b) := fun _ =>
  ⟨⟨"DEC", 0x51000000000000000000, 0xFF00FFFFFFFFFFFFFFFF⟩, by simp [opcodeTable], rfl, by
    have hm : (0xFF00FFFFFFFFFFFFFFFF : CmdWord) = commandWord 0xFF 0x00 0xFFFFFFFFFFFFFFFF := by decide
    have hp : (0x51000000000000000000 : CmdWord) = commandWord 0x51 0 0 := by decide
    simp [OpcodeRow.selects, encode, hm, hp, commandWord_and]⟩

theorem EncodeFitsRow.decend : EncodeFitsRow.Statement .decend := fun _ =>
  ⟨⟨"DECEND", 0x52000000000000000000, 0xFFFFFFFFFFFFFFFFFFFF⟩, by simp [opcodeTable], rfl, by decide⟩

end Sys2Proof.Laws
end

