-- ==== Sys2Proof/Laws/Tree.lean ====
section
/-! SUPPORT. The tree builder's parts (41_tree.md rule R90): the least key, removing it from the active set, the leaves, and what
the loop keeps. -/

namespace Sys2Proof.Machine

/-- Keys compare as rule R90 says. -/
theorem keyLt_iff (x y : Active) :
    keyLt x y = true ↔ x.freq.toNat < y.freq.toNat ∨ (x.freq.toNat = y.freq.toNat ∧ x.ix < y.ix) := by
  simp [keyLt]

theorem leastKey_mem (x : Active) (xs : List Active) : leastKey x xs ∈ x :: xs := by
  induction xs generalizing x with
  | nil => simp [leastKey]
  | cons y ys ih =>
    simp only [leastKey]
    have := ih (if keyLt y x then y else x)
    split
    · rename_i h
      rw [if_pos h] at this
      rcases List.mem_cons.1 this with e | e
      · rw [e]; simp
      · exact List.mem_cons_of_mem _ (List.mem_cons_of_mem _ e)
    · rename_i h
      rw [if_neg h] at this
      rcases List.mem_cons.1 this with e | e
      · rw [e]; simp
      · exact List.mem_cons_of_mem _ (List.mem_cons_of_mem _ e)

theorem leastKey_least (x : Active) (xs : List Active) : ∀ y ∈ x :: xs, ¬ keyLt y (leastKey x xs) = true := by
  induction xs generalizing x with
  | nil => intro y hy; simp [leastKey] at hy ⊢; subst hy; simp [keyLt]
  | cons z zs ih =>
    intro y hy
    simp only [leastKey]
    have key := ih (if keyLt z x then z else x)
    have hz := key (if keyLt z x then z else x) (by simp)
    rcases List.mem_cons.1 hy with rfl | hy
    · split at hz
      · rename_i hzx
        rw [if_pos hzx]
        rw [keyLt_iff] at hz hzx ⊢
        omega
      · rename_i hzx; rwa [if_neg hzx]
    · rcases List.mem_cons.1 hy with rfl | hy
      · split at hz
        · rename_i hzx; rwa [if_pos hzx]
        · rename_i hzx
          rw [if_neg hzx]
          rw [keyLt_iff] at hz hzx ⊢
          omega
      · exact key y (List.mem_cons_of_mem _ hy)

/-- Removing the least element: it is an element, the rest is the set without it, and no element has a lesser key. -/
theorem takeLeast_some (act rest : List Active) (a : Active) (h : takeLeast act = some (a, rest)) :
    a ∈ act ∧ rest = act.erase a ∧ ∀ y ∈ act, ¬ keyLt y a = true := by
  cases act with
  | nil => simp [takeLeast] at h
  | cons x xs =>
    simp only [takeLeast, Option.some.injEq, Prod.mk.injEq] at h
    obtain ⟨rfl, rfl⟩ := h
    exact ⟨leastKey_mem x xs, rfl, leastKey_least x xs⟩

theorem takeLeast_none (act : List Active) : takeLeast act = none ↔ act = [] := by
  cases act <;> simp [takeLeast]

theorem activeFrom_length (n : Nat) (ns : List Node) : (activeFrom n ns).length = ns.length := by
  induction ns generalizing n with
  | nil => rfl
  | cons x xs ih => simp [activeFrom, ih]

theorem activeFrom_mem (n : Nat) (ns : List Node) (x : Active) :
    x ∈ activeFrom n ns ↔ ∃ i, ns[i]?.map Node.freq = some x.freq ∧ x.ix = n + i := by
  induction ns generalizing n with
  | nil => simp [activeFrom]
  | cons y ys ih =>
    simp only [activeFrom, List.mem_cons, ih]
    constructor
    · rintro (rfl | ⟨i, h, hi⟩)
      · exact ⟨0, by simp⟩
      · exact ⟨i + 1, by simpa using h, by omega⟩
    · rintro ⟨i, h, hi⟩
      cases i with
      | zero =>
        left
        cases x; simp at h hi; simp [h, hi]
      | succ i => exact .inr ⟨i, by simpa using h, by omega⟩

theorem activeFrom_sum (n : Nat) (ns : List Node) :
    ((activeFrom n ns).map fun x => x.freq.toNat).sum = (ns.map fun x => x.freq.toNat).sum := by
  induction ns generalizing n with
  | nil => rfl
  | cons x xs ih => simp [activeFrom, ih]

theorem activeFrom_nodup (n : Nat) (ns : List Node) : ((activeFrom n ns).map Active.ix).Nodup := by
  induction ns generalizing n with
  | nil => simp [activeFrom]
  | cons x xs ih =>
    simp only [activeFrom, List.map_cons, List.nodup_cons]
    refine ⟨?_, ih (n + 1)⟩
    simp only [List.mem_map, activeFrom_mem, not_exists, not_and]
    rintro y ⟨i, _, hi⟩
    omega

/-! What one more record changes: nothing below it. -/

theorem freqOf_append (ns : List Node) (x : Node) (i : Nat) (h : i < ns.length) : freqOf (ns ++ [x]) i = freqOf ns i := by
  simp [freqOf, List.getElem?_append_left h]

theorem freqOf_last (ns : List Node) (x : Node) : freqOf (ns ++ [x]) ns.length = x.freq.toNat := by
  simp [freqOf]

theorem childOf_append (ns : List Node) (x : Node) (k c : Nat) (h : k < ns.length) :
    childOf (ns ++ [x]) k c = childOf ns k c := by
  simp [childOf, List.getElem?_append_left h]

theorem childOf_last (ns : List Node) (f : Word64) (l r : NodeIx) (c : Nat) :
    childOf (ns ++ [.internal f l r]) ns.length c = (l.toNat == c || r.toNat == c) := by
  simp [childOf]

theorem internalSound_append (ns : List Node) (x : Node) (k : Nat) (h : k < ns.length) (hs : internalSound ns k = true) :
    internalSound (ns ++ [x]) k = true := by
  unfold internalSound at hs ⊢
  rw [List.getElem?_append_left h]
  split at hs
  · rename_i f l r hk
    simp only [Bool.and_eq_true, decide_eq_true_eq, beq_iff_eq, bne_iff_ne] at hs ⊢
    rw [freqOf_append _ _ _ (by omega), freqOf_append _ _ _ (by omega)]
    exact hs
  · simp at hs

theorem activeAt_append (ns : List Node) (x : Node) (k i : Nat) (h : k ≤ ns.length) :
    activeAt (ns ++ [x]) k i ↔ activeAt ns k i := by
  unfold activeAt
  refine and_congr_right fun _ => forall₂_congr fun j hj => ?_
  rw [childOf_append _ _ _ _ (by omega)]

theorem greedyAt_append (ns : List Node) (x : Node) (k : Nat) (l r : NodeIx) (h : k ≤ ns.length) (hg : greedyAt ns k l r) :
    greedyAt (ns ++ [x]) k l r := by
  obtain ⟨hl, hr, hlt, hmin⟩ := hg
  have hl' : l.toNat < ns.length := by have := hl.1; omega
  have hr' : r.toNat < ns.length := by have := hr.1; omega
  refine ⟨(activeAt_append _ _ _ _ h).2 hl, (activeAt_append _ _ _ _ h).2 hr, ?_, ?_⟩
  · unfold nodeKeyLt at hlt ⊢
    rwa [freqOf_append _ _ _ hl', freqOf_append _ _ _ hr']
  · intro i hi h1 h2
    have hi' := (activeAt_append _ _ _ _ h).1 hi
    have := hmin i hi' h1 h2
    unfold nodeKeyLt at this ⊢
    rwa [freqOf_append _ _ _ hr', freqOf_append _ _ _ (by have := hi'.1; omega)]

/-- What R90's loop keeps, for `leaves` seeded: the leaves stand first; every further record is Internal, sound, and was the
greedy choice; the active set is the records no record has taken, with their frequencies; every other record has exactly one
parent; the active frequencies sum to the leaves'. -/
structure LoopInv (leaves ns : List Node) (act : List Active) : Prop where
  seeded : ns.take leaves.length = leaves
  enough : leaves.length ≤ ns.length
  count : ns.length + act.length = 2 * leaves.length
  nodup : (act.map Active.ix).Nodup
  freq : ∀ x ∈ act, x.ix < ns.length ∧ freqOf ns x.ix = x.freq.toNat
  untaken : ∀ i, activeAt ns ns.length i ↔ ∃ x ∈ act, x.ix = i
  sound : ∀ k, leaves.length ≤ k → k < ns.length → internalSound ns k = true
  greedy : ∀ k f l r, ns[k]? = some (.internal f l r) → leaves.length ≤ k → greedyAt ns k l r
  parent : ∀ c < ns.length, (∀ x ∈ act, x.ix ≠ c) → (List.range ns.length).countP (childOf ns · c) = 1
  sum : (act.map fun x => x.freq.toNat).sum = (leaves.map fun x => x.freq.toNat).sum

/-- The loop's start keeps it. -/
theorem loopInv_start (leaves : List Node) (hl : ∀ n ∈ leaves, ∃ b f, n = .leaf b f) :
    LoopInv leaves leaves (activeFrom 0 leaves) := by
  have nochild : ∀ k c, childOf leaves k c = false := by
    intro k c
    unfold childOf
    split
    · rename_i f l r h
      obtain ⟨b, g, e⟩ := hl _ (List.mem_of_getElem? h)
      cases e
    · rfl
  refine ⟨by simp, le_rfl, by rw [activeFrom_length]; omega, activeFrom_nodup 0 leaves, ?_, ?_, ?_, ?_, ?_, activeFrom_sum 0 leaves⟩
  · intro x hx
    obtain ⟨i, h, hi⟩ := (activeFrom_mem 0 leaves x).1 hx
    rw [Option.map_eq_some_iff] at h
    obtain ⟨n, hn, hf⟩ := h
    have : i < leaves.length := (List.getElem?_eq_some_iff.1 hn).1
    rw [hi, Nat.zero_add]
    exact ⟨this, by simp [freqOf, hn, hf]⟩
  · intro i
    constructor
    · rintro ⟨hi, _⟩
      exact ⟨⟨leaves[i].freq, i⟩, (activeFrom_mem 0 leaves _).2 ⟨i, by simp [hi], by simp⟩, rfl⟩
    · rintro ⟨x, hx, rfl⟩
      obtain ⟨i, h, hi⟩ := (activeFrom_mem 0 leaves x).1 hx
      rw [Option.map_eq_some_iff] at h
      obtain ⟨n, hn, hf⟩ := h
      have : i < leaves.length := (List.getElem?_eq_some_iff.1 hn).1
      exact ⟨by omega, fun j _ => nochild j _⟩
  · intro k h1 h2; omega
  · intro k f l r h _
    obtain ⟨b, g, e⟩ := hl _ (List.mem_of_getElem? h)
    cases e
  · intro c hc h
    exact absurd rfl (h ⟨leaves[c].freq, c⟩ ((activeFrom_mem 0 leaves _).2 ⟨c, by simp [hc], by simp⟩))

/-- One round keeps it, where the leaves' sum fits 64 bits and there are at most 256 of them. -/
theorem loopInv_round (leaves ns : List Node) (act rest rest' : List Active) (a b : Active)
    (hl : ∀ n ∈ leaves, ∃ b f, n = .leaf b f) (hn : leaves.length ≤ 256)
    (hsum : (leaves.map fun x => x.freq.toNat).sum < 2 ^ 64) (h : LoopInv leaves ns act)
    (ha : takeLeast act = some (a, rest)) (hb : takeLeast rest = some (b, rest')) :
    LoopInv leaves (ns ++ [.internal (a.freq + b.freq) (BitVec.ofNat 9 a.ix) (BitVec.ofNat 9 b.ix)])
      (rest' ++ [⟨a.freq + b.freq, ns.length⟩]) := by
  obtain ⟨ham, hrest, hamin⟩ := takeLeast_some act rest a ha
  obtain ⟨hbm, hrest', hbmin⟩ := takeLeast_some rest rest' b hb
  have hp : act.Perm (a :: b :: rest') := by
    rw [hrest']
    refine (List.perm_cons_erase ham).trans ?_
    rw [← hrest]
    exact (List.perm_cons_erase hbm).cons a
  have hnd : (a.ix :: b.ix :: rest'.map Active.ix).Nodup := by
    have := (hp.map Active.ix).nodup_iff.1 h.nodup
    simpa using this
  obtain ⟨haN, hbN⟩ := List.nodup_cons.1 hnd
  obtain ⟨hbN, hrN⟩ := List.nodup_cons.1 hbN
  have hab : a.ix ≠ b.ix := fun e => haN (by simp [e])
  have hlen : act.length = rest'.length + 2 := by simpa using hp.length_eq
  have hsumP : (act.map fun x => x.freq.toNat).sum
      = a.freq.toNat + (b.freq.toNat + (rest'.map fun x => x.freq.toNat).sum) := by
    simpa using (hp.map fun x : Active => x.freq.toNat).sum_eq
  have hadd : (a.freq + b.freq).toNat = a.freq.toNat + b.freq.toNat := by
    rw [BitVec.toNat_add]
    refine Nat.mod_eq_of_lt ?_
    have := h.sum
    omega
  have hbact : b ∈ act := hp.mem_iff.2 (by simp)
  have hact : ∀ x, x ∈ act ↔ x = a ∨ x = b ∨ x ∈ rest' := fun x => by rw [hp.mem_iff]; simp
  obtain ⟨haI, haF⟩ := h.freq a ham
  obtain ⟨hbI, hbF⟩ := h.freq b hbact
  have hsmall : ns.length < 512 := by have := h.count; omega
  have ha9 : (BitVec.ofNat 9 a.ix).toNat = a.ix := by simp; omega
  have hb9 : (BitVec.ofNat 9 b.ix).toNat = b.ix := by simp; omega
  -- the keys of `a`, `b` and the rest are in this order
  have hablt : nodeKeyLt ns a.ix b.ix := by
    have := hamin b hbact
    rw [keyLt_iff] at this
    unfold nodeKeyLt
    rw [haF, hbF]
    omega
  have hblt : ∀ x ∈ rest', nodeKeyLt ns b.ix x.ix := by
    intro x hx
    have hxr : x ∈ rest := by rw [hrest'] at hx; exact List.mem_of_mem_erase hx
    have := hbmin x hxr
    rw [keyLt_iff] at this
    have hxF := (h.freq x ((hact x).2 (.inr (.inr hx)))).2
    have hne : b.ix ≠ x.ix := fun e => hbN (List.mem_map.2 ⟨x, hx, e.symm⟩)
    unfold nodeKeyLt
    rw [hbF, hxF]
    omega
  refine ⟨?_, ?_, ?_, ?_, ?_, ?_, ?_, ?_, ?_, ?_⟩
  · rw [List.take_append_of_le_length h.enough]; exact h.seeded
  · have := h.enough; simp; omega
  · have := h.count; simp; omega
  · simp only [List.map_append, List.map_cons, List.map_nil]
    refine List.nodup_append.2 ⟨hrN, by simp, ?_⟩
    intro i hi j hj
    simp only [List.mem_singleton] at hj
    obtain ⟨x, hx, rfl⟩ := List.mem_map.1 hi
    have := (h.freq x ((hact x).2 (.inr (.inr hx)))).1
    omega
  · intro x hx
    simp only [List.mem_append, List.mem_singleton] at hx
    rcases hx with hx | rfl
    · obtain ⟨h1, h2⟩ := h.freq x ((hact x).2 (.inr (.inr hx)))
      refine ⟨by simp; omega, ?_⟩
      rw [freqOf_append _ _ _ h1]; exact h2
    · exact ⟨by simp, by simp [freqOf_last, Node.freq]⟩
  · intro i
    simp only [List.mem_append, List.mem_singleton, List.length_append, List.length_cons, List.length_nil]
    constructor
    · rintro ⟨hi, hno⟩
      by_cases hlast : i = ns.length
      · exact ⟨⟨a.freq + b.freq, ns.length⟩, .inr rfl, hlast.symm⟩
      · have hi' : i < ns.length := by omega
        have hlastno := hno ns.length (by omega)
        rw [childOf_last, ha9, hb9] at hlastno
        simp only [Bool.or_eq_false_iff, beq_eq_false_iff_ne] at hlastno
        obtain ⟨x, hx, rfl⟩ := (h.untaken i).1 ⟨hi', fun j hj => by
          rw [← childOf_append ns _ j i hj]; exact hno j (by omega)⟩
        rcases (hact x).1 hx with rfl | rfl | hx
        · exact absurd rfl hlastno.1
        · exact absurd rfl hlastno.2
        · exact ⟨x, .inl hx, rfl⟩
    · rintro ⟨x, hx | rfl, rfl⟩
      · have hxa := (hact x).2 (.inr (.inr hx))
        obtain ⟨h1, h2⟩ := (h.untaken x.ix).2 ⟨x, hxa, rfl⟩
        refine ⟨by omega, fun j hj => ?_⟩
        by_cases hjl : j = ns.length
        · subst hjl
          rw [childOf_last, ha9, hb9]
          simp only [Bool.or_eq_false_iff, beq_eq_false_iff_ne]
          exact ⟨fun e => haN (List.mem_cons_of_mem _ (List.mem_map.2 ⟨x, hx, e.symm⟩)),
            fun e => hbN (List.mem_map.2 ⟨x, hx, e.symm⟩)⟩
        · rw [childOf_append _ _ _ _ (by omega)]; exact h2 j (by omega)
      · refine ⟨by simp, fun j hj => ?_⟩
        by_cases hjl : j = ns.length
        · subst hjl
          rw [childOf_last, ha9, hb9]
          simp only [Bool.or_eq_false_iff, beq_eq_false_iff_ne]
          omega
        · have hj' : j < ns.length := by omega
          rw [childOf_append _ _ _ _ hj']
          by_cases hjn : leaves.length ≤ j
          · have := h.sound j hjn hj'
            unfold internalSound at this
            split at this
            · rename_i f l r hk
              simp only [Bool.and_eq_true, decide_eq_true_eq] at this
              simp only [childOf, hk, Bool.or_eq_false_iff, beq_eq_false_iff_ne]
              omega
            · simp at this
          · have hjs : ns[j]? = leaves[j]? := by
              rw [← h.seeded, List.getElem?_take_of_lt (by omega)]
            obtain ⟨c, g, e⟩ := hl leaves[j] (by simp)
            rw [List.getElem?_eq_getElem (l := leaves) (by omega), e] at hjs
            simp [childOf, hjs]
  · intro k h1 h2
    simp only [List.length_append, List.length_cons, List.length_nil] at h2
    by_cases hk : k = ns.length
    · subst hk
      have e : (ns ++ [Node.internal (a.freq + b.freq) (BitVec.ofNat 9 a.ix) (BitVec.ofNat 9 b.ix)])[ns.length]?
          = some (.internal (a.freq + b.freq) (BitVec.ofNat 9 a.ix) (BitVec.ofNat 9 b.ix)) := by simp
      unfold internalSound
      rw [e]
      simp only [Bool.and_eq_true, decide_eq_true_eq, beq_iff_eq, bne_iff_ne]
      rw [ha9, hb9, freqOf_append _ _ _ haI, freqOf_append _ _ _ hbI, haF, hbF]
      exact ⟨⟨⟨haI, hbI⟩, fun e => hab (by rw [← ha9, ← hb9, e])⟩, hadd⟩
    · exact internalSound_append _ _ _ (by omega) (h.sound k h1 (by omega))
  · intro k f l r hk hkn
    by_cases hkl : k < ns.length
    · rw [List.getElem?_append_left hkl] at hk
      exact greedyAt_append _ _ _ _ _ (by omega) (h.greedy k f l r hk hkn)
    · have : k = ns.length := by
        have := (List.getElem?_eq_some_iff.1 hk).1
        simp at this; omega
      subst this
      simp only [List.getElem?_append_right le_rfl, Nat.sub_self, List.getElem?_cons_zero, Option.some.injEq,
        Node.internal.injEq] at hk
      obtain ⟨_, rfl, rfl⟩ := hk
      refine greedyAt_append _ _ _ _ _ le_rfl ⟨?_, ?_, ?_, ?_⟩
      · rw [ha9]; exact (h.untaken _).2 ⟨a, ham, rfl⟩
      · rw [hb9]; exact (h.untaken _).2 ⟨b, hbact, rfl⟩
      · rw [ha9, hb9]; exact hablt
      · intro i hi h1 h2
        rw [ha9] at h1; rw [hb9] at h2 ⊢
        obtain ⟨x, hx, rfl⟩ := (h.untaken i).1 hi
        rcases (hact x).1 hx with rfl | rfl | hx
        · exact absurd rfl h1
        · exact absurd rfl h2
        · exact hblt x hx
  · intro c hc hne
    simp only [List.length_append, List.length_cons, List.length_nil] at hc ⊢
    have hcl : c < ns.length := by
      have := hne ⟨a.freq + b.freq, ns.length⟩ (by simp)
      simp at this; omega
    rw [List.range_succ, List.countP_append]
    have e : (List.range ns.length).countP (childOf (ns ++ [.internal (a.freq + b.freq) (BitVec.ofNat 9 a.ix)
        (BitVec.ofNat 9 b.ix)]) · c) = (List.range ns.length).countP (childOf ns · c) := by
      refine List.countP_congr fun j hj => ?_
      rw [childOf_append _ _ _ _ (List.mem_range.1 hj)]
    rw [e]
    simp only [List.countP_cons, List.countP_nil, childOf_last, ha9, hb9]
    by_cases hca : c = a.ix ∨ c = b.ix
    · have hz : (List.range ns.length).countP (childOf ns · c) = 0 := by
        rw [List.countP_eq_zero]
        intro j hj
        have hact' : ∃ x ∈ act, x.ix = c := by
          rcases hca with rfl | rfl
          · exact ⟨a, ham, rfl⟩
          · exact ⟨b, hbact, rfl⟩
        have := ((h.untaken c).2 hact').2 j (List.mem_range.1 hj)
        simp [this]
      rw [hz]
      rcases hca with rfl | rfl <;> simp
    · have : (a.ix == c || b.ix == c) = false := by
        simp only [Bool.or_eq_false_iff, beq_eq_false_iff_ne]
        omega
      simp only [this, Bool.false_eq_true, if_false, Nat.add_zero]
      refine h.parent c hcl fun x hx hxc => ?_
      rcases (hact x).1 hx with rfl | rfl | hx
      · exact hca (.inl hxc.symm)
      · exact hca (.inr hxc.symm)
      · exact hne x (by simp [hx]) hxc
  · have := h.sum
    simp only [List.map_append, List.map_cons, List.map_nil, List.sum_append, List.sum_cons, List.sum_nil]
    rw [hadd]
    omega

/-- R90's loop, with enough rounds: it keeps `LoopInv` and leaves one element active. -/
theorem combine_spec (leaves : List Node) (hl : ∀ n ∈ leaves, ∃ b f, n = .leaf b f) (hn : leaves.length ≤ 256)
    (hsum : (leaves.map fun x => x.freq.toNat).sum < 2 ^ 64) (fuel : Nat) (ns : List Node) (act : List Active)
    (h : LoopInv leaves ns act) (hf : act.length ≤ fuel) (hpos : act ≠ []) :
    ∃ r, (combine fuel ns act).2 = [r] ∧ LoopInv leaves (combine fuel ns act).1 [r] := by
  induction fuel generalizing ns act with
  | zero => exact absurd (List.eq_nil_of_length_eq_zero (by omega)) hpos
  | succ fuel ih =>
    simp only [combine]
    split
    · rename_i hn; exact absurd ((takeLeast_none act).1 hn) hpos
    · rename_i a rest ha
      obtain ⟨ham, hrest, _⟩ := takeLeast_some act rest a ha
      split
      · rename_i hr
        have : act = [a] := by
          have h0 : act.erase a = [] := by rw [← hrest]; exact (takeLeast_none rest).1 hr
          have := List.perm_cons_erase ham
          rw [h0] at this
          exact List.perm_singleton.1 this
        subst this
        exact ⟨a, rfl, h⟩
      · rename_i b rest' hb
        obtain ⟨hbm, hrest', _⟩ := takeLeast_some rest rest' b hb
        refine ih _ _ (loopInv_round leaves ns act rest rest' a b hl hn hsum h ha hb) ?_ (by simp)
        have h1 := List.length_erase_of_mem ham
        have h2 := List.length_erase_of_mem hbm
        have h3 := List.length_pos_of_mem ham
        have h4 := List.length_pos_of_mem hbm
        rw [← hrest] at h1
        rw [← hrest'] at h2
        simp only [List.length_append, List.length_cons, List.length_nil]
        omega

/-- Where SYMCNT and TOTAL agree with FREQ and a symbol is counted, the builder ends with one active record and everything the loop
keeps (R90). -/
theorem buildTree_spec (s : State) (h : CountersInv s) (h0 : s.symcnt ≠ 0) :
    ∃ r, (buildTree s).2 = [r] ∧ LoopInv (seedLeaves s) (buildTree s).1 [r] := by
  have hl : (seedLeaves s).length = s.symcnt.toNat := by rw [seedLeaves_length, h.symcnt_eq]
  have hs : ((seedLeaves s).map fun x => x.freq.toNat).sum = s.total.toNat := by rw [seedLeaves_sum, h.total_eq]
  have h256 : (seedLeaves s).length ≤ 256 := by
    rw [seedLeaves_length]; exact List.countP_le_length.trans (by simp [freqEntries, Config.symbols])
  refine combine_spec _ (seedLeaves_leaf s) h256 (by rw [hs]; exact s.total.isLt) _ _ _
    (loopInv_start _ (seedLeaves_leaf s)) (by rw [activeFrom_length]) fun e => h0 ?_
  have := activeFrom_length 0 (seedLeaves s)
  rw [e] at this
  exact BitVec.eq_of_toNat_eq (by simp at this; simp; omega)

end Sys2Proof.Machine
end

