-- ==== Sys2Proof/Laws/Unpacker.lean ====
section
/-! SUPPORT. The walk over payload bits, said once: which bits it consumes, which symbols it emits and where it stops
(44_unpacker.md rules R121, R123). -/

namespace Sys2Proof.Machine

/-- The symbols and the record where a walk ends are determined by the bits (R123). -/
theorem Decodes.unique {ns : List Node} {root c d d' : NodeIx} {bits : List Bool} {out out' : List Byte}
    (h : Decodes ns root c bits out d) (h' : Decodes ns root c bits out' d') : out' = out ∧ d' = d := by
  induction h generalizing out' with
  | stop c => cases h'; exact ⟨rfl, rfl⟩
  | inner c d b bits out n hn hi _ ih =>
    cases h' with
    | inner _ _ _ _ _ n' hn' _ hd' =>
      rw [hn] at hn'; cases hn'
      exact ih hd'
    | leaf _ _ _ _ _ n' sym f hn' hl' _ =>
      rw [hn] at hn'; cases hn'
      rw [isInternal, hl'] at hi; cases hi
  | leaf c d b bits out n sym f hn hl _ ih =>
    cases h' with
    | inner _ _ _ _ _ n' hn' hi' _ =>
      rw [hn] at hn'; cases hn'
      rw [isInternal, hl] at hi'; cases hi'
    | leaf _ _ _ _ _ n' sym' f' hn' hl' hd' =>
      rw [hn] at hn'; cases hn'
      rw [hl] at hl'; cases hl'
      obtain ⟨h1, h2⟩ := ih hd'
      exact ⟨by rw [h1], h2⟩

/-- Walks follow one another (R123). -/
theorem Decodes.append {ns : List Node} {root c d e : NodeIx} {bits bits' : List Bool} {out out' : List Byte}
    (h : Decodes ns root c bits out d) (h' : Decodes ns root d bits' out' e) :
    Decodes ns root c (bits ++ bits') (out ++ out') e := by
  induction h with
  | stop c => exact h'
  | inner c d b bits out n hn hi _ ih => exact .inner _ _ _ _ _ n hn hi (ih h')
  | leaf c d b bits out n sym f hn hl _ ih => exact .leaf _ _ _ _ _ n sym f hn hl (ih h')

/-- One bit of the walk (R121). -/
theorem decodeBit_spec (b : Bool) (s t : State) (out : List Byte) (h : decodeBit b s = .ok (t, out))
    (he : s.emitted.toNat < s.origlen.toNat) (hc : s.consumed.toNat < s.bitlimit.toNat) :
    t = { s with consumed := t.consumed, emitted := t.emitted, cursor := t.cursor } ∧
    Decodes s.nodes s.root s.cursor [b] out t.cursor ∧
    t.consumed.toNat = s.consumed.toNat + 1 ∧ t.emitted.toNat = s.emitted.toNat + out.length ∧ out.length ≤ 1 ∧
    (t.cursor = s.root ∨ isInternal s.nodes t.cursor.toNat = true) := by
  have he' := s.origlen.isLt
  have hc' := s.bitlimit.isLt
  unfold decodeBit at h
  split at h
  · cases h
  · rename_i n hn
    split at h
    · cases h
    · rename_i sym f hl
      cases h
      refine ⟨rfl, .leaf _ _ _ _ _ n sym f hn hl (.stop _), ?_, ?_, Nat.le_refl _, .inl rfl⟩
      · simp [BitVec.toNat_add]; omega
      · simp [BitVec.toNat_add]; omega
    · rename_i f l r hi
      have hi : isInternal s.nodes (n.child b).toNat = true := by
        unfold nodeAt at hi; simp [isInternal, hi]
      cases h
      refine ⟨rfl, .inner _ _ _ _ _ n hn hi (.stop _), ?_, rfl, Nat.zero_le _, .inr hi⟩
      simp [BitVec.toNat_add]; omega

/-- Not stopped, within the limits: both are still ahead. -/
theorem lt_of_not_stopped (s : State) (h : stopped s = false) (he : s.emitted.toNat ≤ s.origlen.toNat)
    (hc : s.consumed.toNat ≤ s.bitlimit.toNat) :
    s.emitted.toNat < s.origlen.toNat ∧ s.consumed.toNat < s.bitlimit.toNat := by
  simp only [stopped, Bool.or_eq_false_iff, beq_eq_false_iff_ne, ne_eq, ← BitVec.toNat_inj] at h
  omega

/-- The walk over a list of bits: it consumes the first `n` of them, the stop condition holds before none of those, and it holds
at the end if bits are left (R121). -/
theorem decodeBits_spec (bits : List Bool) (s t : State) (out : List Byte) (h : decodeBits bits s = .ok (t, out))
    (he : s.emitted.toNat ≤ s.origlen.toNat) (hc : s.consumed.toNat ≤ s.bitlimit.toNat) :
    ∃ n ≤ bits.length, Decodes s.nodes s.root s.cursor (bits.take n) out t.cursor ∧
      t.consumed.toNat = s.consumed.toNat + n ∧ t.emitted.toNat = s.emitted.toNat + out.length ∧
      t.consumed.toNat ≤ s.bitlimit.toNat ∧ t.emitted.toNat ≤ s.origlen.toNat ∧
      (n = bits.length ∨ stopped t = true) ∧
      (n = 0 ∧ t.cursor = s.cursor ∨ t.cursor = s.root ∨ isInternal s.nodes t.cursor.toNat = true) ∧
      ∀ k < n, ∀ out' d, Decodes s.nodes s.root s.cursor (bits.take k) out' d →
        s.emitted.toNat + out'.length < s.origlen.toNat ∧ s.consumed.toNat + k < s.bitlimit.toNat := by
  induction bits generalizing s out with
  | nil =>
    cases h
    exact ⟨0, Nat.le_refl _, .stop _, rfl, rfl, hc, he, .inl rfl, .inl ⟨rfl, rfl⟩, fun k hk => absurd hk (Nat.not_lt_zero k)⟩
  | cons b bits ih =>
    simp only [decodeBits] at h
    split at h
    · rename_i hs
      cases h
      exact ⟨0, Nat.zero_le _, .stop _, rfl, rfl, hc, he, .inr hs, .inl ⟨rfl, rfl⟩, fun k hk => absurd hk (Nat.not_lt_zero k)⟩
    · rename_i hs
      obtain ⟨he', hc'⟩ := lt_of_not_stopped s (by simpa using hs) he hc
      split at h
      · cases h
      · rename_i s' o hd
        obtain ⟨hfr, hdec, hcon, hem, hone, hcur⟩ := decodeBit_spec b s s' o hd he' hc'
        split at h
        · cases h
        · rename_i u o' hb
          cases h
          have hno : s'.nodes = s.nodes := by rw [hfr]
          have hro : s'.root = s.root := by rw [hfr]
          have hor : s'.origlen = s.origlen := by rw [hfr]
          have hbl : s'.bitlimit = s.bitlimit := by rw [hfr]
          obtain ⟨n, hn, h1, h2, h3, h4, h5, h6, h7, h8⟩ := ih s' o' hb (by rw [hor]; omega) (by rw [hbl]; omega)
          rw [hno, hro] at h1 h8
          rw [hbl] at h4 h8
          rw [hor] at h5 h8
          rw [hno, hro] at h7
          refine ⟨n + 1, by simp; omega, ?_, by omega, by rw [List.length_append]; omega, h4, h5, ?_, .inr ?_, ?_⟩
          · exact hdec.append h1
          · rcases h6 with h6 | h6
            · exact .inl (by simp [h6])
            · exact .inr h6
          · rcases h7 with ⟨_, h7⟩ | h7
            · rw [h7]; exact hcur
            · exact h7
          · intro k hk out' d hd'
            cases k with
            | zero => cases hd'; exact ⟨he', hc'⟩
            | succ k =>
              have key : ∃ o2, out' = o ++ o2 ∧ Decodes s.nodes s.root s'.cursor (bits.take k) o2 d := by
                rw [List.take_succ_cons] at hd'
                cases hd' with
                | inner _ _ _ _ _ n2 hn2 hi2 hd2 =>
                  obtain ⟨ho, hcu⟩ := Decodes.unique (.inner _ _ _ _ _ n2 hn2 hi2 (.stop _)) hdec
                  exact ⟨out', by rw [ho]; rfl, by rw [hcu]; exact hd2⟩
                | leaf _ _ _ _ o2 n2 sym f hn2 hl2 hd2 =>
                  obtain ⟨ho, hcu⟩ := Decodes.unique (.leaf _ _ _ _ _ n2 sym f hn2 hl2 (.stop _)) hdec
                  exact ⟨o2, by rw [ho]; rfl, by rw [hcu]; exact hd2⟩
              obtain ⟨o2, ho2, hd2⟩ := key
              have := h8 k (by omega) o2 d hd2
              rw [ho2, List.length_append]
              omega

/-- On an arena in which every Internal record's children are records below it, the walk from an Internal record, with an Internal
root, never stops the machine (R20, R121). -/
theorem decodeBits_ok (bits : List Bool) (s : State)
    (hs : ∀ (k : Nat) (f : Word64) (l r : NodeIx), s.nodes[k]? = some (Node.internal f l r) → l.toNat < s.nodes.length ∧ r.toNat < s.nodes.length)
    (hr : isInternal s.nodes s.root.toNat = true) (hc : isInternal s.nodes s.cursor.toNat = true) :
    ∃ t out, decodeBits bits s = .ok (t, out) := by
  induction bits generalizing s with
  | nil => exact ⟨_, _, rfl⟩
  | cons b bits ih =>
    simp only [decodeBits]
    split
    · exact ⟨_, _, rfl⟩
    · obtain ⟨f, l, r, hn⟩ : ∃ f l r, s.nodes[s.cursor.toNat]? = some (.internal f l r) := by
        unfold isInternal at hc
        split at hc
        · exact ⟨_, _, _, by assumption⟩
        · cases hc
      obtain ⟨hl, hr'⟩ := hs _ f l r hn
      have hch : ((Node.internal f l r).child b).toNat < s.nodes.length := by cases b <;> assumption
      have hx := List.getElem?_eq_getElem hch
      have hbit : ∃ u o, decodeBit b s = .ok (u, o) ∧ u.nodes = s.nodes ∧ u.root = s.root ∧
          (u.cursor = s.root ∨ isInternal s.nodes u.cursor.toNat = true) := by
        unfold decodeBit nodeAt
        rw [hn]
        simp only [hx]
        cases hm : s.nodes[((Node.internal f l r).child b).toNat] with
        | leaf sym g => exact ⟨_, _, rfl, rfl, rfl, .inl rfl⟩
        | internal g l' r' => exact ⟨_, _, rfl, rfl, rfl, .inr (by simp [isInternal, hx, hm])⟩
      obtain ⟨u, o, hu, hun, hur, huc⟩ := hbit
      obtain ⟨t, o', ht⟩ := ih u (by rw [hun]; exact hs) (by rw [hun, hur]; exact hr)
        (by rw [hun]; rcases huc with h | h
            · rw [h]; exact hr
            · exact h)
      exact ⟨t, o ++ o', by rw [hu]; simp only [ht]⟩

end Sys2Proof.Machine
end

