-- ==== Sys2Proof/Machine/Assembler.lean ====
section
/-! DEFINITION. The text form of commands and the pseudo-commands: 30_encoding.md rules R69 and R74. Text around the machine;
the step uses none of it (log 16). -/

namespace Sys2Proof.Machine

/-- The scalar registers' names by number (10_state.md rule R24). -/
def registerNames : List String :=
  ["STATUS", "FINFO", "TOTAL", "SYMCNT", "NNODES", "ROOT", "ORIGLEN"] ++
  ["BITLIMIT", "TOTALBITS", "PACK", "EMITTED", "CONSUMED", "CURSOR", "FIMM"]

/-- A register operand: its name, or its number where there is no such register (R69). -/
def registerText (r : Byte) : String := (registerNames[r.toNat]?).getD (toString r.toNat)

/-- One line of text: the mnemonic, then the `sym` operand, then the `imm` operand, in decimal (R69). -/
def commandText (i : Instr) : String :=
  match i with
  | .rdreg r => i.mnemonic ++ " " ++ registerText r
  | .wrreg r v => i.mnemonic ++ " " ++ registerText r ++ ", " ++ toString v.toNat
  | .acc b => i.mnemonic ++ " " ++ toString b.toNat
  | .ldf b f => i.mnemonic ++ " " ++ toString b.toNat ++ ", " ++ toString f.toNat
  | .rdf b => i.mnemonic ++ " " ++ toString b.toNat
  | .rdnf n => i.mnemonic ++ " " ++ toString n.toNat
  | .rdnl n => i.mnemonic ++ " " ++ toString n.toNat
  | .rdcl b => i.mnemonic ++ " " ++ toString b.toNat
  | .rdcb b j => i.mnemonic ++ " " ++ toString b.toNat ++ ", " ++ toString j.toNat
  | .enc b => i.mnemonic ++ " " ++ toString b.toNat
  | .dec b => i.mnemonic ++ " " ++ toString b.toNat
  | .nop => i.mnemonic
  | .clr => i.mnemonic
  | .build => i.mnemonic
  | .gen => i.mnemonic
  | .flush => i.mnemonic
  | .decbeg => i.mnemonic
  | .decend => i.mnemonic

/-- The word of a line as 20 hexadecimal digits, `op` first (R69). -/
def hexDigits (w : CmdWord) : List Char :=
  (List.range 20).map fun k => Nat.digitChar ((w >>> (4 * (19 - k))).toNat % 16)

/-- `RDST` (R74). -/
def rdst : Instr := .rdreg 0

/-- `SETLEN v` (R74). -/
def setlen (v : Word64) : Instr := .wrreg 6 v

/-- `SETBITS v` (R74). -/
def setbits (v : Word64) : Instr := .wrreg 7 v

/-- `RDTB` (R74). -/
def rdtb : Instr := .rdreg 8

end Sys2Proof.Machine
end

