-- ==== Sys2Proof/Tests/Slice0.lean ====
section
/-! SUPPORT. The model's own tests: the ill-formed commands refused, words written out from 30_encoding.md rule R63, one step per
command against 95_test_vectors.md, and for every statement with hypotheses a state and operands that meet them. -/

namespace Sys2Proof.Tests

open Sys2Proof.Machine

/-- One field of the state a command answers, `none` if it stops. -/
def after {α : Type} (f : State → α) : Result → Option α
  | .next t => some (f t)
  | .fault _ => none
  | .refused _ => none

/-- FREQ of "ABACABA" (95_test_vectors.md vector T0). -/
def counted : State := { State.reset with freq := [(0x41, 4), (0x42, 2), (0x43, 1)], symcnt := 3, total := 7 }

/-- Its tree (vector T0). -/
def tree : List Node := [.leaf 0x41 4, .leaf 0x42 2, .leaf 0x43 1, .internal 3 2 1, .internal 7 3 0]

def built : State := { counted with nodes := tree, root := 4, nnodes := 5, phase := .built }

/-- Its codes (vector K0). -/
def codes : List (Nat × List Bool) := [(0x41, [true]), (0x42, [false, true]), (0x43, [false, false])]

def coded : State := { built with code := codes, codev := true, phase := .coded }

/-- The unpacker armed as in program P2. -/
def armed : State := { built with origlen := 7, bitlimit := 10, cursor := 4, phase := .decode }

/-- The end of program P2's payload. -/
def drained : State := { armed with emitted := 7, consumed := 10 }

/-- "AAAA" (program P3). -/
def single : State := { State.reset with freq := [(0x41, 4)], symcnt := 1, total := 4 }

def singleBuilt : State := { single with nodes := [.leaf 0x41 4], nnodes := 1, phase := .built }

def singleArmed : State := { singleBuilt with origlen := 4, bitlimit := 4, phase := .decode }

/-- TOTAL at its top (vector F2). -/
def full : State := { State.reset with freq := [(0, 0xFFFFFFFFFFFFFFFF)], symcnt := 1, total := 0xFFFFFFFFFFFFFFFF }

/-- TOTAL one below its top (vector F1). -/
def nearlyFull : State := { State.reset with freq := [(0, 0xFFFFFFFFFFFFFFFE)], symcnt := 1, total := 0xFFFFFFFFFFFFFFFE }

/-- After Fault(SEQUENCE) of an ACC in BUILT (vector S9). -/
def faulted : State := { built with fault := some .sequence, finfo := 0x4110 }

/-! ### Well-formedness and words -/

theorem test_rdreg_14_ill_formed : (Instr.rdreg 14).wellFormed = false := by decide
theorem test_wrreg_2_ill_formed : (Instr.wrreg 2 5).wellFormed = false := by decide
theorem test_wrreg_8_ill_formed : (Instr.wrreg 8 0).wellFormed = false := by decide
theorem test_rdreg_13_well_formed : (Instr.rdreg 13).wellFormed = true := by decide

/-! One word per command, op sym imm as rule R63 prints the row. -/

theorem test_word_nop : decode 0x00000000000000000000 = .ok .nop := by decide
theorem test_word_clr : decode 0x01000000000000000000 = .ok .clr := by decide
theorem test_word_rdreg : decode 0x020D0000000000000000 = .ok (.rdreg 13) := by decide
theorem test_word_wrreg : decode 0x03060123456789ABCDEF = .ok (.wrreg 6 0x0123456789ABCDEF) := by decide
theorem test_word_acc : decode 0x10FF0000000000000000 = .ok (.acc 0xFF) := by decide
theorem test_word_ldf : decode 0x115B68A3DD8E61ECCFBD = .ok (.ldf 0x5B 0x68A3DD8E61ECCFBD) := by decide
theorem test_word_rdf : decode 0x12410000000000000000 = .ok (.rdf 0x41) := by decide
theorem test_word_build : decode 0x20000000000000000000 = .ok .build := by decide
theorem test_word_rdnf : decode 0x210000000000000001FF = .ok (.rdnf 511) := by decide
theorem test_word_rdnl : decode 0x22000000000000000100 = .ok (.rdnl 256) := by decide
theorem test_word_gen : decode 0x30000000000000000000 = .ok .gen := by decide
theorem test_word_rdcl : decode 0x31410000000000000000 = .ok (.rdcl 0x41) := by decide
theorem test_word_rdcb : decode 0x32010000000000000003 = .ok (.rdcb 1 3) := by decide
theorem test_word_enc : decode 0x40650000000000000000 = .ok (.enc 0x65) := by decide
theorem test_word_flush : decode 0x41000000000000000000 = .ok .flush := by decide
theorem test_word_decbeg : decode 0x50000000000000000000 = .ok .decbeg := by decide
theorem test_word_dec : decode 0x51B20000000000000000 = .ok (.dec 0xB2) := by decide
theorem test_word_decend : decode 0x52000000000000000000 = .ok .decend := by decide

/-! Illegal words of vectors S1, S3, T4c, K2. -/

theorem test_illegal_nop_sym : decode 0x00010000000000000000 = .error (.nonzeroField 0) := by decide
theorem test_illegal_acc_imm : decode 0x10410000000000000001 = .error (.nonzeroField 0x10) := by decide
theorem test_illegal_rdnf_512 : decode 0x21000000000000000200 = .error (.nonzeroField 0x21) := by decide
theorem test_illegal_rdcb_4 : decode 0x32010000000000000004 = .error (.nonzeroField 0x32) := by decide
theorem test_illegal_reserved : decode 0xFF000000000000000000 = .error (.reservedOpcode 0xFF) := by decide
theorem test_illegal_rdreg_14 : decode 0x020E0000000000000000 = .error (.badRegister 14) := by decide

theorem test_table_word : decodeTableWord 80 0x10410000000000000000 = some (.acc 0x41) := by decide
theorem test_mnemonics_distinct : (opcodeTable.map OpcodeRow.mnemonic).Nodup := by decide

/-! ### One step per command -/

/-- program P4's last lines: NOP in the faulted state -/
theorem test_nop_faulted : after State.sent (exec .nop faulted) = some [.response ⟨none, 0⟩] := by decide
/-- R131: CLR leaves the faulted state -/
theorem test_clr_faulted : after State.fault (exec .clr faulted) = some none := by decide
/-- vector S9: STATUS reads 0x21 -/
theorem test_rdreg_status : after State.sent (exec (.rdreg 0) faulted) = some [.response ⟨none, 0x21⟩] := by decide
/-- vector S1: FINFO 0x0E02 -/
theorem test_rdreg_14 : after State.finfo (exec (.rdreg 14) State.reset) = some 0x0E02 := by decide
/-- vector S5 -/
theorem test_wrreg_origlen : after State.origlen (exec (.wrreg 6 0xFFFFFFFFFFFFFFFF) State.reset)
    = some 0xFFFFFFFFFFFFFFFF := by decide
/-- vector U5: the limits are locked in DECODE -/
theorem test_wrreg_decode : after State.fault (exec (.wrreg 7 11) armed) = some (some .sequence) := by decide
/-- vector F0 -/
theorem test_acc_counts : after State.freq (exec (.acc 0x42) counted) = some [(0x41, 4), (0x42, 3), (0x43, 1)] := by decide
/-- vector F2b -/
theorem test_acc_overflow : after State.fault (exec (.acc 0) full) = some (some .overflow) := by decide
/-- vector F3 -/
theorem test_ldf_zero : after State.fault (exec (.ldf 0x41 0) State.reset) = some (some .format) := by decide
/-- vector F4: FIMM keeps the faulting frequency -/
theorem test_ldf_twice : after State.fimm (exec (.ldf 0x41 9) counted) = some 9 := by decide
/-- R82's example -/
theorem test_rdf : after State.sent (exec (.rdf 0x44) counted) = some [.response ⟨none, 0⟩] := by decide
/-- vector T0 -/
theorem test_build_tree : after State.nodes (exec .build counted) = some tree := by decide +kernel
/-- vector T1 -/
theorem test_build_empty : after State.fault (exec .build State.reset) = some (some .empty) := by decide
/-- R91's example -/
theorem test_rdnf_root : after State.sent (exec (.rdnf 4) built) = some [.response ⟨none, 7⟩] := by decide
/-- vector T4b's shape: index 511 is RANGE -/
theorem test_rdnf_511 : after State.fault (exec (.rdnf 511) built) = some (some .range) := by decide
/-- R92's examples -/
theorem test_rdnl_internal : after State.sent (exec (.rdnl 3) built) = some [.response ⟨none, 0x4000202⟩] := by decide
theorem test_rdnl_leaf : after State.sent (exec (.rdnl 0) built) = some [.response ⟨none, 0x1040000⟩] := by decide
/-- vector K0 -/
theorem test_gen_codes : after State.code (exec .gen built) = some codes := by decide +kernel
/-- vector K4: the single symbol's code is "0" -/
theorem test_gen_single : after State.code (exec .gen singleBuilt) = some [(0x41, [false])] := by decide
/-- vector K0 -/
theorem test_rdcl : after State.sent (exec (.rdcl 0x43) coded) = some [.response ⟨none, 2⟩] := by decide
theorem test_rdcb : after State.sent (exec (.rdcb 0x42 0) coded) = some [.response ⟨none, 0x4000000000000000⟩] := by
  decide +kernel
/-- R110's example: the sixth ENC fills the byte -/
theorem test_enc_emits : after State.sent (exec (.enc 0x42) { coded with acc := 0xB2, nbits := 7, totalbits := 7 })
    = some [.byte 0xB2, .response ⟨none, 1⟩] := by decide
/-- vector PK7: the counter's top -/
theorem test_enc_overflow : after State.fault (exec (.enc 0x41) { coded with totalbits := 0xFFFFFFFFFFFFFFFF })
    = some (some .overflow) := by decide
/-- R111's example -/
theorem test_flush : after State.sent (exec .flush { coded with acc := 0xC0, nbits := 2, totalbits := 10 })
    = some [.byte 0xC0, .response ⟨none, 1⟩] := by decide
/-- R120's example, and vector U3 -/
theorem test_decbeg : after State.cursor (exec .decbeg { built with origlen := 7, bitlimit := 10 }) = some 4 := by decide
theorem test_decbeg_format : after State.fault (exec .decbeg { built with origlen := 8 }) = some (some .format) := by decide
/-- R121's example -/
theorem test_dec_walk : after outStream (exec (.dec 0xB2) armed) = some [0x41, 0x42, 0x41, 0x43, 0x41] := by decide +kernel
/-- program P3c: a 1 bit in a single-symbol payload -/
theorem test_dec_single_one_bit : after State.fault (exec (.dec 0x10) singleArmed) = some (some .integrity) := by decide
/-- R122's examples -/
theorem test_decend : after State.sent (exec .decend drained) = some [.response ⟨none, 7⟩] := by decide
theorem test_decend_integrity : after State.fault (exec .decend { armed with emitted := 5, consumed := 8 })
    = some (some .integrity) := by decide

/-- vector S2's first line on the response port: err 1, cause 1 -/
theorem test_response_word : (Response.word ⟨some .illegal, 0⟩) = 0x810000000000000000 := by decide
/-- R141's codes, ILLEGAL to RANGE -/
theorem test_cause_codes : [Cause.illegal, .sequence, .empty, .overflow, .format, .nocode, .integrity, .range].map
    (fun c => (causeBits (some c)).toNat) = [1, 2, 3, 4, 5, 6, 7, 8] := by decide
/-- R12's codes, COUNT to DONE -/
theorem test_phase_codes : [Phase.count, .built, .coded, .decode, .done].map (fun p => p.bits.toNat) = [0, 1, 2, 3, 4] := by
  decide
/-- vector U1: STATUS 0x73 -/
theorem test_status_word : statusWord { armed with fault := some .integrity } = 0x73 := by decide
/-- R74 -/
theorem test_pseudo_setbits : encode (setbits 10) = 0x0307000000000000000A := by decide
/-- R53: 256 symbols are the bytes 00 01 -/
theorem test_symbol_count_bytes : leBytes 2 256 = [0x00, 0x01] := by decide
/-- vector V2c: the shortest container, 32 bytes -/
theorem test_container_bytes : containerBytes Config.defaultMagic ⟨4, [(0x41, 4)], [0x00], 4⟩ =
    [0x48, 0x55, 0x42, 0x31] ++ [4, 0, 0, 0, 0, 0, 0, 0] ++ [1, 0] ++ [0x41, 4, 0, 0, 0, 0, 0, 0, 0] ++ [0] ++
      [4, 0, 0, 0, 0, 0, 0, 0] := by decide
/-- Part 8: a changed magic byte is a Format error -/
theorem test_container_magic : readContainer Config.defaultMagic
    (containerBytes [0x49, 0x55, 0x42, 0x31] ⟨4, [(0x41, 4)], [0x00], 4⟩) = .error .badMagic := by decide

end Sys2Proof.Tests
end

