-- ==== Sys2Proof/Tests/Witnesses.lean ====
section
/-! SUPPORT. For every statement of Sys2Proof/Certificates/Slice0/Obligations.lean that has hypotheses, a concrete state and
operands that meet them, clause by clause where it has several, at a boundary value where the clause has one. -/

namespace Sys2Proof.Tests

open Sys2Proof.Machine

/-! ### The invariants hold of the states used here -/

theorem counted_counters : CountersInv counted := ⟨by decide, by decide +kernel, by decide +kernel⟩
theorem built_counters : CountersInv built := ⟨by decide, by decide +kernel, by decide +kernel⟩
theorem coded_counters : CountersInv coded := ⟨by decide, by decide +kernel, by decide +kernel⟩
theorem armed_counters : CountersInv armed := ⟨by decide, by decide +kernel, by decide +kernel⟩
theorem single_counters : CountersInv single := ⟨by decide, by decide +kernel, by decide +kernel⟩
theorem nearlyFull_counters : CountersInv nearlyFull := ⟨by decide, by decide +kernel, by decide +kernel⟩

theorem built_shape : TreeShape built :=
  ⟨by decide, by decide, by decide, by decide, by decide, by decide, by decide +kernel, by decide +kernel, by decide +kernel,
    by decide⟩

theorem coded_shape : TreeShape coded :=
  ⟨by decide, by decide, by decide, by decide, by decide, by decide, by decide +kernel, by decide +kernel, by decide +kernel,
    by decide⟩

theorem armed_shape : TreeShape armed :=
  ⟨by decide, by decide, by decide, by decide, by decide, by decide, by decide +kernel, by decide +kernel, by decide +kernel,
    by decide⟩

theorem singleArmed_shape : TreeShape singleArmed :=
  ⟨by decide, by decide, by decide, by decide, by decide, by decide, by decide +kernel, by decide +kernel, by decide +kernel,
    by decide⟩

theorem counted_tree : TreeInv counted := ⟨fun h => absurd rfl h, fun _ => by decide⟩
theorem built_tree : TreeInv built := ⟨fun _ => built_shape, fun h => by cases h⟩
theorem coded_tree : TreeInv coded := ⟨fun _ => coded_shape, fun h => by cases h⟩
theorem armed_tree : TreeInv armed := ⟨fun _ => armed_shape, fun h => by cases h⟩
theorem singleArmed_tree : TreeInv singleArmed := ⟨fun _ => singleArmed_shape, fun h => by cases h⟩

theorem counted_codev : CodevInv counted := ⟨fun _ => rfl, fun h => by cases h⟩
theorem built_codev : CodevInv built := ⟨fun _ => rfl, fun h => by cases h⟩
theorem coded_codev : CodevInv coded := ⟨fun h => by (rcases h with h | h <;> cases h), fun _ => rfl⟩
theorem armed_codev : CodevInv armed := ⟨fun _ => rfl, fun h => by cases h⟩

theorem uncoded_codes (s : State) (h : s.code = []) (hv : s.codev = false) : CodesInv s :=
  ⟨by rw [h]; exact tableWf_nil _ _, by simp [hv], by simp [hv], by simp [hv]⟩

/-- Which symbols of "ABACABA" have codes. -/
theorem coded_codeAt (b : Byte) : codeAt coded b =
    if b = 0x41 then [true] else if b = 0x42 then [false, true] else if b = 0x43 then [false, false] else [] := by
  revert b; decide +kernel

theorem coded_codes : CodesInv coded := by
  refine ⟨by decide, fun _ => by decide +kernel, fun _ a b hab ha hb => ?_, fun _ b => ?_⟩
  · rw [coded_codeAt] at ha hb ⊢
    rw [coded_codeAt]
    split at ha <;> split at hb <;> simp_all
    all_goals first
      | (split at hb <;> simp_all)
      | (split at ha <;> simp_all)
  · rw [coded_codeAt]; split <;> (try split) <;> (try split) <;> simp [Config.maxCodeLength]

theorem coded_packer : PackerInv coded := ⟨fun _ => by decide, fun _ => by unfold unfilledZero; decide⟩
theorem armed_decoder : DecoderInv armed :=
  ⟨fun _ => by decide, fun _ => by decide, fun _ => by decide, fun _ => .inl rfl⟩
theorem singleArmed_decoder : DecoderInv singleArmed :=
  ⟨fun _ => by decide, fun _ => by decide, fun _ => by decide, fun _ => .inl rfl⟩

theorem armed_codes : CodesInv armed := uncoded_codes armed rfl rfl

theorem armed_invariant : Invariant armed :=
  ⟨armed_counters, armed_tree, armed_codev, armed_codes, ⟨nofun, nofun⟩, armed_decoder⟩

/-! ### Small helpers -/

/-- A word waiting at the command port. -/
def presenting (s : State) (w : CmdWord) : State := { s with pending := [.command w] }

/-- The command answers a next state. -/
def answers (r : Result) : Bool := (after (fun _ => ()) r).isSome

theorem answers_next {r : Result} (h : answers r = true) : ∃ t, r = .next t := by
  cases r with
  | next t => exact ⟨t, rfl⟩
  | fault _ => cases h
  | refused _ => cases h

/-- The state a command answers, the state itself where it stops. -/
def resultOf (r : Result) (s : State) : State :=
  match r with
  | .next t => t
  | .fault _ => s
  | .refused _ => s

theorem resultOf_next {r : Result} (s : State) (h : answers r = true) : r = .next (resultOf r s) := by
  cases r with
  | next t => rfl
  | fault _ => cases h
  | refused _ => cases h

/-- A state keeps its counters when only other fields differ. -/
theorem counters_presenting {s : State} (w : CmdWord) (h : CountersInv s) : CountersInv (presenting s w) :=
  ⟨h.canonical, h.symcnt_eq, h.total_eq⟩

theorem shape_presenting {s : State} (w : CmdWord) (h : TreeShape s) : TreeShape (presenting s w) :=
  ⟨h.present, h.nnodes_eq, h.root_eq, h.records, h.leaves, h.ascending, h.counted, h.internals, h.oneParent, h.rootFreq⟩

theorem tree_presenting {s : State} (w : CmdWord) (h : TreeInv s) : TreeInv (presenting s w) :=
  ⟨fun hp => shape_presenting w (h.built hp), h.unbuilt⟩

theorem codev_presenting {s : State} (w : CmdWord) (h : CodevInv s) : CodevInv (presenting s w) := ⟨h.early, h.coded⟩

theorem codes_presenting {s : State} (w : CmdWord) (h : CodesInv s) : CodesInv (presenting s w) :=
  ⟨h.canonical, h.present, h.unambiguous, h.bounded⟩

theorem packer_presenting {s : State} (w : CmdWord) (h : PackerInv s) : PackerInv (presenting s w) :=
  ⟨h.nbits_eq, h.unfilled⟩

theorem decoder_presenting {s : State} (w : CmdWord) (h : DecoderInv s) : DecoderInv (presenting s w) :=
  ⟨h.emitted_le, h.consumed_le, h.length_eq, h.cursor_ok⟩

theorem invariant_presenting {s : State} (w : CmdWord) (h : Invariant s) : Invariant (presenting s w) :=
  ⟨counters_presenting w h.counters, tree_presenting w h.tree, codev_presenting w h.codev, codes_presenting w h.codes,
    packer_presenting w h.packer, decoder_presenting w h.decoder⟩

/-! ### Encoding -/

theorem witness_DecodeEncodeRoundTrip : (Instr.rdreg 13).wellFormed = true ∧ (Instr.wrreg 7 10).wellFormed = true := by decide

theorem witness_DecodedWordIsTheEncoding : decode 0x22000000000000000200 = .error (.nonzeroField 0x22) ∧
    decode 0x220000000000000001FF = .ok (.rdnl 511) := by decide

theorem witness_DecodeFollowsOpcodeTable : decode 0x32FF0000000000000003 = .ok (.rdcb 0xFF 3) ∧
    ∃ row ∈ opcodeTable, row.selects 0x32FF0000000000000003 = true := by decide

/-! ### Step and dispatch -/

theorem witness_StepRunsDecodedCommand :
    (presenting counted 0x20000000000000000000).pending = .command 0x20000000000000000000 :: [] ∧
    decode 0x20000000000000000000 = .ok .build := by decide

theorem witness_IllegalWordRaisesIllegal :
    (presenting State.reset 0x20010000000000000000).pending = .command 0x20010000000000000000 :: [] ∧
    decode 0x20010000000000000000 = .error (.nonzeroField 0x20) ∧
    (presenting State.reset 0x20010000000000000000).fault = none ∧
    (presenting faulted 0x20010000000000000000).fault = some .sequence := by decide

theorem witness_IdleAndResetSteps_idle : built.pending = [] := by decide
theorem witness_IdleAndResetSteps_reset :
    ({ faulted with pending := [.reset] } : State).pending = .reset :: [] ∧
    answers (exec .clr { faulted with pending := [.reset] }) = true := by decide

theorem witness_CommandsRunInOrder : (∀ i ∈ [Instr.acc 0x41, .build], i.wellFormed = true) ∧ State.reset.pending = [] ∧
    ∃ t, runCommands [.acc 0x41, .build] State.reset = .next t :=
  ⟨by decide, by decide, answers_next (by decide +kernel)⟩

theorem witness_FaultedBlockRefuses : faulted.fault = some .sequence ∧ runsFaulted (.dec 0xFF) = false := by decide

theorem witness_FaultedStateIsQuiescent : (presenting faulted (encode (.acc 0x41))).fault ≠ none ∧
    (∃ t, step (presenting faulted (encode (.acc 0x41))) = .next t) ∧
    (∀ rest, (presenting faulted (encode (.acc 0x41))).pending ≠ .reset :: rest) ∧
    (∀ rest, (presenting faulted (encode (.acc 0x41))).pending ≠ .command (encode .clr) :: rest) :=
  ⟨by decide, answers_next (by decide), nofun,
    fun _ h => absurd (List.cons.inj h).1 (by decide)⟩

theorem witness_FaultsArePrecise : ∃ t, exec (.acc 0x41) built = .next t ∧
    t.sent.getLast? = some (.response ⟨some .sequence, 0⟩) := ⟨_, rfl, by decide⟩

theorem witness_OneResponsePerCommand :
    (presenting coded (encode (.enc 0x41))).pending = .command (encode (.enc 0x41)) :: [] ∧
    ∃ t, step (presenting coded (encode (.enc 0x41))) = .next t := ⟨rfl, answers_next (by decide +kernel)⟩

theorem witness_LegalPhaseTable : (Instr.rdnf 4).wellFormed = true ∧ counted.fault = none ∧
    phaseAllows (.rdnf 4) counted = false ∧ phaseAllows (.rdnf 4) built = true ∧ built.fault = none ∧
    faulted.fault = some .sequence ∧ runsFaulted (.rdreg 13) = true ∧ (Instr.rdreg 13).wellFormed = true ∧
    runsFaulted (.rdnf 4) = false := by decide

theorem witness_PhaseChangesAreLegal : ∃ t, exec .flush coded = .next t ∧ t.phase ≠ coded.phase := ⟨_, rfl, by decide⟩

theorem witness_FaultOutputLevel_raise : Raises .gen counted .sequence := ⟨_, rfl, by decide, by decide, by decide, by decide,
  by decide, by decide⟩
theorem witness_FaultOutputLevel_drop : ∃ t, exec .clr faulted = .next t ∧ faultO faulted = true ∧ faultO t = false :=
  ⟨_, rfl, by decide, by decide⟩

/-! ### System -/

theorem witness_ClrRestoresReset : registerValue State.reset 13 = some 0 := by decide

theorem witness_RdregReadsRegister_legal : (13 : Byte).toNat ≤ 13 ∧ (0 : Byte).toNat ≤ 13 := by decide
theorem witness_RdregReadsRegister_illegal : 14 ≤ (14 : Byte).toNat ∧ State.reset.fault = none := by decide
theorem witness_RdregReadsRegister_refused : 14 ≤ (255 : Byte).toNat ∧ faulted.fault = some .sequence := by decide

theorem witness_WrregWritesLimit_illegal : State.reset.fault = none ∧ (5 : Byte) ≠ 6 ∧ (5 : Byte) ≠ 7 ∧ (8 : Byte) ≠ 6 ∧
    (8 : Byte) ≠ 7 := by decide
theorem witness_WrregWritesLimit_sequence : armed.fault = none ∧ armed.phase = .decode := by decide
theorem witness_WrregWritesLimit_writes : built.fault = none ∧ built.phase ≠ .decode := by decide

theorem witness_LimitsWrittenOnlyByWrreg : (∃ t, exec (.dec 0xB2) armed = .next t) ∧ (∀ r v, Instr.dec 0xB2 ≠ .wrreg r v) ∧
    Instr.dec 0xB2 ≠ .clr := ⟨answers_next (by decide +kernel), (by intro r v h; cases h), by decide⟩

/-! ### Frequency table -/

theorem witness_AccCountsOneByte_sequence : built.fault = none ∧ built.phase ≠ .count := by decide
theorem witness_AccCountsOneByte_overflow : full.fault = none ∧ full.phase = .count ∧ full.total.toNat = 2 ^ 64 - 1 := by
  decide
theorem witness_AccCountsOneByte_completes : nearlyFull.fault = none ∧ nearlyFull.phase = .count ∧
    nearlyFull.total.toNat < 2 ^ 64 - 1 ∧ CountersInv nearlyFull :=
  ⟨by decide, by decide, by decide, nearlyFull_counters⟩

theorem witness_LdfLoadsOneEntry_sequence : coded.fault = none ∧ coded.phase ≠ .count := by decide
theorem witness_LdfLoadsOneEntry_format : counted.fault = none ∧ counted.phase = .count ∧ (1 : Word64) ≠ 0 ∧
    freqAt counted 0x41 ≠ 0 := by decide
theorem witness_LdfLoadsOneEntry_overflow : nearlyFull.fault = none ∧ nearlyFull.phase = .count ∧ (2 : Word64) ≠ 0 ∧
    freqAt nearlyFull 1 = 0 ∧ 2 ^ 64 ≤ nearlyFull.total.toNat + (2 : Word64).toNat := by decide
theorem witness_LdfLoadsOneEntry_completes : nearlyFull.fault = none ∧ nearlyFull.phase = .count ∧ (1 : Word64) ≠ 0 ∧
    freqAt nearlyFull 255 = 0 ∧ nearlyFull.total.toNat + (1 : Word64).toNat < 2 ^ 64 ∧ CountersInv nearlyFull :=
  ⟨by decide, by decide, by decide, by decide, by decide, nearlyFull_counters⟩

theorem witness_RdfReadsEntry : armed.fault = none := by decide

/-! ### Tree builder -/

theorem witness_BuildMakesGreedyTree_sequence : built.fault = none ∧ built.phase ≠ .count := by decide
theorem witness_BuildMakesGreedyTree_empty : State.reset.fault = none ∧ State.reset.phase = .count ∧
    State.reset.symcnt = 0 := by decide
theorem witness_BuildMakesGreedyTree_completes : counted.fault = none ∧ counted.phase = .count ∧ counted.symcnt ≠ 0 ∧
    CountersInv counted := ⟨by decide, by decide, by decide, counted_counters⟩

/-- The same counts beside other limits. -/
theorem witness_BuildDependsOnFreqOnly : CountersInv counted ∧ CountersInv { counted with origlen := 5 } ∧
    (∀ b, freqAt counted b = freqAt { counted with origlen := 5 } b) ∧ counted.fault = none ∧
    ({ counted with origlen := 5 } : State).fault = none ∧ counted.phase = .count ∧
    ({ counted with origlen := 5 } : State).phase = .count ∧ counted.symcnt ≠ 0 ∧
    (∃ t, exec .build counted = .next t) ∧ ∃ t, exec .build { counted with origlen := 5 } = .next t :=
  ⟨counted_counters, ⟨counted_counters.canonical, counted_counters.symcnt_eq, counted_counters.total_eq⟩, fun _ => rfl,
    by decide, by decide, by decide, by decide, by decide, answers_next (by decide +kernel), answers_next (by decide +kernel)⟩

theorem witness_SingleSymbolTreeIsOneLeaf : CountersInv single ∧ single.fault = none ∧ single.phase = .count ∧
    freqAt single 0x41 ≠ 0 ∧ ∀ a, a ≠ 0x41 → freqAt single a = 0 :=
  ⟨single_counters, by decide, by decide, by decide, by decide +kernel⟩

theorem witness_RdnfReadsFrequency_sequence : counted.fault = none ∧ TreeInv counted ∧ counted.phase = .count :=
  ⟨by decide, counted_tree, by decide⟩
theorem witness_RdnfReadsFrequency_range : built.fault = none ∧ TreeInv built ∧ built.phase ≠ .count ∧
    built.nnodes.toNat ≤ (5 : NodeIx).toNat := ⟨by decide, built_tree, by decide, by decide⟩
theorem witness_RdnfReadsFrequency_reads : built.fault = none ∧ TreeInv built ∧ built.phase ≠ .count ∧
    (4 : NodeIx).toNat < built.nnodes.toNat := ⟨by decide, built_tree, by decide, by decide⟩

theorem witness_RdnlReadsLinks_sequence : counted.fault = none ∧ TreeInv counted ∧ counted.phase = .count :=
  ⟨by decide, counted_tree, by decide⟩
theorem witness_RdnlReadsLinks_range : coded.fault = none ∧ TreeInv coded ∧ coded.phase ≠ .count ∧
    coded.nnodes.toNat ≤ (511 : NodeIx).toNat := ⟨by decide, coded_tree, by decide, by decide⟩
theorem witness_RdnlReadsLinks_reads : singleArmed.fault = none ∧ TreeInv singleArmed ∧ singleArmed.phase ≠ .count ∧
    (0 : NodeIx).toNat < singleArmed.nnodes.toNat := ⟨by decide, singleArmed_tree, by decide, by decide⟩

/-! ### Code table -/

theorem singleBuilt_shape : TreeShape singleBuilt :=
  ⟨by decide, by decide, by decide, by decide, by decide, by decide, by decide +kernel, by decide +kernel, by decide +kernel,
    by decide⟩
theorem singleBuilt_counters : CountersInv singleBuilt := ⟨by decide, by decide +kernel, by decide +kernel⟩

theorem witness_GenRecordsTreePaths_sequence : coded.fault = none ∧ coded.phase ≠ .built := by decide
theorem witness_GenRecordsTreePaths_leaf : singleBuilt.fault = none ∧ singleBuilt.phase = .built ∧ CountersInv singleBuilt ∧
    TreeShape singleBuilt ∧ nodeAt singleBuilt singleBuilt.root = some (.leaf 0x41 4) ∧ freqAt singleBuilt 0x42 = 0 :=
  ⟨by decide, by decide, singleBuilt_counters, singleBuilt_shape, by decide, by decide⟩
theorem witness_GenRecordsTreePaths_internal : built.fault = none ∧ built.phase = .built ∧ CountersInv built ∧
    TreeShape built ∧ isInternal built.nodes built.root.toNat = true ∧ freqAt built 0x43 ≠ 0 :=
  ⟨by decide, by decide, built_counters, built_shape, by decide, by decide⟩

theorem witness_RdclReadsLength_sequence : built.fault = none ∧ built.codev = false := by decide
theorem witness_RdclReadsLength_reads : coded.fault = none ∧ coded.codev = true ∧ CodesInv coded :=
  ⟨by decide, by decide, coded_codes⟩

theorem witness_RdcbReadsChunk : built.fault = none ∧ built.codev = false ∧ coded.fault = none ∧ coded.codev = true := by decide

/-! ### Packer -/

theorem witness_EncAppendsCode_sequence : built.fault = none ∧ built.phase ≠ .coded := by decide
theorem witness_EncAppendsCode_nocode : coded.fault = none ∧ coded.phase = .coded ∧ codeAt coded 0x44 = [] := by decide
theorem witness_EncAppendsCode_overflow : ({ coded with totalbits := 0xFFFFFFFFFFFFFFFE } : State).fault = none ∧
    ({ coded with totalbits := 0xFFFFFFFFFFFFFFFE } : State).phase = .coded ∧
    codeAt { coded with totalbits := 0xFFFFFFFFFFFFFFFE } 0x42 ≠ [] ∧
    2 ^ 64 ≤ ({ coded with totalbits := 0xFFFFFFFFFFFFFFFE } : State).totalbits.toNat +
      (codeAt { coded with totalbits := 0xFFFFFFFFFFFFFFFE } 0x42).length := by decide
theorem witness_EncAppendsCode_completes : ({ coded with totalbits := 0xFFFFFFFFFFFFFFFE } : State).fault = none ∧
    ({ coded with totalbits := 0xFFFFFFFFFFFFFFFE } : State).phase = .coded ∧
    codeAt { coded with totalbits := 0xFFFFFFFFFFFFFFFE } 0x41 ≠ [] ∧
    ({ coded with totalbits := 0xFFFFFFFFFFFFFFFE } : State).totalbits.toNat +
      (codeAt { coded with totalbits := 0xFFFFFFFFFFFFFFFE } 0x41).length < 2 ^ 64 ∧ unfilledZero coded :=
  ⟨by decide, by decide, by decide, by decide, coded_packer.unfilled rfl⟩

theorem witness_FlushPadsLastByte_sequence : built.fault = none ∧ built.phase ≠ .coded := by decide
theorem witness_FlushPadsLastByte_empty : coded.fault = none ∧ coded.phase = .coded ∧ unfilledZero coded ∧
    coded.nbits = 0 := ⟨by decide, by decide, coded_packer.unfilled rfl, by decide⟩
theorem witness_FlushPadsLastByte_waiting : ({ coded with acc := 0xFE, nbits := 7 } : State).fault = none ∧
    ({ coded with acc := 0xFE, nbits := 7 } : State).phase = .coded ∧
    unfilledZero { coded with acc := 0xFE, nbits := 7 } ∧ ({ coded with acc := 0xFE, nbits := 7 } : State).nbits ≠ 0 :=
  ⟨by decide, by decide, (by unfold unfilledZero; decide), by decide⟩

/-- "ABACABA" ends with two bits waiting; eight times "A" ends with none. -/
theorem witness_PackerStream : coded.fault = none ∧ coded.phase = .coded ∧ coded.totalbits = 0 ∧ coded.acc = 0 ∧
    coded.nbits = 0 ∧ (∀ b ∈ ([0x41, 0x42, 0x41, 0x43, 0x41, 0x42, 0x41] : List Byte), codeAt coded b ≠ []) ∧
    (([0x41, 0x42, 0x41, 0x43, 0x41, 0x42, 0x41] : List Byte).flatMap (codeAt coded)).length = 10 ∧
    (∀ b ∈ List.replicate 8 (0x41 : Byte), codeAt coded b ≠ []) ∧
    ((List.replicate 8 (0x41 : Byte)).flatMap (codeAt coded)).length = 8 := by decide

/-! ### Unpacker -/

theorem witness_DecbegArmsUnpacker_sequence : counted.fault = none ∧ counted.phase ≠ .built ∧ counted.phase ≠ .coded := by
  decide
theorem witness_DecbegArmsUnpacker_format : built.fault = none ∧ built.phase = .built ∧ built.origlen ≠ built.total := by decide
theorem witness_DecbegArmsUnpacker_completes : ({ coded with origlen := 7 } : State).fault = none ∧
    ({ coded with origlen := 7 } : State).phase = .coded ∧
    ({ coded with origlen := 7 } : State).origlen = ({ coded with origlen := 7 } : State).total := by decide

theorem drained_tree : TreeInv drained :=
  ⟨fun _ => ⟨by decide, by decide, by decide, by decide, by decide, by decide, by decide +kernel, by decide +kernel, by decide +kernel,
    by decide⟩,
    fun h => by cases h⟩
theorem drained_decoder : DecoderInv drained :=
  ⟨fun _ => by decide, fun _ => by decide, fun _ => by decide, fun _ => .inl rfl⟩

theorem witness_DecConsumesOneByte_sequence : built.fault = none ∧ TreeInv built ∧ DecoderInv built ∧ built.phase ≠ .decode :=
  ⟨by decide, built_tree, ⟨nofun, nofun, nofun, nofun⟩, by decide⟩
theorem witness_DecConsumesOneByte_stopped : drained.fault = none ∧ TreeInv drained ∧ DecoderInv drained ∧
    drained.phase = .decode ∧ (drained.emitted = drained.origlen ∨ drained.consumed = drained.bitlimit) :=
  ⟨by decide, drained_tree, drained_decoder, by decide, by decide⟩
theorem witness_DecConsumesOneByte_leaf : singleArmed.fault = none ∧ TreeInv singleArmed ∧ DecoderInv singleArmed ∧
    singleArmed.phase = .decode ∧ singleArmed.emitted ≠ singleArmed.origlen ∧ singleArmed.consumed ≠ singleArmed.bitlimit ∧
    nodeAt singleArmed singleArmed.root = some (.leaf 0x41 4) ∧
    4 = min 8 (min (singleArmed.bitlimit.toNat - singleArmed.consumed.toNat)
      (singleArmed.origlen.toNat - singleArmed.emitted.toNat)) ∧
    true ∈ (byteBits 0x10).take 4 ∧ true ∉ (byteBits 0x0F).take 4 :=
  ⟨by decide, singleArmed_tree, singleArmed_decoder, by decide, by decide, by decide, by decide, by decide, by decide,
    by decide⟩
theorem witness_DecConsumesOneByte_internal : armed.fault = none ∧ TreeInv armed ∧ DecoderInv armed ∧
    armed.phase = .decode ∧ armed.emitted ≠ armed.origlen ∧ armed.consumed ≠ armed.bitlimit ∧
    isInternal armed.nodes armed.root.toNat = true :=
  ⟨by decide, armed_tree, armed_decoder, by decide, by decide, by decide, by decide⟩

theorem witness_DecendChecksIntegrity_sequence : built.fault = none ∧ built.phase ≠ .decode := by decide
theorem witness_DecendChecksIntegrity_integrity : ({ drained with excess := true } : State).fault = none ∧
    ({ drained with excess := true } : State).phase = .decode ∧ ({ drained with excess := true } : State).excess = true ∧
    armed.fault = none ∧ armed.phase = .decode ∧ armed.emitted ≠ armed.origlen ∧ armed.consumed ≠ armed.bitlimit := by decide
theorem witness_DecendChecksIntegrity_completes : drained.fault = none ∧ drained.phase = .decode ∧
    drained.emitted = drained.origlen ∧ drained.consumed = drained.bitlimit ∧ drained.excess = false := by decide

theorem witness_UnpackerStream : armed.fault = none ∧ armed.phase = .decode ∧ Invariant armed ∧
    isInternal armed.nodes armed.root.toNat = true ∧ armed.emitted = 0 ∧ armed.consumed = 0 ∧ armed.cursor = armed.root :=
  ⟨by decide, by decide, armed_invariant, by decide, by decide, by decide, by decide⟩

theorem witness_CompressDecompressRoundTrip : ([0x41, 0x42, 0x41] : List Byte) ≠ [] ∧
    255 * ([0x41, 0x42, 0x41] : List Byte).length < 2 ^ 64 ∧ Config.defaultMagic.length = 4 := by decide

/-! ### Reads, tables -/

theorem witness_ReadsHaveNoSideEffects : ∃ t v, Completes (.rdnl 3) built t v [] := ⟨_, _, rfl, rfl⟩

theorem witness_TablesWrittenOnlyByTheirCommands_freq : ∃ t, exec (.acc 0x43) counted = .next t ∧ t.freq ≠ counted.freq :=
  ⟨_, rfl, by decide⟩
theorem witness_TablesWrittenOnlyByTheirCommands_nodes : ∃ t, exec .build counted = .next t ∧ t.nodes ≠ counted.nodes :=
  ⟨_, resultOf_next counted (by decide +kernel), by decide +kernel⟩
theorem witness_TablesWrittenOnlyByTheirCommands_code : ∃ t, exec .gen built = .next t ∧ t.code ≠ built.code :=
  ⟨_, resultOf_next built (by decide +kernel), by decide +kernel⟩

theorem witness_UnspecifiedTablesUnobservable_node : CodevInv counted ∧ counted.phase = .count ∧
    ∃ t, exec .build counted = .next t ∧ t.phase ≠ .count :=
  ⟨counted_codev, by decide, _, resultOf_next counted (by decide +kernel), by decide +kernel⟩
theorem witness_UnspecifiedTablesUnobservable_code : CodevInv built ∧ built.codev = false ∧
    ∃ t, exec .gen built = .next t ∧ t.codev = true :=
  ⟨built_codev, by decide, _, resultOf_next built (by decide +kernel), by decide +kernel⟩

theorem witness_ResetReadsZero : registerValue State.reset 0 = some 0 ∧ (13 : Byte).toNat ≤ 13 := by decide

/-! ### Invariants -/

theorem counted_canonical : (presenting counted (encode (.acc 0xFF))).memoryWf := by decide

theorem witness_StepKeepsTablesCanonical : (presenting counted (encode (.acc 0xFF))).memoryWf ∧
    ∃ t, step (presenting counted (encode (.acc 0xFF))) = .next t :=
  ⟨counted_canonical, answers_next (by decide +kernel)⟩

theorem witness_StepKeepsCounters : CountersInv (presenting counted (encode (.acc 0xFF))) ∧
    ∃ t, step (presenting counted (encode (.acc 0xFF))) = .next t :=
  ⟨counters_presenting _ counted_counters, answers_next (by decide +kernel)⟩

theorem witness_StepKeepsTreeShape : CountersInv (presenting counted (encode .build)) ∧
    TreeInv (presenting counted (encode .build)) ∧ ∃ t, step (presenting counted (encode .build)) = .next t :=
  ⟨counters_presenting _ counted_counters, tree_presenting _ counted_tree, answers_next (by decide +kernel)⟩

theorem built_codes : CodesInv built := uncoded_codes built rfl rfl

theorem witness_StepKeepsPrefixFreeCodes : CountersInv (presenting built (encode .gen)) ∧
    TreeInv (presenting built (encode .gen)) ∧ CodevInv (presenting built (encode .gen)) ∧
    CodesInv (presenting built (encode .gen)) ∧ ∃ t, step (presenting built (encode .gen)) = .next t :=
  ⟨counters_presenting _ built_counters, tree_presenting _ built_tree, codev_presenting _ built_codev,
    codes_presenting _ built_codes, answers_next (by decide +kernel)⟩

theorem witness_StepKeepsPacker : PackerInv (presenting coded (encode (.enc 0x42))) ∧
    ∃ t, step (presenting coded (encode (.enc 0x42))) = .next t :=
  ⟨packer_presenting _ coded_packer, answers_next (by decide +kernel)⟩

theorem witness_StepKeepsDecoder : CountersInv (presenting armed (encode (.dec 0xB2))) ∧
    TreeInv (presenting armed (encode (.dec 0xB2))) ∧ DecoderInv (presenting armed (encode (.dec 0xB2))) ∧
    ∃ t, step (presenting armed (encode (.dec 0xB2))) = .next t :=
  ⟨counters_presenting _ armed_counters, tree_presenting _ armed_tree, decoder_presenting _ armed_decoder,
    answers_next (by decide +kernel)⟩

theorem witness_StepNeverStops : Invariant (presenting armed (encode (.dec 0xB2))) := invariant_presenting _ armed_invariant

/-! ### The container -/

theorem witness_ContainerReadsBack : Config.defaultMagic.length = 4 ∧
    1 ≤ (Container.mk 4 [(0x41, 4)] [0x00] 4).pairs.length ∧ (Container.mk 4 [(0x41, 4)] [0x00] 4).pairs.length ≤ 256 := by
  decide

end Sys2Proof.Tests
end

/-! SUPPORT. 10_state.md: what each command leaves unchanged, and the invariants of rule R28 that every step keeps. -/

namespace Sys2Proof.Machine

/-! ### What a command's own effect leaves unchanged -/

/-- A command that answers a next state changes at most the fault record and the ports' lists, or has its own effect and then
responds (R70, R145, R146). -/
theorem exec_cases (i : Instr) (s t : State) (h : exec i s = .next t) :
    sameBlock s t ∨ ∃ u v out, Effect i s u v out ∧ t = respond u ⟨none, v⟩ out := by
  rcases exec_ends i s t h with ⟨c, _, _, hr⟩ | ⟨c, _, hr, _⟩ | ⟨u, v, out, he, ht⟩
  · exact .inl (by unfold Refused at hr; rw [hr]; rfl)
  · exact .inl (by unfold sameBlock; rw [hr])
  · exact .inr ⟨u, v, out, he, ht⟩

section
variable {i : Instr} {s u : State} {v : Word64} {out : List Byte}

/-- R18: no effect but WRREG's and CLR's writes ORIGLEN or BITLIMIT. -/
theorem Effect.limits_eq (h : Effect i s u v out) (hw : ∀ r x, i ≠ .wrreg r x) (hc : i ≠ .clr) :
    u.origlen = s.origlen ∧ u.bitlimit = s.bitlimit := by
  cases h with
  | clr => exact absurd rfl hc
  | wrreg _ r x => exact absurd rfl (hw r x)
  | decWalk _ _ _ _ _ _ _ _ hd => rw [decodeBits_frame _ _ _ _ hd]; exact ⟨rfl, rfl⟩
  | _ => exact ⟨rfl, rfl⟩

/-- R22: no effect but ACC's, LDF's and CLR's writes FREQ, and the first two run in COUNT. -/
theorem Effect.freq_cases (h : Effect i s u v out) (hc : i ≠ .clr) :
    u.freq = s.freq ∨ s.phase = .count ∧ ((∃ b, i = .acc b) ∨ ∃ b f, i = .ldf b f) := by
  cases h with
  | clr => exact absurd rfl hc
  | acc _ b _ hp => exact .inr ⟨hp, .inl ⟨b, rfl⟩⟩
  | ldf _ b f _ hp => exact .inr ⟨hp, .inr ⟨b, f, rfl⟩⟩
  | wrreg => exact .inl (by simp)
  | decWalk _ _ _ _ _ _ _ _ hd => rw [decodeBits_frame _ _ _ _ hd]; exact .inl rfl
  | _ => exact .inl rfl

/-- R16, R17, R20: no effect but BUILD's and CLR's writes NODE, NNODES or ROOT. -/
theorem Effect.tree_eq (h : Effect i s u v out) (hb : i ≠ .build) (hc : i ≠ .clr) :
    u.nodes = s.nodes ∧ u.nnodes = s.nnodes ∧ u.root = s.root := by
  cases h with
  | clr => exact absurd rfl hc
  | build => exact absurd rfl hb
  | wrreg => simp
  | decWalk _ _ _ _ _ _ _ _ hd => rw [decodeBits_frame _ _ _ _ hd]; exact ⟨rfl, rfl, rfl⟩
  | _ => exact ⟨rfl, rfl, rfl⟩

/-- R23: no effect but GEN's and CLR's writes CODE or CODEV. -/
theorem Effect.code_eq (h : Effect i s u v out) (hg : i ≠ .gen) (hc : i ≠ .clr) :
    u.code = s.code ∧ u.codev = s.codev := by
  cases h with
  | clr => exact absurd rfl hc
  | gen => exact absurd rfl hg
  | wrreg => simp
  | decWalk _ _ _ _ _ _ _ _ hd => rw [decodeBits_frame _ _ _ _ hd]; exact ⟨rfl, rfl⟩
  | _ => exact ⟨rfl, rfl⟩

end

/-! ### The reset state -/

/-- After reset each of the 14 registers reads 0 (R24, R29). -/
theorem registerValue_reset (r : Byte) : registerValue State.reset r = if r.toNat ≤ 13 then some 0 else none := by
  revert r; decide

/-- Settles O44: every register and every FREQ entry of the reset state reads 0, and the two reads complete with that value. -/
theorem resetReadsZero : Obligations.ResetReadsZero := by
  unfold Obligations.ResetReadsZero
  refine ⟨fun r v h => ?_, fun _ => rfl, rfl, rfl, by decide, fun b => ?_, fun r hr => ?_⟩
  · rw [registerValue_reset] at h
    split at h <;> cases h
    rfl
  · exact ⟨_, (Effect.rdf State.reset b rfl).completes⟩
  · exact ⟨_, (Effect.rdreg State.reset r 0 (by rw [registerValue_reset, if_pos hr])).completes⟩

/-! ### R28 item 1: SYMCNT and TOTAL -/

/-- The fields `CountersInv` reads. -/
def countersPart (s : State) : Table Word64 × BitVec 9 × Word64 := (s.freq, s.symcnt, s.total)

theorem CountersInv.congr {s t : State} (h : CountersInv s) (e : countersPart t = countersPart s) : CountersInv t := by
  cases s; cases t
  simp only [countersPart, Prod.mk.injEq] at e
  obtain ⟨rfl, rfl, rfl⟩ := e
  exact ⟨h.canonical, h.symcnt_eq, h.total_eq⟩

theorem reset_counters : CountersInv State.reset := by
  have h0 : ∀ x ∈ freqEntries State.reset, x = 0 := fun x hx => by
    obtain ⟨a, _, rfl⟩ := List.mem_map.1 hx
    rfl
  refine ⟨tableWf_nil _ _, (List.countP_eq_zero.2 fun x hx => by simp [h0 x hx]).symm, (List.sum_eq_zero fun n hn => ?_).symm⟩
  obtain ⟨x, hx, rfl⟩ := List.mem_map.1 hn
  rw [h0 x hx]; rfl

/-- SYMCNT has 9 bits and counts at most 256 symbols. -/
theorem CountersInv.symcnt_le {s : State} (h : CountersInv s) : s.symcnt.toNat ≤ 256 := by
  rw [h.symcnt_eq]
  exact List.countP_le_length.trans (by simp [freqEntries, Config.symbols])

theorem CountersInv.freqAt_le_total {s : State} (h : CountersInv s) (b : Byte) : (freqAt s b).toNat ≤ s.total.toNat := by
  rw [h.total_eq]; exact freqAt_le_sum s b

/-- Where a symbol is not counted yet, SYMCNT can be incremented without wrapping. -/
theorem CountersInv.symcnt_succ {s : State} (h : CountersInv s) (b : Byte) (hb : freqAt s b = 0) :
    (s.symcnt + 1).toNat = (freqEntries s).countP (· ≠ 0) + 1 := by
  have hlt := countP_freqEntries_lt s b hb
  rw [BitVec.toNat_add, h.symcnt_eq]
  exact Nat.mod_eq_of_lt (Nat.lt_of_le_of_lt (Nat.succ_le_of_lt hlt) (by decide))

/-- ACC's updates keep the counters (R80). -/
theorem countByte_counters {s : State} (b : Byte) (h : CountersInv s) (ht : s.total.toNat ≠ 2 ^ 64 - 1) :
    CountersInv (countByte b s) := by
  have hle := h.freqAt_le_total b
  have hlt := s.total.isLt
  have one : (1 : Word64).toNat = 1 := rfl
  have hf : (freqAt s b + 1).toNat = (freqAt s b).toNat + 1 := by rw [BitVec.toNat_add]; omega
  have hne : freqAt s b + 1 ≠ 0 := fun e => by rw [e] at hf; simp at hf
  have hcount := freqEntries_count_write s (countByte b s) b _ h.canonical rfl
  have hsum := freqEntries_sum_write s (countByte b s) b _ h.canonical rfl
  rw [if_neg hne] at hcount
  refine ⟨tableWrite_wf _ _ _ _ _ b.isLt h.canonical, ?_, ?_⟩
  · rw [countByte_symcnt]
    split at hcount
    case isTrue h0 => rw [if_pos h0, h.symcnt_succ b h0]; omega
    case isFalse h0 => rw [if_neg h0, h.symcnt_eq]; omega
  · have := h.total_eq
    rw [countByte_total, BitVec.toNat_add]
    omega

/-- LDF's updates keep the counters (R81). -/
theorem loadEntry_counters {s : State} (b : Byte) (f : Word64) (h : CountersInv s) (hf : f ≠ 0) (h0 : freqAt s b = 0)
    (ht : s.total.toNat + f.toNat < 2 ^ 64) : CountersInv (loadEntry b f s) := by
  have hcount := freqEntries_count_write s (loadEntry b f s) b f h.canonical rfl
  have hsum := freqEntries_sum_write s (loadEntry b f s) b f h.canonical rfl
  rw [if_neg hf, if_pos h0] at hcount
  rw [h0] at hsum
  refine ⟨tableWrite_wf _ _ _ _ _ b.isLt h.canonical, ?_, ?_⟩
  · rw [loadEntry_symcnt, h.symcnt_succ b h0]; omega
  · have := h.total_eq
    rw [loadEntry_total, BitVec.toNat_add, Nat.mod_eq_of_lt ht]
    simpa [this] using hsum.symm

theorem Effect.keeps_counters {i : Instr} {s u : State} {v : Word64} {out : List Byte} (h : Effect i s u v out)
    (hs : CountersInv s) : CountersInv u := by
  cases h with
  | clr => exact reset_counters.congr rfl
  | acc _ b _ _ ht => exact countByte_counters b hs ht
  | ldf _ b f _ _ hf h0 ht => exact loadEntry_counters b f hs hf h0 ht
  | wrreg => exact hs.congr (by simp [countersPart])
  | decWalk _ _ _ _ _ _ _ _ hd => exact hs.congr (by rw [decodeBits_frame _ _ _ _ hd]; rfl)
  | _ => exact hs.congr rfl

theorem CountersInv.of_sameBlock {s t : State} (e : sameBlock s t) (h : CountersInv s) : CountersInv t :=
  h.congr (by rw [e]; rfl)

/-- Settles O47: only ACC, LDF and CLR touch the counters, and each moves SYMCNT and TOTAL with FREQ. -/
theorem stepKeepsCounters : Obligations.StepKeepsCounters := by
  unfold Obligations.StepKeepsCounters
  exact step_keeps CountersInv (fun _ _ => .of_sameBlock) reset_counters fun _ _ _ _ _ => Effect.keeps_counters

/-! ### R28 item 4: the packer -/

/-- The fields `PackerInv` reads. -/
def packerPart (s : State) : Phase × Word64 × BitVec 8 × BitVec 3 := (s.phase, s.totalbits, s.acc, s.nbits)

theorem PackerInv.congr {s t : State} (h : PackerInv s) (e : packerPart t = packerPart s) : PackerInv t := by
  cases s; cases t
  simp only [packerPart, Prod.mk.injEq] at e
  obtain ⟨rfl, rfl, rfl, rfl⟩ := e
  exact ⟨h.nbits_eq, h.unfilled⟩

/-- Outside CODED the item says nothing. -/
theorem PackerInv.of_not_coded {s : State} (h : s.phase ≠ .coded) : PackerInv s :=
  ⟨fun e => absurd e h, fun e => absurd e h⟩

theorem reset_packer : PackerInv State.reset := .of_not_coded (by decide)

/-- ENC's updates keep the packer (R110): the loop leaves as many bits waiting as TOTALBITS is past a multiple of 8. -/
theorem appendCode_packer {s : State} (bits : List Bool) (h : PackerInv s) (hp : s.phase = .coded)
    (ht : s.totalbits.toNat + bits.length < 2 ^ 64) : PackerInv (appendCode bits s) := by
  obtain ⟨_, _, hnbits, hunfilled⟩ := packBits_spec bits s.acc s.nbits
  refine ⟨fun _ => ?_, fun _ => hunfilled (h.unfilled hp)⟩
  have hn := h.nbits_eq hp
  have htb : (appendCode bits s).totalbits.toNat = s.totalbits.toNat + bits.length := by
    rw [appendCode_totalbits, BitVec.toNat_add, BitVec.toNat_ofNat]; omega
  rw [htb, appendCode_nbits, hnbits]
  omega

theorem Effect.keeps_packer {i : Instr} {s u : State} {v : Word64} {out : List Byte} (h : Effect i s u v out)
    (hs : PackerInv s) : PackerInv u := by
  cases h with
  | clr => exact reset_packer.congr rfl
  | gen => exact ⟨fun _ => rfl, fun _ k _ => by simp⟩
  | enc _ b _ hp _ ht => exact appendCode_packer _ hs hp ht
  | build | flush | decbeg | decend => exact .of_not_coded nofun
  | wrreg => exact hs.congr (by simp [packerPart])
  | decWalk _ _ _ _ _ _ _ _ hd => exact hs.congr (by rw [decodeBits_frame _ _ _ _ hd]; rfl)
  | _ => exact hs.congr rfl

theorem PackerInv.of_sameBlock {s t : State} (e : sameBlock s t) (h : PackerInv s) : PackerInv t :=
  h.congr (by rw [e]; rfl)

/-- Settles O50: only GEN and ENC leave the block in CODED with another ACC, NBITS or TOTALBITS. -/
theorem stepKeepsPacker : Obligations.StepKeepsPacker := by
  unfold Obligations.StepKeepsPacker
  exact step_keeps PackerInv (fun _ _ => .of_sameBlock) reset_packer fun _ _ _ _ _ => Effect.keeps_packer

/-! ### Phases, limits and tables -/

/-- Settles O15: command by command, the phase an effect leaves. -/
theorem phaseChangesAreLegal : Obligations.PhaseChangesAreLegal := by
  unfold Obligations.PhaseChangesAreLegal
  intro i s t h hne
  rcases exec_cases i s t h with e | ⟨u, v, out, he, rfl⟩
  · exact absurd (by rw [e]) hne
  · cases he with
    | clr => simp [State.reset]
    | build _ r rest _ hp => simp [hp]
    | gen _ t _ hp => simp [hp]
    | flush _ _ hp => simp [hp]
    | decbeg _ _ hp => simp [hp]
    | decend _ _ hp => simp [hp]
    | wrreg => exact absurd (by simp) hne
    | decWalk _ _ _ _ _ _ _ _ hd => exact absurd (by rw [respond_phase, decodeBits_frame _ _ _ _ hd]) hne
    | _ => exact absurd rfl hne

/-- Settles O21: a refusal or a fault leaves the two limits, and so does every other effect. -/
theorem limitsWrittenOnlyByWrreg : Obligations.LimitsWrittenOnlyByWrreg := by
  unfold Obligations.LimitsWrittenOnlyByWrreg
  intro i s t h hw hc
  rcases exec_cases i s t h with e | ⟨u, v, out, he, rfl⟩
  · rw [e]; exact ⟨rfl, rfl⟩
  · exact he.limits_eq hw hc

/-- Settles O42: a refusal or a fault leaves every table, and an effect writes only its command's own. -/
theorem tablesWrittenOnlyByTheirCommands : Obligations.TablesWrittenOnlyByTheirCommands := by
  unfold Obligations.TablesWrittenOnlyByTheirCommands
  intro i s t h hc
  rcases exec_cases i s t h with e | ⟨u, v, out, he, rfl⟩
  · rw [e]; simp
  · refine ⟨fun hf => (he.freq_cases hc).resolve_left hf, fun hn => ?_, fun hn => ?_⟩
    · by_contra hb
      obtain ⟨h1, h2, h3⟩ := he.tree_eq hb hc
      simp [h1, h2, h3] at hn
    · by_contra hg
      obtain ⟨h1, h2⟩ := he.code_eq hg hc
      simp [h1, h2] at hn

/-! ### R28 item 2: the tree -/

/-- The fields `TreeShape` reads. -/
def treePart (s : State) : (Table Word64 × BitVec 9 × Word64) × BitVec 9 × NodeIx × List Node :=
  (countersPart s, s.nnodes, s.root, s.nodes)

theorem TreeShape.congr {s t : State} (h : TreeShape s) (e : treePart t = treePart s) : TreeShape t := by
  cases s; cases t
  simp only [treePart, countersPart, Prod.mk.injEq] at e
  obtain ⟨⟨rfl, rfl, rfl⟩, rfl, rfl, rfl⟩ := e
  exact ⟨h.present, h.nnodes_eq, h.root_eq, h.records, h.leaves, h.ascending, h.counted, h.internals, h.oneParent, h.rootFreq⟩

theorem TreeInv.of_shape {s : State} (hp : s.phase ≠ .count) (h : TreeShape s) : TreeInv s := ⟨fun _ => h, fun e => absurd e hp⟩

theorem TreeInv.of_count {s : State} (hp : s.phase = .count) (h : s.nnodes = 0 ∧ s.root = 0 ∧ s.nodes = []) : TreeInv s :=
  ⟨fun e => absurd hp e, fun _ => h⟩

theorem TreeInv.congr {s t : State} (h : TreeInv s) (hp : t.phase = s.phase) (e : treePart t = treePart s) : TreeInv t := by
  refine ⟨fun ht => (h.built (hp ▸ ht)).congr e, fun ht => ?_⟩
  simp only [treePart, Prod.mk.injEq] at e
  obtain ⟨-, hn, hr, hs⟩ := e
  rw [hn, hr, hs]
  exact h.unbuilt (hp ▸ ht)

theorem reset_tree : TreeInv State.reset := .of_count rfl ⟨rfl, rfl, rfl⟩

/-- What `internalSound` says of an Internal record. -/
theorem internalSound_iff (ns : List Node) (k : Nat) :
    internalSound ns k = true ↔ ∃ f l r, ns[k]? = some (.internal f l r) ∧ l.toNat < k ∧ r.toNat < k ∧ l ≠ r ∧
      f.toNat = freqOf ns l.toNat + freqOf ns r.toNat := by
  unfold internalSound
  split
  case h_1 f l r hk => simp [hk, and_assoc]
  case h_2 hk => simpa using fun f l r e => absurd e (hk f l r)

/-- A record with a child is Internal, and has it on the left or on the right. -/
theorem childOf_iff (ns : List Node) (k c : Nat) :
    childOf ns k c = true ↔ ∃ f l r, ns[k]? = some (.internal f l r) ∧ (l.toNat = c ∨ r.toNat = c) := by
  unfold childOf
  split
  case h_1 f l r hk => simp [hk]
  case h_2 hk => simpa using fun f l r e => absurd e (hk f l r)

section
variable {leaves ns : List Node} {act : List Active}

/-- The leaves stand first in the arena R90's loop makes. -/
theorem LoopInv.getElem?_leaf (h : LoopInv leaves ns act) {i : Nat} (hi : i < leaves.length) : ns[i]? = leaves[i]? := by
  rw [← h.seeded, List.getElem?_take_of_lt hi]

/-- In the arena R90's loop makes every child stands below its parent. -/
theorem LoopInv.child_lt (h : LoopInv leaves ns act) (hl : ∀ n ∈ leaves, ∃ b f, n = .leaf b f) {k c : Nat}
    (hk : childOf ns k c = true) : c < k := by
  obtain ⟨f, l, r, hn, hc⟩ := (childOf_iff ns k c).1 hk
  have hlen : k < ns.length := (List.getElem?_eq_some_iff.1 hn).1
  by_cases hkl : k < leaves.length
  · rw [h.getElem?_leaf hkl] at hn
    obtain ⟨b, g, e⟩ := hl _ (List.mem_of_getElem? hn)
    cases e
  · obtain ⟨f', l', r', hn', h1, h2, -⟩ := (internalSound_iff ns k).1 (h.sound k (by omega) hlen)
    rw [hn] at hn'
    cases hn'
    omega

/-- When one record is left active it is the last one made: nothing can have taken that one. -/
theorem LoopInv.root_last {r : Active} (h : LoopInv leaves ns [r]) (hl : ∀ n ∈ leaves, ∃ b f, n = .leaf b f)
    (hpos : 0 < ns.length) : r.ix = ns.length - 1 := by
  have hact : activeAt ns ns.length (ns.length - 1) := by
    refine ⟨by omega, fun j hj => Bool.eq_false_iff.2 fun hc => ?_⟩
    have := h.child_lt hl hc
    omega
  simpa using (h.untaken _).1 hact

end

/-- SYMCNT is not 0 as a word, so it is at least 1 as a number. -/
theorem symcnt_pos {s : State} (h0 : s.symcnt ≠ 0) : 1 ≤ s.symcnt.toNat := by
  have : s.symcnt.toNat ≠ 0 := fun e => h0 (BitVec.eq_of_toNat_eq e)
  omega

/-- Where the counters agree, BUILD seeds SYMCNT leaves. -/
theorem CountersInv.seedLeaves_length {s : State} (hc : CountersInv s) : (seedLeaves s).length = s.symcnt.toNat := by
  rw [Machine.seedLeaves_length, hc.symcnt_eq]

section
variable {s : State} {r : Active} (hc : CountersInv s) (h : LoopInv (seedLeaves s) (buildTree s).1 [r])
include hc h

/-- A strict tree on SYMCNT leaves has twice as many records less one. -/
theorem buildTree_length : (buildTree s).1.length = 2 * s.symcnt.toNat - 1 := by
  have hcount := h.count
  rw [hc.seedLeaves_length, List.length_singleton] at hcount
  omega

/-- The first SYMCNT records of BUILD's arena are the leaves seeded, each a counted symbol's. -/
theorem buildTree_leaf {i : Nat} (hi : i < s.symcnt.toNat) : ∃ b : Byte, freqAt s b ≠ 0 ∧
    (seedLeaves s)[i]? = some (.leaf b (freqAt s b)) ∧ (buildTree s).1[i]? = some (.leaf b (freqAt s b)) := by
  have hlt : i < (seedLeaves s).length := hc.seedLeaves_length ▸ hi
  have hget := List.getElem?_eq_getElem hlt
  obtain ⟨b, hb, e⟩ := (mem_seedLeaves s _).1 (List.mem_of_getElem? hget)
  rw [e] at hget
  exact ⟨b, hb, hget, by rw [h.getElem?_leaf hlt, hget]⟩

/-- The leaves of BUILD's arena stand in ascending symbol order. -/
theorem buildTree_ascending {i j : Nat} (hj : j < s.symcnt.toNat) (hij : i < j) :
    symbolOf (buildTree s).1 i < symbolOf (buildTree s).1 j := by
  have hn := hc.seedLeaves_length
  obtain ⟨b, -, hsb, hb⟩ := buildTree_leaf hc h (Nat.lt_trans hij hj)
  obtain ⟨c, -, hsc, hc'⟩ := buildTree_leaf hc h hj
  have hlt := List.pairwise_iff_getElem.1 (seedLeaves_ascending s) i j (by omega) (by omega) hij
  rw [(List.getElem?_eq_some_iff.1 hsb).2, (List.getElem?_eq_some_iff.1 hsc).2] at hlt
  simpa [symbolOf, Node.sym, hb, hc'] using hlt

/-- BUILD leaves the tree of R28 item 2: what R90's loop keeps, read off where one record is left active. -/
theorem installTree_shape (h0 : s.symcnt ≠ 0) : TreeShape (installTree (buildTree s).1 r.ix s) := by
  have hn := hc.seedLeaves_length
  have hle := hc.symcnt_le
  have hpos := symcnt_pos h0
  have hlen := buildTree_length hc h
  have hroot := h.root_last (seedLeaves_leaf s) (by omega)
  have hnn : (installTree (buildTree s).1 r.ix s).nnodes.toNat = (buildTree s).1.length := by simp; omega
  have hrt : (installTree (buildTree s).1 r.ix s).root.toNat = r.ix := by simp; omega
  refine ⟨hpos, hnn.trans hlen, by rw [hnn, hrt, hroot], hnn.symm, ?_, fun j hj i hij => buildTree_ascending hc h hj hij, ?_,
    fun k hk hks => h.sound k (hn ▸ hks) (hnn ▸ hk), ?_, ?_⟩
  · intro i hi
    obtain ⟨b, hb, -, hi⟩ := buildTree_leaf hc h hi
    simpa [leafSound, hi, freqAt] using hb
  · intro b hb
    obtain ⟨i, hi, hget⟩ := List.mem_iff_getElem.1 ((mem_seedLeaves s _).2 ⟨b, hb, rfl⟩)
    refine ⟨i, hn ▸ hi, ?_⟩
    rw [installTree_nodes, h.getElem?_leaf hi, List.getElem?_eq_getElem hi, hget]
    rfl
  · intro c hcr
    rw [hrt] at hcr
    rw [hnn]
    exact h.parent c (by omega) (by simp; omega)
  · obtain ⟨-, hfreq⟩ := h.freq r (by simp)
    have hsum := h.sum
    rw [seedLeaves_sum, ← hc.total_eq] at hsum
    rw [hrt, installTree_nodes, hfreq, installTree_total, ← hsum]
    simp

end

theorem Effect.keeps_tree {i : Instr} {s u : State} {v : Word64} {out : List Byte} (h : Effect i s u v out)
    (hc : CountersInv s) (hs : TreeInv s) : TreeInv u := by
  cases h with
  | clr => exact reset_tree.congr rfl rfl
  | acc _ b _ hp => exact .of_count hp (hs.unbuilt hp)
  | ldf _ b f _ hp => exact .of_count hp (hs.unbuilt hp)
  | build _ r rest _ _ h0 hb =>
    obtain ⟨r', hr', hloop⟩ := buildTree_spec s hc h0
    rw [hb] at hr'
    cases hr'
    exact .of_shape nofun (installTree_shape hc hloop h0)
  | gen _ t _ hp => exact .of_shape nofun ((hs.built (by simp [hp])).congr rfl)
  | flush _ _ hp => exact .of_shape nofun ((hs.built (by simp [hp])).congr rfl)
  | decbeg _ _ hp => exact .of_shape nofun ((hs.built (by rintro e; simp [e] at hp)).congr rfl)
  | decend _ _ hp => exact .of_shape nofun ((hs.built (by simp [hp])).congr rfl)
  | wrreg => exact hs.congr (by simp) (by simp [treePart, countersPart])
  | decWalk _ _ _ _ _ _ _ _ hd =>
    exact hs.congr (by rw [decodeBits_frame _ _ _ _ hd]) (by rw [decodeBits_frame _ _ _ _ hd]; rfl)
  | _ => exact hs.congr rfl rfl

theorem TreeInv.of_sameBlock {s t : State} (e : sameBlock s t) (h : TreeInv s) : TreeInv t :=
  h.congr (by rw [e]) (by rw [e]; rfl)

/-- Settles O48: BUILD makes the tree, no other command but CLR touches it, and ACC and LDF run only where there is none. -/
theorem stepKeepsTreeShape : Obligations.StepKeepsTreeShape := by
  unfold Obligations.StepKeepsTreeShape
  intro s t hc ht h
  exact (step_keeps (fun s => CountersInv s ∧ TreeInv s) (fun _ _ e h => ⟨.of_sameBlock e h.1, .of_sameBlock e h.2⟩)
    ⟨reset_counters, reset_tree⟩ (fun _ _ _ _ _ he h => ⟨he.keeps_counters h.1, he.keeps_tree h.1 h.2⟩) s t ⟨hc, ht⟩ h).2

/-! ### R28 item 5: the unpacker -/

/-- The fields `DecoderInv` reads. -/
def decoderPart (s : State) :
    Phase × (Word64 × Word64) × (Word64 × Word64) × Word64 × NodeIx × NodeIx × List Node :=
  (s.phase, (s.emitted, s.origlen), (s.consumed, s.bitlimit), s.total, s.cursor, s.root, s.nodes)

theorem DecoderInv.congr {s t : State} (h : DecoderInv s) (e : decoderPart t = decoderPart s) : DecoderInv t := by
  cases s; cases t
  simp only [decoderPart, Prod.mk.injEq] at e
  obtain ⟨rfl, ⟨rfl, rfl⟩, ⟨rfl, rfl⟩, rfl, rfl, rfl, rfl⟩ := e
  exact ⟨h.emitted_le, h.consumed_le, h.length_eq, h.cursor_ok⟩

/-- Outside DECODE the item says nothing. -/
theorem DecoderInv.of_not_decode {s : State} (h : s.phase ≠ .decode) : DecoderInv s :=
  ⟨fun e => absurd e h, fun e => absurd e h, fun e => absurd e h, fun e => absurd e h⟩

theorem reset_decoder : DecoderInv State.reset := .of_not_decode (by decide)

/-- Where a symbol is counted TOTAL is at least 1. -/
theorem CountersInv.total_pos {s : State} (h : CountersInv s) (h1 : 1 ≤ s.symcnt.toNat) : 1 ≤ s.total.toNat := by
  rw [h.symcnt_eq] at h1
  obtain ⟨f, hf, hne⟩ := List.countP_pos_iff.1 h1
  obtain ⟨a, _, rfl⟩ := List.mem_map.1 hf
  have hle := h.freqAt_le_total (BitVec.ofNat 8 a)
  have : (freqAt s (BitVec.ofNat 8 a)).toNat ≠ 0 := fun e => (of_decide_eq_true hne) (BitVec.eq_of_toNat_eq e)
  omega

/-- DECBEG leaves the unpacker within its limits (R120). -/
theorem armUnpacker_decoder {s : State} (hc : CountersInv s) (ht : TreeShape s) (ho : s.origlen = s.total) :
    DecoderInv (armUnpacker s) :=
  ⟨fun _ => Nat.zero_le _, fun _ => Nat.zero_le _, fun _ => ⟨ho, hc.total_pos ht.present⟩, fun _ => .inl rfl⟩

/-- A run takes no more than is left below either limit (R121). -/
theorem consumeRun_decoder {s : State} (h : DecoderInv s) : DecoderInv (consumeRun (runLength s) s) := by
  have hsum : ∀ a b : Word64, a.toNat ≤ b.toNat → runLength s ≤ b.toNat - a.toNat →
      (a + BitVec.ofNat 64 (runLength s)).toNat ≤ b.toNat := by
    intro a b hab hm
    have := b.isLt
    rw [BitVec.toNat_add, BitVec.toNat_ofNat]
    omega
  have hemit : runLength s ≤ s.origlen.toNat - s.emitted.toNat := by unfold runLength; omega
  have hcons : runLength s ≤ s.bitlimit.toNat - s.consumed.toNat := by unfold runLength; omega
  exact ⟨fun hp => hsum _ _ (h.emitted_le hp) hemit, fun hp => hsum _ _ (h.consumed_le hp) hcons, h.length_eq, h.cursor_ok⟩

/-- The walk stops at either limit, and ends at an Internal record or back at the root (R121). -/
theorem decodeBits_decoder {s u : State} {bits : List Bool} {out : List Byte} (h : DecoderInv s) (hp : s.phase = .decode)
    (hd : decodeBits bits s = .ok (u, out)) : DecoderInv u := by
  obtain ⟨n, -, -, -, -, hcons, hemit, -, hcur, -⟩ := decodeBits_spec bits s u out hd (h.emitted_le hp) (h.consumed_le hp)
  rw [decodeBits_frame _ _ _ _ hd]
  refine ⟨fun _ => hemit, fun _ => hcons, h.length_eq, fun _ => ?_⟩
  rcases hcur with ⟨-, e⟩ | hcur
  · exact e ▸ h.cursor_ok hp
  · exact hcur

theorem Effect.keeps_decoder {i : Instr} {s u : State} {v : Word64} {out : List Byte} (h : Effect i s u v out)
    (hc : CountersInv s) (ht : TreeInv s) (hs : DecoderInv s) : DecoderInv u := by
  cases h with
  | clr => exact reset_decoder.congr rfl
  | acc _ b _ hp => exact .of_not_decode (by simp [hp])
  | ldf _ b f _ hp => exact .of_not_decode (by simp [hp])
  | wrreg _ r v _ _ hp => exact .of_not_decode (by simpa using hp)
  | build | gen | flush | decend => exact .of_not_decode nofun
  | decbeg _ _ hp ho => exact armUnpacker_decoder hc (ht.built (by rintro e; simp [e] at hp)) ho
  | decRun => exact consumeRun_decoder hs
  | decWalk _ _ _ _ _ hp _ _ hd => exact decodeBits_decoder hs hp hd
  | _ => exact hs.congr rfl

theorem DecoderInv.of_sameBlock {s t : State} (e : sameBlock s t) (h : DecoderInv s) : DecoderInv t :=
  h.congr (by rw [e]; rfl)

/-- Settles O51: DECBEG arms the unpacker within its limits, DEC stops at them, and WRREG does not run in DECODE. -/
theorem stepKeepsDecoder : Obligations.StepKeepsDecoder := by
  unfold Obligations.StepKeepsDecoder
  intro s t hc ht hd h
  exact (step_keeps (fun s => CountersInv s ∧ TreeInv s ∧ DecoderInv s)
    (fun _ _ e ⟨hc, ht, hd⟩ => ⟨.of_sameBlock e hc, .of_sameBlock e ht, .of_sameBlock e hd⟩)
    ⟨reset_counters, reset_tree, reset_decoder⟩
    (fun _ _ _ _ _ he ⟨hc, ht, hd⟩ => ⟨he.keeps_counters hc, he.keeps_tree hc ht, he.keeps_decoder hc ht hd⟩)
    s t ⟨hc, ht, hd⟩ h).2.2

/-! ### R28 item 3: the code table -/

/-- The fields `CodesInv` reads. -/
def codesPart (s : State) : Bool × Table (List Bool) × Table Word64 := (s.codev, s.code, s.freq)

theorem CodesInv.congr {s t : State} (h : CodesInv s) (e : codesPart t = codesPart s) : CodesInv t := by
  cases s; cases t
  simp only [codesPart, Prod.mk.injEq] at e
  obtain ⟨rfl, rfl, rfl⟩ := e
  exact ⟨h.canonical, h.present, h.unambiguous, h.bounded⟩

/-- While CODEV is 0 the item says nothing of the codes. -/
theorem CodesInv.of_no_codes {s : State} (hv : s.codev = false) (h : tableWf Config.symbols [] s.code) : CodesInv s := by
  refine ⟨h, ?_, ?_, ?_⟩ <;> simp [hv]

theorem CodevInv.congr {s t : State} (h : CodevInv s) (hp : t.phase = s.phase) (hv : t.codev = s.codev) : CodevInv t :=
  ⟨by rw [hp, hv]; exact h.early, by rw [hp, hv]; exact h.coded⟩

theorem reset_codev : CodevInv State.reset := ⟨fun _ => rfl, nofun⟩

theorem reset_codes : CodesInv State.reset := .of_no_codes rfl (tableWf_nil _ _)

/-! Branches of a tree. -/

section
variable {ns : List Node}

/-- Branches follow one another. -/
theorem TreePath.append {i j k : NodeIx} {p q : List Bool} (h : TreePath ns i p j) (h' : TreePath ns j q k) :
    TreePath ns i (p ++ q) k := by
  induction h with
  | here i => exact h'
  | left i j f l r p hi _ ih => exact .left i k f l r _ hi (ih h')
  | right i j f l r p hi _ ih => exact .right i k f l r _ hi (ih h')

/-- Branches can be cut at any place. -/
theorem TreePath.split {i k : NodeIx} {p q : List Bool} (h : TreePath ns i (p ++ q) k) :
    ∃ j, TreePath ns i p j ∧ TreePath ns j q k := by
  induction p generalizing i with
  | nil => exact ⟨i, .here i, h⟩
  | cons c p ih =>
    cases h with
    | left _ _ f l r _ hi h =>
      obtain ⟨j, hp, hq⟩ := ih h
      exact ⟨j, .left i j f l r p hi hp, hq⟩
    | right _ _ f l r _ hi h =>
      obtain ⟨j, hp, hq⟩ := ih h
      exact ⟨j, .right i j f l r p hi hp, hq⟩

/-- The branches to a Leaf of one symbol do not begin the branches to a Leaf of another (R103). -/
theorem TreePath.not_isPrefix {i j k : NodeIx} {p q : List Bool} {a b : Byte} {f g : Word64} (hab : a ≠ b)
    (hp : TreePath ns i p j) (hj : ns[j.toNat]? = some (.leaf a f)) (hq : TreePath ns i q k)
    (hk : ns[k.toNat]? = some (.leaf b g)) : ¬ p <+: q := by
  rintro ⟨r, rfl⟩
  obtain ⟨m, hm, hr⟩ := hq.split
  cases hm.unique hp
  obtain ⟨-, rfl⟩ := hr.leaf hj
  rw [hj] at hk
  cases hk
  exact hab rfl

/-- A child is one branch away from its parent. -/
theorem TreePath.to_child {k c : NodeIx} (h : childOf ns k.toNat c.toNat = true) : ∃ b, TreePath ns k [b] c := by
  obtain ⟨f, l, r, hk, hc⟩ := (childOf_iff ns k.toNat c.toNat).1 h
  rcases hc with e | e
  · cases BitVec.eq_of_toNat_eq e
    exact ⟨false, .left k c f c r [] hk (.here c)⟩
  · cases BitVec.eq_of_toNat_eq e
    exact ⟨true, .right k c f l c [] hk (.here c)⟩

/-- Where the records below `n` are Leaves and the others sound, branches from a record at `n` or above pass only records at `n`
or above, each below the one before, and then a Leaf. -/
theorem TreePath.length_le {n : Nat} (hl : ∀ k < n, ∃ b f, ns[k]? = some (.leaf b f))
    (hs : ∀ k, n ≤ k → k < ns.length → internalSound ns k = true) {i j : NodeIx} {p : List Bool} (h : TreePath ns i p j) :
    p.length ≤ i.toNat + 1 - n := by
  have descend : ∀ {i c : NodeIx} {f : Word64} {l r : NodeIx} {p : List Bool}, ns[i.toNat]? = some (.internal f l r) →
      c = l ∨ c = r → p.length ≤ c.toNat + 1 - n → p.length + 1 ≤ i.toNat + 1 - n := by
    intro i c f l r p hi hc hp
    have hni : n ≤ i.toNat := by
      by_contra hlt
      obtain ⟨b, g, hb⟩ := hl i.toNat (by omega)
      rw [hi] at hb
      cases hb
    obtain ⟨f', l', r', hi', hli, hri, -⟩ :=
      (internalSound_iff ns i.toNat).1 (hs i.toNat hni (List.getElem?_eq_some_iff.1 hi).1)
    rw [hi] at hi'
    cases hi'
    rcases hc with rfl | rfl <;> omega
  induction h with
  | here i => simp
  | left i j f l r p hi _ ih => exact descend hi (.inl rfl) ih
  | right i j f l r p hi _ ih => exact descend hi (.inr rfl) ih

end

/-! The tree of R28 item 2, as GEN reads it. -/

section
variable {s : State} (h : TreeShape s)
include h

/-- Records 0 to SYMCNT - 1 are Leaves. -/
theorem TreeShape.leaf_of_lt {k : Nat} (hk : k < s.symcnt.toNat) :
    ∃ b f, s.nodes[k]? = some (.leaf b f) ∧ f ≠ 0 ∧ f = freqAt s b := by
  have := h.leaves k hk
  unfold leafSound at this
  split at this
  case h_1 b f hn => exact ⟨b, f, hn, by simpa using this⟩
  case h_2 => cases this

/-- The other records are Internal and sound. -/
theorem TreeShape.sound (k : Nat) (hk : s.symcnt.toNat ≤ k) (hl : k < s.nodes.length) : internalSound s.nodes k = true :=
  h.internals k (h.records ▸ hl) hk

/-- Every Leaf is a counted symbol's (R20). -/
theorem TreeShape.leaf_counted {k : Nat} {b : Byte} {f : Word64} (hk : s.nodes[k]? = some (.leaf b f)) :
    k < s.symcnt.toNat ∧ freqAt s b ≠ 0 := by
  have hlt : k < s.symcnt.toNat := by
    by_contra hge
    obtain ⟨_, _, _, hn, -⟩ := (internalSound_iff _ _).1 (h.sound k (by omega) (List.getElem?_eq_some_iff.1 hk).1)
    rw [hk] at hn
    cases hn
  obtain ⟨b', f', hn, hf, e⟩ := h.leaf_of_lt hlt
  rw [hk] at hn
  cases hn
  exact ⟨hlt, e ▸ hf⟩

/-- A child stands below its parent, which is at most the root. -/
theorem TreeShape.child_lt {k c : Nat} (hc : childOf s.nodes k c = true) : c < k ∧ k ≤ s.root.toNat := by
  obtain ⟨f, l, r, hn, hlr⟩ := (childOf_iff _ _ _).1 hc
  have hlen := (List.getElem?_eq_some_iff.1 hn).1
  have hge : s.symcnt.toNat ≤ k := by
    by_contra hlt
    obtain ⟨b, g, hb, -⟩ := h.leaf_of_lt (Nat.lt_of_not_le hlt)
    rw [hn] at hb
    cases hb
  obtain ⟨f', l', r', hn', hl, hr, -⟩ := (internalSound_iff _ _).1 (h.sound k hge hlen)
  rw [hn] at hn'
  cases hn'
  have := h.records
  have := h.root_eq
  omega

/-- Every record up to the root is reached from the root: its parent is, and stands above it. -/
theorem TreeShape.reached (c : NodeIx) (hc : c.toNat ≤ s.root.toNat) : ∃ p, TreePath s.nodes s.root p c := by
  by_cases hr : c = s.root
  · exact ⟨[], hr ▸ .here c⟩
  · have hlt : c.toNat < s.root.toNat := by
      have : c.toNat ≠ s.root.toNat := fun e => hr (BitVec.eq_of_toNat_eq e)
      omega
    obtain ⟨k, -, hk⟩ := List.countP_pos_iff.1 (Nat.lt_of_lt_of_eq Nat.zero_lt_one (h.oneParent c.toNat hlt).symm)
    obtain ⟨hck, hkr⟩ := h.child_lt hk
    have hk9 : (BitVec.ofNat 9 k : NodeIx).toNat = k := by
      have := s.root.isLt
      rw [BitVec.toNat_ofNat]; omega
    obtain ⟨p, hp⟩ := TreeShape.reached (BitVec.ofNat 9 k) (by omega)
    obtain ⟨b, hb⟩ := TreePath.to_child (ns := s.nodes) (k := BitVec.ofNat 9 k) (c := c) (by rw [hk9]; exact hk)
    exact ⟨p ++ [b], hp.append hb⟩
termination_by s.root.toNat - c.toNat

/-- The root is a record. -/
theorem TreeShape.root_lt : s.root.toNat < s.nodes.length := by
  have := h.present
  have := h.nnodes_eq
  have := h.root_eq
  have := h.records
  omega

/-- A tree whose root is a Leaf is that Leaf alone, so no other symbol is counted. -/
theorem TreeShape.leaf_root {b : Byte} {f : Word64} (hn : nodeAt s s.root = some (.leaf b f)) (a : Byte) :
    freqAt s a ≠ 0 ↔ a = b := by
  obtain ⟨hlt, hb⟩ := h.leaf_counted hn
  refine ⟨fun ha => ?_, fun e => e ▸ hb⟩
  obtain ⟨i, hi, hai⟩ := h.counted a ha
  have := h.nnodes_eq
  have := h.root_eq
  have e : i = s.root.toNat := by omega
  subst e
  rw [nodeAt, hai] at hn
  cases hn
  rfl

end

/-- What GEN's table holds when the root is Internal: the branches from the root to a Leaf of the symbol, for exactly the counted
symbols (R100). -/
theorem walk_root_codes {s : State} (h : TreeShape s) (hr : isInternal s.nodes s.root.toNat = true) {fuel : Nat}
    {t : Table (List Bool)} (hw : walk s.nodes fuel s.root [] [] = .ok t) (b : Byte) :
    (tableRead [] t b.toNat ≠ [] ↔ freqAt s b ≠ 0) ∧
    (tableRead [] t b.toNat ≠ [] →
      ∃ j f, TreePath s.nodes s.root (tableRead [] t b.toNat) j ∧ s.nodes[j.toNat]? = some (.leaf b f)) := by
  have hnil := tableWf_nil Config.symbols ([] : List Bool)
  have hpath : tableRead [] t b.toNat ≠ [] →
      ∃ j f, TreePath s.nodes s.root (tableRead [] t b.toNat) j ∧ s.nodes[j.toNat]? = some (.leaf b f) := by
    intro hne
    rcases walk_sound _ _ _ _ _ _ hw hnil b with e | ⟨q, j, f, hq, hj, e⟩
    · exact absurd e hne
    · rw [e, List.nil_append]
      exact ⟨j, f, hq, hj⟩
  refine ⟨⟨fun hne => ?_, fun hb => ?_⟩, hpath⟩
  · obtain ⟨j, f, -, hj⟩ := hpath hne
    exact (h.leaf_counted hj).2
  · obtain ⟨i, hi, hbi⟩ := h.counted b hb
    have hle : i ≤ s.root.toNat := by
      have := h.nnodes_eq
      have := h.root_eq
      omega
    have hi9 : (BitVec.ofNat 9 i : NodeIx).toNat = i := by
      have := s.root.isLt
      rw [BitVec.toNat_ofNat]; omega
    obtain ⟨p, hp⟩ := h.reached (BitVec.ofNat 9 i) (by omega)
    obtain ⟨q, j, f, hq, hj, e⟩ := walk_complete _ _ _ _ _ _ hw hnil p _ b _ hp (by rw [hi9]; exact hbi)
    rw [e, List.nil_append]
    rintro rfl
    cases hq
    rw [isInternal, hj] at hr
    cases hr

/-- GEN's table from a tree of R28 item 2 (R100, R103). -/
theorem installCodes_codes {s : State} {t : Table (List Bool)} (hc : CountersInv s) (h : TreeShape s)
    (hg : generateCodes s = .ok t) : CodesInv (installCodes t s) := by
  have hnil := tableWf_nil Config.symbols ([] : List Bool)
  unfold generateCodes at hg
  split at hg
  case h_1 => cases hg
  case h_2 b f hn =>
    cases hg
    have hcode : ∀ a : Byte, codeAt (installCodes (tableWrite [] [] b.toNat [false]) s) a = if a = b then [false] else [] := by
      intro a
      show tableRead [] (tableWrite [] [] b.toNat [false]) a.toNat = _
      split
      case isTrue e => exact e ▸ tableRead_write_same _ _ _ _ _ hnil
      case isFalse e => exact tableRead_write_other _ _ _ _ _ fun e' => e (BitVec.eq_of_toNat_eq e').symm
    refine ⟨tableWrite_wf Config.symbols [] [] b.toNat [false] b.isLt hnil, fun _ a => ?_, fun _ a c hac => ?_, fun _ a => ?_⟩
    · rw [hcode]
      refine Iff.trans ?_ (h.leaf_root hn a).symm
      simp
    · have hb : ∀ x : Byte, (if x = b then [false] else []) ≠ [] → x = b := fun x hx => not_not.1 (mt (if_neg ·) hx)
      rw [hcode, hcode]
      exact fun ha hc => absurd ((hb a ha).trans (hb c hc).symm) hac
    · rw [hcode]
      split <;> simp [Config.maxCodeLength]
  case h_3 f l r hn =>
    have hr : isInternal s.nodes s.root.toNat = true := by rw [nodeAt] at hn; simp [isInternal, hn]
    have hcodes := walk_root_codes h hr hg
    refine ⟨walk_wf _ _ _ _ _ _ hg hnil, fun _ b => (hcodes b).1, fun _ a b hab ha hb => ?_, fun _ b => ?_⟩
    · obtain ⟨j, f, hp, hj⟩ := (hcodes a).2 ha
      obtain ⟨k, g, hq, hk⟩ := (hcodes b).2 hb
      exact hp.not_isPrefix hab hj hq hk
    · by_cases hb : codeAt (installCodes t s) b = []
      · simp [hb]
      · obtain ⟨j, f, hp, -⟩ := (hcodes b).2 hb
        have hlen := hp.length_le (fun k hk => let ⟨b, f, hn, _⟩ := h.leaf_of_lt hk; ⟨b, f, hn⟩) h.sound
        have := h.nnodes_eq
        have := h.root_eq
        have := hc.symcnt_le
        refine hlen.trans ?_
        unfold Config.maxCodeLength
        omega

theorem Effect.keeps_codev {i : Instr} {s u : State} {v : Word64} {out : List Byte} (h : Effect i s u v out)
    (hs : CodevInv s) : CodevInv u := by
  cases h with
  | clr => exact reset_codev.congr rfl rfl
  | build _ r rest _ hp => exact ⟨fun _ => hs.early (.inl hp), nofun⟩
  | gen => exact ⟨nofun, fun _ => rfl⟩
  | flush | decbeg | decend => exact ⟨nofun, nofun⟩
  | wrreg => exact hs.congr (by simp) (by simp)
  | decWalk _ _ _ _ _ _ _ _ hd =>
    exact hs.congr (by rw [decodeBits_frame _ _ _ _ hd]) (by rw [decodeBits_frame _ _ _ _ hd])
  | _ => exact hs.congr rfl rfl

theorem Effect.keeps_codes {i : Instr} {s u : State} {v : Word64} {out : List Byte} (h : Effect i s u v out)
    (hc : CountersInv s) (ht : TreeInv s) (hv : CodevInv s) (hs : CodesInv s) : CodesInv u := by
  cases h with
  | clr => exact reset_codes.congr rfl
  | acc _ b _ hp => exact .of_no_codes (hv.early (.inl hp)) hs.canonical
  | ldf _ b f _ hp => exact .of_no_codes (hv.early (.inl hp)) hs.canonical
  | gen _ t _ hp hg => exact installCodes_codes hc (ht.built (by simp [hp])) hg
  | wrreg => exact hs.congr (by simp [codesPart])
  | decWalk _ _ _ _ _ _ _ _ hd => exact hs.congr (by rw [decodeBits_frame _ _ _ _ hd]; rfl)
  | _ => exact hs.congr rfl

theorem CodevInv.of_sameBlock {s t : State} (e : sameBlock s t) (h : CodevInv s) : CodevInv t :=
  h.congr (by rw [e]) (by rw [e])

theorem CodesInv.of_sameBlock {s t : State} (e : sameBlock s t) (h : CodesInv s) : CodesInv t :=
  h.congr (by rw [e]; rfl)

/-- Settles O49: GEN's codes are the branches from the root to the Leaves, and FREQ changes only in COUNT, where CODEV is 0. -/
theorem stepKeepsPrefixFreeCodes : Obligations.StepKeepsPrefixFreeCodes := by
  unfold Obligations.StepKeepsPrefixFreeCodes
  intro s t hc ht hv hk h
  exact (step_keeps (fun s => CountersInv s ∧ TreeInv s ∧ CodevInv s ∧ CodesInv s)
    (fun _ _ e ⟨hc, ht, hv, hk⟩ => ⟨.of_sameBlock e hc, .of_sameBlock e ht, .of_sameBlock e hv, .of_sameBlock e hk⟩)
    ⟨reset_counters, reset_tree, reset_codev, reset_codes⟩
    (fun _ _ _ _ _ he ⟨hc, ht, hv, hk⟩ =>
      ⟨he.keeps_counters hc, he.keeps_tree hc ht, he.keeps_codev hv, he.keeps_codes hc ht hv hk⟩)
    s t ⟨hc, ht, hv, hk⟩ h).2.2

/-! ### The whole invariant -/

/-- Settles O45: each part holds of the reset state. -/
theorem resetMeetsInvariant : Obligations.ResetMeetsInvariant := by
  unfold Obligations.ResetMeetsInvariant
  exact ⟨⟨reset_counters, reset_tree, reset_codev, reset_codes, reset_packer, reset_decoder⟩, reset_memoryWf⟩

theorem Invariant.of_sameBlock {s t : State} (e : sameBlock s t) (h : Invariant s) : Invariant t :=
  ⟨.of_sameBlock e h.counters, .of_sameBlock e h.tree, .of_sameBlock e h.codev, .of_sameBlock e h.codes,
    .of_sameBlock e h.packer, .of_sameBlock e h.decoder⟩

theorem Effect.keeps_invariant {i : Instr} {s u : State} {v : Word64} {out : List Byte} (he : Effect i s u v out)
    (h : Invariant s) : Invariant u :=
  ⟨he.keeps_counters h.counters, he.keeps_tree h.counters h.tree, he.keeps_codev h.codev,
    he.keeps_codes h.counters h.tree h.codev h.codes, he.keeps_packer h.packer,
    he.keeps_decoder h.counters h.tree h.decoder⟩

/-- Every step keeps the whole invariant. -/
theorem step_keeps_invariant : ∀ s t : State, Invariant s → step s = .next t → Invariant t :=
  step_keeps Invariant (fun _ _ => .of_sameBlock) resetMeetsInvariant.1 fun _ _ _ _ _ => Effect.keeps_invariant

/-! No command stops the machine. -/

/-- Behind the check for the faulted state a command answers a next state when its body does. -/
theorem unlessFaulted_answers {s : State} {body : Result} (h : ∃ t, body = .next t) : ∃ t, unlessFaulted s body = .next t := by
  cases hf : s.fault with
  | none => rwa [unlessFaulted_of_none s body hf]
  | some c =>
    obtain ⟨t, ht, -⟩ := unlessFaulted_of_some s body c hf
    exact ⟨t, ht⟩

/-- Behind the phase check it does when its body does in the phases allowed. -/
theorem requirePhase_answers {s : State} {phases : List Phase} {w : CmdWord} {body : Result}
    (h : s.phase ∈ phases → ∃ t, body = .next t) : ∃ t, requirePhase phases w s body = .next t := by
  unfold requirePhase
  split
  case isTrue hp => exact h hp
  case isFalse => exact ⟨_, rfl⟩

/-- Behind the CODEV check it does when its body does. -/
theorem requireCodev_answers {s : State} {w : CmdWord} {body : Result} (h : ∃ t, body = .next t) :
    ∃ t, requireCodev w s body = .next t := by
  unfold requireCodev
  split
  case isTrue => exact h
  case isFalse => exact ⟨_, rfl⟩

/-- A word that is no command is refused or raises ILLEGAL (R146). -/
theorem illegalWord_answers (w : CmdWord) (s : State) : ∃ t, illegalWord w s = .next t := unlessFaulted_answers ⟨_, rfl⟩

/-- RDREG answers for every register number (R132). -/
theorem execRdreg_answers (r : Byte) (s : State) : ∃ t, execRdreg r s = .next t := by
  unfold execRdreg
  split
  case h_1 => exact ⟨_, rfl⟩
  case h_2 => exact illegalWord_answers _ s

/-- WRREG answers for every register number (R133). -/
theorem execWrreg_answers (r : Byte) (v : Word64) (s : State) : ∃ t, execWrreg r v s = .next t := by
  unfold execWrreg
  split
  case isTrue => exact unlessFaulted_answers (requirePhase_answers fun _ => ⟨_, rfl⟩)
  case isFalse => exact illegalWord_answers _ s

/-- BUILD finds an active record (R90). -/
theorem execBuild_answers {s : State} (hc : CountersInv s) : ∃ t, execBuild s = .next t := by
  refine unlessFaulted_answers (requirePhase_answers fun _ => ?_)
  split
  case isTrue => exact ⟨_, rfl⟩
  case isFalse h0 =>
    obtain ⟨r, hr, -⟩ := buildTree_spec s hc h0
    rw [hr]
    exact ⟨_, rfl⟩

/-- RDNF and RDNL read only records there are (R91, R92). -/
theorem readNode_answers {s : State} (ht : TreeInv s) (w : CmdWord) (i : NodeIx) (value : Node → Word64) :
    ∃ t, readNode w i value s = .next t := by
  refine unlessFaulted_answers (requirePhase_answers fun hp => ?_)
  split
  case isTrue => exact ⟨_, rfl⟩
  case isFalse hi =>
    have hlt : i.toNat < s.nodes.length := by
      rw [(ht.built (by rintro e; simp [e] at hp)).records]
      exact BitVec.lt_def.1 (BitVec.not_le.1 hi)
    rw [nodeAt, List.getElem?_eq_getElem hlt]
    exact ⟨_, rfl⟩

/-- GEN's walk finds every record it reads, and no code is longer than 255 bits (R100). -/
theorem generateCodes_ok {s : State} (hc : CountersInv s) (h : TreeShape s) : ∃ t, generateCodes s = .ok t := by
  unfold generateCodes
  rw [nodeAt, List.getElem?_eq_getElem h.root_lt]
  split
  case h_1 e => cases e
  case h_2 => exact ⟨_, rfl⟩
  case h_3 =>
    have := h.nnodes_eq
    have := h.root_eq
    have := hc.symcnt_le
    exact walk_ok s.nodes s.symcnt.toNat h.sound _ _ _ _ h.root_lt
      (fun k hk => let ⟨b, f, hn, _⟩ := h.leaf_of_lt hk; ⟨b, f, hn⟩) (by unfold Config.maxCodeLength; omega)

theorem execGen_answers {s : State} (hc : CountersInv s) (ht : TreeInv s) : ∃ t, execGen s = .next t := by
  refine unlessFaulted_answers (requirePhase_answers fun hp => ?_)
  obtain ⟨t, hg⟩ := generateCodes_ok hc (ht.built (by rintro e; simp [e] at hp))
  rw [hg]
  exact ⟨_, rfl⟩

/-- The children of an Internal record are records (R20). -/
theorem TreeShape.children_lt {s : State} (h : TreeShape s) (k : Nat) (f : Word64) (l r : NodeIx)
    (hk : s.nodes[k]? = some (.internal f l r)) : l.toNat < s.nodes.length ∧ r.toNat < s.nodes.length := by
  have hlen := (List.getElem?_eq_some_iff.1 hk).1
  obtain ⟨hl, -⟩ := h.child_lt ((childOf_iff _ _ _).2 ⟨f, l, r, hk, .inl rfl⟩)
  obtain ⟨hr, -⟩ := h.child_lt ((childOf_iff _ _ _).2 ⟨f, l, r, hk, .inr rfl⟩)
  omega

/-- DEC walks from CURSOR to records there are (R121). -/
theorem execDec_answers {s : State} (b : Byte) (ht : TreeInv s) (hd : DecoderInv s) : ∃ t, execDec b s = .next t := by
  refine unlessFaulted_answers (requirePhase_answers fun hp => ?_)
  have hp : s.phase = .decode := by simpa using hp
  have h := ht.built (by simp [hp])
  split
  case isTrue => exact ⟨_, rfl⟩
  case isFalse =>
    split
    case h_1 hn =>
      rw [nodeAt, List.getElem?_eq_getElem h.root_lt] at hn
      cases hn
    case h_2 =>
      unfold decodeRun
      split <;> exact ⟨_, rfl⟩
    case h_3 f l r hn =>
      have hr : isInternal s.nodes s.root.toNat = true := by rw [nodeAt] at hn; simp [isInternal, hn]
      have hcur : isInternal s.nodes s.cursor.toNat = true := (hd.cursor_ok hp).elim (fun e => e ▸ hr) id
      obtain ⟨t, out, hbits⟩ := decodeBits_ok (byteBits b) s h.children_lt hr hcur
      unfold decodeWalk
      rw [hbits]
      exact ⟨_, rfl⟩

/-- From every state that meets the invariant every command answers a next state (R180). -/
theorem exec_answers {s : State} (h : Invariant s) (i : Instr) : ∃ t, exec i s = .next t := by
  cases i with
  | nop => exact ⟨_, rfl⟩
  | clr => exact ⟨_, rfl⟩
  | rdreg r => exact execRdreg_answers r s
  | wrreg r v => exact execWrreg_answers r v s
  | acc b =>
    refine unlessFaulted_answers (requirePhase_answers fun _ => ?_)
    split <;> exact ⟨_, rfl⟩
  | ldf b f =>
    refine unlessFaulted_answers (requirePhase_answers fun _ => ?_)
    repeat' split
    all_goals exact ⟨_, rfl⟩
  | rdf b => exact unlessFaulted_answers ⟨_, rfl⟩
  | build => exact execBuild_answers h.counters
  | rdnf n => exact readNode_answers h.tree _ n _
  | rdnl n => exact readNode_answers h.tree _ n _
  | gen => exact execGen_answers h.counters h.tree
  | rdcl b => exact unlessFaulted_answers (requireCodev_answers ⟨_, rfl⟩)
  | rdcb b j => exact unlessFaulted_answers (requireCodev_answers ⟨_, rfl⟩)
  | enc b =>
    refine unlessFaulted_answers (requirePhase_answers fun _ => ?_)
    repeat' split
    all_goals exact ⟨_, rfl⟩
  | flush => exact unlessFaulted_answers (requirePhase_answers fun _ => ⟨_, rfl⟩)
  | decbeg =>
    refine unlessFaulted_answers (requirePhase_answers fun _ => ?_)
    split <;> exact ⟨_, rfl⟩
  | dec b => exact execDec_answers b h.tree h.decoder
  | decend =>
    refine unlessFaulted_answers (requirePhase_answers fun _ => ?_)
    split <;> exact ⟨_, rfl⟩

/-- From such a state a step answers a next state: idle, reset, a command, or an illegal word. -/
theorem step_answers {s : State} (h : Invariant s) : ∃ t, step s = .next t := by
  unfold step
  split
  case h_1 => exact ⟨_, rfl⟩
  case h_2 => exact ⟨_, rfl⟩
  case h_3 =>
    split
    case h_1 i _ => exact exec_answers (h.of_sameBlock (by rfl)) i
    case h_2 => exact illegalWord_answers _ _

/-- Settles O52: no command stops the machine where the invariant holds, and every step keeps the invariant. -/
theorem stepNeverStops : Obligations.StepNeverStops := by
  unfold Obligations.StepNeverStops
  intro s h
  obtain ⟨t, ht⟩ := step_answers h
  exact ⟨t, ht, step_keeps_invariant s t h ht⟩

end Sys2Proof.Machine

/-! SUPPORT. 20_memory.md: commands run in the order presented (R46, R47), reads change nothing (R45), and the host reads back the
container it wrote (R50, R54). -/

namespace Sys2Proof.Machine

/-! ### No command reads the inputs still waiting (R46) -/

/-- The same block with the inputs `q` waiting. -/
def State.withInputs (s : State) (q : List HostInput) : State := { s with pending := q }

/-- The same answer, with the inputs `q` waiting in the next state. -/
def answerWithInputs (r : Result) (q : List HostInput) : Result :=
  match r with
  | .next s => .next (s.withInputs q)
  | .fault e => .fault e
  | .refused e => .refused e

@[simp] theorem withInputs_fault (s : State) (q : List HostInput) : (s.withInputs q).fault = s.fault := rfl
@[simp] theorem withInputs_phase (s : State) (q : List HostInput) : (s.withInputs q).phase = s.phase := rfl
@[simp] theorem withInputs_codev (s : State) (q : List HostInput) : (s.withInputs q).codev = s.codev := rfl
@[simp] theorem withInputs_root (s : State) (q : List HostInput) : (s.withInputs q).root = s.root := rfl
@[simp] theorem withInputs_cursor (s : State) (q : List HostInput) : (s.withInputs q).cursor = s.cursor := rfl
@[simp] theorem nodeAt_withInputs (s : State) (q : List HostInput) (i : NodeIx) : nodeAt (s.withInputs q) i = nodeAt s i := rfl
@[simp] theorem stopped_withInputs (s : State) (q : List HostInput) : stopped (s.withInputs q) = stopped s := rfl
@[simp] theorem runLength_withInputs (s : State) (q : List HostInput) : runLength (s.withInputs q) = runLength s := rfl
@[simp] theorem buildTree_withInputs (s : State) (q : List HostInput) : buildTree (s.withInputs q) = buildTree s := rfl
@[simp] theorem generateCodes_withInputs (s : State) (q : List HostInput) :
    generateCodes (s.withInputs q) = generateCodes s := rfl
@[simp] theorem registerValue_withInputs (s : State) (q : List HostInput) (r : Byte) :
    registerValue (s.withInputs q) r = registerValue s r := rfl

section
variable (s : State) (q : List HostInput)

theorem raise_withInputs (w : CmdWord) (c : Cause) : raise w c (s.withInputs q) = answerWithInputs (raise w c s) q := by
  cases hf : s.fault <;> simp [raise, recordFault, hf] <;> rfl

theorem unlessFaulted_withInputs {body body' : Result} (h : body' = answerWithInputs body q) :
    unlessFaulted (s.withInputs q) body' = answerWithInputs (unlessFaulted s body) q := by
  cases hf : s.fault with
  | none => simpa [unlessFaulted, hf] using h
  | some c => simp only [unlessFaulted, withInputs_fault, hf]; rfl

/-- A choice carries the waiting inputs through when both its branches do. -/
theorem ite_withInputs {p : Prop} [Decidable p] {a b a' b' : Result} (ha : a' = answerWithInputs a q)
    (hb : b' = answerWithInputs b q) : (if p then a' else b') = answerWithInputs (if p then a else b) q := by
  split
  · exact ha
  · exact hb

theorem requirePhase_withInputs {phases : List Phase} {w : CmdWord} {body body' : Result}
    (h : body' = answerWithInputs body q) :
    requirePhase phases w (s.withInputs q) body' = answerWithInputs (requirePhase phases w s body) q :=
  ite_withInputs q h (raise_withInputs s q w .sequence)

theorem requireCodev_withInputs {w : CmdWord} {body body' : Result} (h : body' = answerWithInputs body q) :
    requireCodev w (s.withInputs q) body' = answerWithInputs (requireCodev w s body) q :=
  ite_withInputs q h (raise_withInputs s q w .sequence)

theorem illegalWord_withInputs (w : CmdWord) : illegalWord w (s.withInputs q) = answerWithInputs (illegalWord w s) q :=
  unlessFaulted_withInputs s q (raise_withInputs s q w .illegal)

theorem readNode_withInputs (w : CmdWord) (i : NodeIx) (value : Node → Word64) :
    readNode w i value (s.withInputs q) = answerWithInputs (readNode w i value s) q := by
  refine unlessFaulted_withInputs s q (requirePhase_withInputs s q (ite_withInputs q (raise_withInputs s q _ _) ?_))
  rw [nodeAt_withInputs]
  cases nodeAt s i <;> rfl

/-- One bit of DEC's walk carries the waiting inputs through (R121). -/
theorem decodeBit_withInputs (b : Bool) :
    decodeBit b (s.withInputs q) = (decodeBit b s).map fun r => (r.1.withInputs q, r.2) := by
  simp only [decodeBit, nodeAt_withInputs, withInputs_cursor]
  cases nodeAt s s.cursor with
  | none => rfl
  | some n =>
    rcases h : nodeAt s (n.child b) with _ | (_ | _) <;> simp only [h] <;> rfl

/-- So does the walk (R121). -/
theorem decodeBits_withInputs (bits : List Bool) :
    decodeBits bits (s.withInputs q) = (decodeBits bits s).map fun r => (r.1.withInputs q, r.2) := by
  induction bits generalizing s with
  | nil => rfl
  | cons b bits ih =>
    simp only [decodeBits, stopped_withInputs, decodeBit_withInputs]
    split
    case isTrue => rfl
    case isFalse =>
      rcases decodeBit b s with e | ⟨s', out⟩
      · rfl
      · simp only [Except.map, ih]
        cases decodeBits bits s' <;> rfl

theorem execDec_withInputs (b : Byte) : execDec b (s.withInputs q) = answerWithInputs (execDec b s) q := by
  refine unlessFaulted_withInputs s q (requirePhase_withInputs s q (ite_withInputs q rfl ?_))
  rw [nodeAt_withInputs, withInputs_root]
  rcases nodeAt s s.root with _ | (_ | _)
  · rfl
  · exact ite_withInputs q (raise_withInputs s q _ _) rfl
  · simp only [decodeWalk, decodeBits_withInputs]
    cases decodeBits (byteBits b) s <;> rfl

/-- R46: a command does the same whatever inputs wait behind it, and leaves them waiting. -/
theorem exec_withInputs (i : Instr) : exec i (s.withInputs q) = answerWithInputs (exec i s) q := by
  cases i with
  | nop => rfl
  | clr => rfl
  | rdreg r =>
    simp only [exec, execRdreg, registerValue_withInputs]
    cases registerValue s r with
    | some v => rfl
    | none => exact illegalWord_withInputs s q _
  | wrreg r v =>
    refine ite_withInputs q (unlessFaulted_withInputs s q (requirePhase_withInputs s q ?_)) (illegalWord_withInputs s q _)
    unfold writeLimit
    split <;> rfl
  | acc b =>
    exact unlessFaulted_withInputs s q (requirePhase_withInputs s q (ite_withInputs q (raise_withInputs s q _ _) rfl))
  | ldf b f =>
    exact unlessFaulted_withInputs s q (requirePhase_withInputs s q (ite_withInputs q (raise_withInputs s q _ _)
      (ite_withInputs q (raise_withInputs s q _ _) (ite_withInputs q (raise_withInputs s q _ _) rfl))))
  | rdf b => exact unlessFaulted_withInputs s q rfl
  | build =>
    refine unlessFaulted_withInputs s q (requirePhase_withInputs s q (ite_withInputs q (raise_withInputs s q _ _) ?_))
    rw [buildTree_withInputs]
    cases (buildTree s).2 <;> rfl
  | rdnf n => exact readNode_withInputs s q _ n _
  | rdnl n => exact readNode_withInputs s q _ n _
  | gen =>
    refine unlessFaulted_withInputs s q (requirePhase_withInputs s q ?_)
    rw [generateCodes_withInputs]
    cases generateCodes s <;> rfl
  | rdcl b => exact unlessFaulted_withInputs s q (requireCodev_withInputs s q rfl)
  | rdcb b j => exact unlessFaulted_withInputs s q (requireCodev_withInputs s q rfl)
  | enc b =>
    exact unlessFaulted_withInputs s q (requirePhase_withInputs s q (ite_withInputs q (raise_withInputs s q _ _)
      (ite_withInputs q (raise_withInputs s q _ _) rfl)))
  | flush => exact unlessFaulted_withInputs s q (requirePhase_withInputs s q rfl)
  | decbeg =>
    exact unlessFaulted_withInputs s q (requirePhase_withInputs s q (ite_withInputs q (raise_withInputs s q _ _) rfl))
  | dec b => exact execDec_withInputs s q b
  | decend =>
    exact unlessFaulted_withInputs s q (requirePhase_withInputs s q (ite_withInputs q (raise_withInputs s q _ _) rfl))

end

/-- A command takes none of the inputs waiting and adds none. -/
theorem exec_pending {i : Instr} {s t : State} (h : exec i s = .next t) : t.pending = s.pending := by
  have hs : exec i s = answerWithInputs (exec i s) s.pending := exec_withInputs s s.pending i
  rw [h] at hs
  injection hs with ht
  rw [ht]
  rfl

/-! ### Commands run in the order presented (R47) -/

/-- R60 to R66: the decoder reads a well-formed command back from its encoding. -/
theorem decode_encode {i : Instr} (h : i.wellFormed = true) : decode (encode i) = .ok i := by
  cases i <;> simp_all [decode, decodeRow, encode, formatN, formatS, formatI, formatSI, formatSJ, checkRegister]

/-- A step takes the first of the well-formed commands presented to an idle block and leaves the others presented (R72). -/
theorem step_present_cons {i : Instr} {is : List Instr} {s t : State} (hi : i.wellFormed = true) (hs : s.pending = [])
    (h : exec i s = .next t) : step (present (i :: is) s) = .next (present is t) := by
  have ht : t.pending = [] := (exec_pending h).trans hs
  have hp : (present (i :: is) s).pending = .command (encode i) :: is.map fun i => .command (encode i) := by
    simp [present, hs]
  calc step (present (i :: is) s)
      = exec i (s.withInputs (is.map fun i => .command (encode i))) := by
        simp only [step, hp, decode_encode hi]; rfl
    _ = .next (present is t) := by
        rw [exec_withInputs, h]; simp [answerWithInputs, State.withInputs, present, ht]

/-- Settles O9, by induction on the commands: each step runs the command that `runCommands` runs. -/
theorem commandsRunInOrder : Obligations.CommandsRunInOrder := by
  unfold Obligations.CommandsRunInOrder
  intro cmds
  induction cmds with
  | nil =>
    intro s t _ hs h
    have hp : present [] s = s := by simp [present]
    rwa [hp]
  | cons i is ih =>
    intro s t hw hs h
    obtain ⟨hi, his⟩ := List.forall_mem_cons.1 hw
    simp only [runCommands] at h
    cases he : exec i s with
    | fault e => simp [he] at h
    | refused r => simp [he] at h
    | next u =>
      simp only [he] at h
      have hstep : core.step (present (i :: is) s) = .next (present is u) := step_present_cons hi hs he
      simp only [List.length_cons, Host.Core.run, hstep]
      exact ih u t his ((exec_pending he).trans hs) h

/-! ### Reads change nothing and repeat (R45) -/

/-- A command that ends normally has its own effect and then responds: what is sent tells a normal end from a fault or a
refusal, and tells the bytes and the value. -/
theorem Completes.effect {i : Instr} {s t : State} {v : Word64} {out : List Byte} (h : Completes i s t v out) :
    ∃ u, Effect i s u v out ∧ t = respond u ⟨none, v⟩ out := by
  obtain ⟨he, hsent⟩ := h
  rcases exec_ends i s t he with ⟨c, _, _, hr⟩ | ⟨c, _, _, _, _, _, _, hr⟩ | ⟨u, v', out', hu, rfl⟩
  · have hlast := congrArg List.getLast? (hsent.symm.trans (congrArg State.sent hr))
    simp at hlast
  · have hlast := congrArg List.getLast? (hsent.symm.trans hr)
    simp at hlast
  · rw [respond_sent, hu.ports.2] at hsent
    obtain ⟨hbytes, hval⟩ := List.append_inj' hsent rfl
    have hout : out' = out :=
      List.map_injective_iff.2 (fun a b (hab : PortEvent.byte a = .byte b) => by injection hab) (List.append_cancel_left hbytes)
    have hv : v' = v := by simpa using hval
    subst hout hv
    exact ⟨u, hu, rfl⟩

/-- The six read commands (R45). -/
def isRead : Instr → Bool
  | .rdreg _ | .rdf _ | .rdnf _ | .rdnl _ | .rdcl _ | .rdcb _ _ => true
  | _ => false

/-- A read's own effect is none: it emits no byte, updates nothing, and applies with the same value whatever has been sent. -/
theorem Effect.of_isRead {i : Instr} {s u : State} {v : Word64} {out : List Byte} (h : Effect i s u v out)
    (hi : isRead i = true) : u = s ∧ out = [] ∧
      ∀ sent, Effect i { s with sent := sent } { s with sent := sent } v [] := by
  cases h with
  | rdreg _ r _ hv => exact ⟨rfl, rfl, fun _ => .rdreg _ r _ hv⟩
  | rdf _ b hf => exact ⟨rfl, rfl, fun _ => .rdf _ b hf⟩
  | rdnf _ n r hf hp hn hr => exact ⟨rfl, rfl, fun _ => .rdnf _ n r hf hp hn hr⟩
  | rdnl _ n r hf hp hn hr => exact ⟨rfl, rfl, fun _ => .rdnl _ n r hf hp hn hr⟩
  | rdcl _ b hf hv => exact ⟨rfl, rfl, fun _ => .rdcl _ b hf hv⟩
  | rdcb _ b j hf hv => exact ⟨rfl, rfl, fun _ => .rdcb _ b j hf hv⟩
  | _ => cases hi

/-- Settles O41: a read that ends normally has a read's effect, and so has the same read after it. -/
theorem readsHaveNoSideEffects : Obligations.ReadsHaveNoSideEffects := by
  unfold Obligations.ReadsHaveNoSideEffects
  intro i s t v out hi h
  have hread : isRead i = true := by
    rcases hi with ⟨_, rfl⟩ | ⟨_, rfl⟩ | ⟨_, rfl⟩ | ⟨_, rfl⟩ | ⟨_, rfl⟩ | ⟨_, _, rfl⟩ <;> rfl
  obtain ⟨u, hu, rfl⟩ := h.effect
  obtain ⟨rfl, rfl, hagain⟩ := hu.of_isRead hread
  exact ⟨rfl, rfl, _, (hagain _).completes⟩

/-! ### The container reads back (R50, R54) -/

theorem leBytes_succ (n v : Nat) : leBytes (n + 1) v = BitVec.ofNat 8 v :: leBytes n (v / 256) := by
  simp [leBytes, List.range_succ_eq_map, Nat.pow_succ', Nat.div_div_eq_div_mul]

@[simp] theorem length_leBytes (n v : Nat) : (leBytes n v).length = n := by simp [leBytes]

/-- R42: a number that fits in `n` bytes reads back from them. -/
theorem leNat_leBytes {n v : Nat} (h : v < 256 ^ n) : leNat (leBytes n v) = v := by
  induction n generalizing v with
  | zero =>
    obtain rfl : v = 0 := by simpa using h
    rfl
  | succ n ih =>
    rw [leBytes_succ, leNat, ih (Nat.div_lt_of_lt_mul (by rwa [Nat.pow_succ'] at h)), BitVec.toNat_ofNat]
    exact Nat.mod_add_div v 256

/-- A 64-bit field reads back (R42). -/
theorem ofNat_leNat_leBytes (w : Word64) : BitVec.ofNat 64 (leNat (leBytes 8 w.toNat)) = w := by
  rw [leNat_leBytes w.isLt, BitVec.ofNat_toNat, BitVec.setWidth_eq]

@[simp] theorem length_pairBytes (p : Byte × Word64) : (pairBytes p).length = 9 := by simp [pairBytes]

@[simp] theorem length_flatMap_pairBytes (ps : List (Byte × Word64)) : (ps.flatMap pairBytes).length = 9 * ps.length := by
  simp [List.length_flatMap, Nat.mul_comm]

/-- The pairs read back, whatever bytes follow them (R50). -/
theorem readPairs_flatMap (ps : List (Byte × Word64)) (rest : List Byte) :
    readPairs ps.length (ps.flatMap pairBytes ++ rest) = ps := by
  induction ps with
  | nil => rfl
  | cons p ps ih =>
    have htake : (leBytes 8 p.2.toNat ++ (ps.flatMap pairBytes ++ rest)).take 8 = leBytes 8 p.2.toNat :=
      List.take_left' (length_leBytes 8 _)
    have hdrop : (leBytes 8 p.2.toNat ++ (ps.flatMap pairBytes ++ rest)).drop 8 = ps.flatMap pairBytes ++ rest :=
      List.drop_left' (length_leBytes 8 _)
    simp [readPairs, pairBytes, htake, hdrop, ih, ofNat_leNat_leBytes]

/-- The bytes between an offset and a length are the middle part of three. -/
theorem take_drop_middle {a b c : List Byte} {n m : Nat} (ha : a.length = n) (hb : b.length = m) :
    ((a ++ (b ++ c)).drop n).take m = b := by
  rw [List.drop_left' ha, List.take_left' hb]

section
variable {magic : List Byte} (c : Container) (hm : magic.length = 4)
include hm

/-- R50: the container is 14 + 9 k + P + 8 bytes. -/
theorem length_containerBytes :
    (containerBytes magic c).length = 14 + 9 * c.pairs.length + c.payload.length + 8 := by
  simp [containerBytes, hm]; omega

/-- R50: the symbol count stands at offset 12. -/
theorem symbolCountField_containerBytes (hk : c.pairs.length ≤ 256) :
    symbolCountField (containerBytes magic c) = c.pairs.length := by
  have hcut : containerBytes magic c = (magic ++ leBytes 8 c.length.toNat) ++ (leBytes 2 c.pairs.length ++
      (c.pairs.flatMap pairBytes ++ c.payload ++ leBytes 8 c.totalBits.toNat)) := by simp [containerBytes]
  rw [symbolCountField, hcut, take_drop_middle (by simp [hm]) (by simp), leNat_leBytes (by omega)]

/-- R54: the fields read back. -/
theorem readFields_containerBytes : readFields c.pairs.length (containerBytes magic c) = c := by
  have hlen := length_containerBytes c hm
  have hlength : ((containerBytes magic c).drop 4).take 8 = leBytes 8 c.length.toNat := by
    rw [containerBytes]; simp only [List.append_assoc]
    exact take_drop_middle hm (by simp)
  have hpairs : (containerBytes magic c).drop 14 =
      c.pairs.flatMap pairBytes ++ (c.payload ++ leBytes 8 c.totalBits.toNat) := by
    rw [containerBytes, List.append_assoc, List.append_assoc]
    exact List.drop_left' (by simp [hm])
  have hpayload : ((containerBytes magic c).drop (14 + 9 * c.pairs.length)).take c.payload.length = c.payload := by
    rw [containerBytes, List.append_assoc]
    exact take_drop_middle (by simp [hm]; omega) rfl
  have htotal : (containerBytes magic c).drop ((containerBytes magic c).length - 8) = leBytes 8 c.totalBits.toNat := by
    rw [hlen, containerBytes]
    exact List.drop_left' (by simp [hm]; omega)
  have hsize : (containerBytes magic c).length - 14 - 9 * c.pairs.length - 8 = c.payload.length := by omega
  simp only [readFields, hlength, hpairs, hsize, hpayload, htotal, readPairs_flatMap, ofNat_leNat_leBytes]

end

/-- Settles O53: the container's bytes pass each of R54's checks, and then every field reads back. -/
theorem containerReadsBack : Obligations.ContainerReadsBack := by
  unfold Obligations.ContainerReadsBack
  intro magic c hm h1 h256
  have hlen := length_containerBytes c hm
  have hcount := symbolCountField_containerBytes c hm h256
  have hmagic : (containerBytes magic c).take 4 = magic := by
    simp only [containerBytes, List.append_assoc]
    exact List.take_left' hm
  refine ⟨?_, hlen⟩
  rw [readContainer, if_neg (by omega), if_neg (not_not.2 hmagic), hcount, if_neg (by omega), if_neg (by omega),
    readFields_containerBytes c hm]

end Sys2Proof.Machine

/-! SUPPORT. 30_encoding.md: decoder, encoder and opcode table agree (R60 to R67), and what leaves the block when a word is taken
(R70 to R72). -/

namespace Sys2Proof.Machine

/-! ### The fields of a word (R60, R61) -/

/-- A word with given fields is the word of those fields. -/
theorem commandWord_eq {w : CmdWord} {op sym : Byte} {imm : Word64} (hop : opField w = op) (hsym : symField w = sym)
    (himm : immField w = imm) : commandWord op sym imm = w := by
  subst hop hsym himm
  exact commandWord_fields w

/-- A doubleword whose bits from `n` up are 0 is its low `n` bits, zero-extended. -/
theorem setWidth_low {x : Word64} {n : Nat} (h : ∀ k, n ≤ k → k < 64 → x.getLsbD k = false) :
    (x.extractLsb' 0 n).setWidth 64 = x := by
  apply BitVec.eq_of_getLsbD_eq
  intro k hk
  by_cases hn : k < n
  · simp [hk, hn]
  · simp [hn, h k (not_lt.1 hn) hk]

/-- The bits above an operand are 0 as the decoder's formats check it, by extracting them. -/
theorem setWidth_low_of_extract {x : Word64} {n m : Nat} (hnm : n + m = 64) (h : x.extractLsb' n m = 0) :
    (x.extractLsb' 0 n).setWidth 64 = x := by
  refine setWidth_low fun k hk h64 => ?_
  have hbit := congrArg (fun y => y.getLsbD (k - n)) h
  simpa [show k - n < m by omega, show n + (k - n) = k by omega] using hbit

/-- The bits above an operand are 0 as the opcode table checks it, by its mask. -/
theorem setWidth_low_of_mask {x : Word64} {n : Nat} (h : x &&& BitVec.allOnes 64 <<< n = 0) :
    (x.extractLsb' 0 n).setWidth 64 = x := by
  refine setWidth_low fun k hk h64 => ?_
  have hmask : (BitVec.allOnes 64 <<< n).getLsbD k = true := by
    rw [BitVec.getLsbD_shiftLeft, BitVec.getLsbD_allOnes]
    simp [h64, hk, show k - n < 64 by omega]
  have hand : (x.getLsbD k && (BitVec.allOnes 64 <<< n).getLsbD k) = false := by
    rw [← BitVec.getLsbD_and, h]
    exact BitVec.getLsbD_zero
  rwa [hmask, Bool.and_true] at hand

/-! ### A word that decodes is the encoding (R61, R64 to R66)

One lemma per operand format: what the format reads from a word encodes back to the word. -/

section
variable {w : CmdWord} {op : Byte} {j : Instr}

theorem encode_of_formatN {i : Instr} (h : formatN i w = .ok j) (hi : encode i = commandWord op 0 0)
    (hop : (opField w).toNat = op.toNat) : encode j = w := by
  unfold formatN at h
  split at h
  · rename_i hz
    cases h
    exact hi.trans (commandWord_eq (BitVec.eq_of_toNat_eq hop) hz.1 hz.2)
  · cases h

theorem encode_of_formatS {i : Byte → Instr} (h : formatS i w = .ok j) (hi : ∀ b, encode (i b) = commandWord op b 0)
    (hop : (opField w).toNat = op.toNat) : encode j = w := by
  unfold formatS at h
  split at h
  · rename_i hz
    cases h
    exact (hi _).trans (commandWord_eq (BitVec.eq_of_toNat_eq hop) rfl hz)
  · cases h

theorem encode_of_formatI {i : NodeIx → Instr} (h : formatI i w = .ok j)
    (hi : ∀ n, encode (i n) = commandWord op 0 (n.setWidth 64)) (hop : (opField w).toNat = op.toNat) : encode j = w := by
  unfold formatI at h
  split at h
  · rename_i hz
    cases h
    exact (hi _).trans (commandWord_eq (BitVec.eq_of_toNat_eq hop) hz.1 (setWidth_low_of_extract rfl hz.2).symm)
  · cases h

theorem encode_of_formatSI {i : Byte → Word64 → Instr} (h : formatSI i w = .ok j)
    (hi : ∀ b v, encode (i b v) = commandWord op b v) (hop : (opField w).toNat = op.toNat) : encode j = w := by
  cases h
  exact (hi _ _).trans (commandWord_eq (BitVec.eq_of_toNat_eq hop) rfl rfl)

theorem encode_of_formatSJ {i : Byte → BitVec 2 → Instr} (h : formatSJ i w = .ok j)
    (hi : ∀ b n, encode (i b n) = commandWord op b (n.setWidth 64)) (hop : (opField w).toNat = op.toNat) : encode j = w := by
  unfold formatSJ at h
  split at h
  · rename_i hz
    cases h
    exact (hi _ _).trans (commandWord_eq (BitVec.eq_of_toNat_eq hop) rfl (setWidth_low_of_extract rfl hz).symm)
  · cases h

end

/-- Whatever row `op` selects, the command read by the row's format has the word as its encoding, register limits aside. -/
theorem encode_of_decodeRow {w : CmdWord} {i : Instr} (h : decodeRow w = .ok i) : encode i = w := by
  unfold decodeRow at h
  split at h <;> rename_i hop
  case h_1 | h_2 | h_8 | h_11 | h_15 | h_16 | h_18 => exact encode_of_formatN h rfl hop
  case h_3 | h_5 | h_7 | h_12 | h_14 | h_17 => exact encode_of_formatS h (fun _ => rfl) hop
  case h_4 | h_6 => exact encode_of_formatSI h (fun _ _ => rfl) hop
  case h_9 | h_10 => exact encode_of_formatI h (fun _ => rfl) hop
  case h_13 => exact encode_of_formatSJ h (fun _ _ => rfl) hop
  case h_19 => cases h

/-- The register check passes the well-formed commands, unchanged (R66). -/
theorem checkRegister_ok {i j : Instr} (h : checkRegister i = .ok j) : j = i ∧ i.wellFormed = true := by
  cases i with
  | rdreg r =>
    simp only [checkRegister] at h
    split at h
    · cases h; exact ⟨rfl, by assumption⟩
    · cases h
  | wrreg r v =>
    simp only [checkRegister] at h
    split at h
    · cases h; exact ⟨rfl, by assumption⟩
    · cases h
  | _ => cases h; exact ⟨rfl, rfl⟩

/-- Settles O1: each command's format gives its operands back, and the register check passes a well-formed command. -/
theorem decodeEncodeRoundTrip : Obligations.DecodeEncodeRoundTrip := by
  unfold Obligations.DecodeEncodeRoundTrip
  intro i hi
  exact decode_encode hi

/-- Settles O2: the row's format gives back the whole word, and the register check passes only well-formed commands. -/
theorem decodedWordIsTheEncoding : Obligations.DecodedWordIsTheEncoding := by
  unfold Obligations.DecodedWordIsTheEncoding
  intro w i h
  unfold decode at h
  split at h
  · rename_i j hj
    obtain ⟨rfl, hw⟩ := checkRegister_ok h
    exact ⟨encode_of_decodeRow hj, hw⟩
  · cases h

/-! ### The opcode table (R63) -/

section
variable {row : OpcodeRow} {w : CmdWord} {op : Byte}

/-- What it is to select a row, field by field: every pattern has 0 in `sym` and `imm`, and every mask has all of `op`. -/
theorem selects_fields {sym : Byte} {imm : Word64} (h : row.selects w = true) (hp : row.pattern = commandWord op 0 0)
    (hm : row.mask = commandWord (BitVec.allOnes 8) sym imm) :
    opField w = op ∧ symField w &&& sym = 0 ∧ immField w &&& imm = 0 := by
  have hw : commandWord (opField w) (symField w &&& sym) (immField w &&& imm) = commandWord op 0 0 := by
    rw [← hp, ← beq_iff_eq.1 h, hm]
    conv_rhs => rw [← commandWord_fields w]
    rw [Laws.commandWord_and, BitVec.and_allOnes]
  exact ⟨by simpa using congrArg opField hw, by simpa using congrArg symField hw, by simpa using congrArg immField hw⟩

/-! One lemma per operand format: a word that selects a row of the format, from its operands. -/

theorem word_of_selectsN (h : row.selects w = true) (hp : row.pattern = commandWord op 0 0)
    (hm : row.mask = commandWord (BitVec.allOnes 8) (BitVec.allOnes 8) (BitVec.allOnes 64)) : commandWord op 0 0 = w := by
  obtain ⟨hop, hsym, himm⟩ := selects_fields h hp hm
  exact commandWord_eq hop (BitVec.and_allOnes.symm.trans hsym) (BitVec.and_allOnes.symm.trans himm)

theorem word_of_selectsS (h : row.selects w = true) (hp : row.pattern = commandWord op 0 0)
    (hm : row.mask = commandWord (BitVec.allOnes 8) 0 (BitVec.allOnes 64)) : commandWord op (symField w) 0 = w := by
  obtain ⟨hop, -, himm⟩ := selects_fields h hp hm
  exact commandWord_eq hop rfl (BitVec.and_allOnes.symm.trans himm)

theorem word_of_selectsSI (h : row.selects w = true) (hp : row.pattern = commandWord op 0 0)
    (hm : row.mask = commandWord (BitVec.allOnes 8) 0 0) : commandWord op (symField w) (immField w) = w := by
  obtain ⟨hop, -, -⟩ := selects_fields h hp hm
  exact commandWord_eq hop rfl rfl

theorem word_of_selectsI (h : row.selects w = true) (hp : row.pattern = commandWord op 0 0)
    (hm : row.mask = commandWord (BitVec.allOnes 8) (BitVec.allOnes 8) (BitVec.allOnes 64 <<< 9)) :
    commandWord op 0 (((immField w).extractLsb' 0 9).setWidth 64) = w := by
  obtain ⟨hop, hsym, himm⟩ := selects_fields h hp hm
  exact commandWord_eq hop (BitVec.and_allOnes.symm.trans hsym) (setWidth_low_of_mask himm).symm

theorem word_of_selectsSJ (h : row.selects w = true) (hp : row.pattern = commandWord op 0 0)
    (hm : row.mask = commandWord (BitVec.allOnes 8) 0 (BitVec.allOnes 64 <<< 2)) :
    commandWord op (symField w) (((immField w).extractLsb' 0 2).setWidth 64) = w := by
  obtain ⟨hop, -, himm⟩ := selects_fields h hp hm
  exact commandWord_eq hop rfl (setWidth_low_of_mask himm).symm

end

/-- A word that selects a row is the encoding of a command of that row, register limits aside. -/
theorem encode_of_selects {row : OpcodeRow} {w : CmdWord} (hrow : row ∈ opcodeTable) (h : row.selects w = true) :
    ∃ i : Instr, i.mnemonic = row.mnemonic ∧ encode i = w := by
  simp only [opcodeTable, List.cons_append, List.nil_append, List.mem_cons, List.not_mem_nil, or_false] at hrow
  rcases hrow with rfl | rfl | rfl | rfl | rfl | rfl | rfl | rfl | rfl | rfl | rfl | rfl | rfl | rfl | rfl | rfl | rfl | rfl
  · exact ⟨.nop, rfl, word_of_selectsN h rfl rfl⟩
  · exact ⟨.clr, rfl, word_of_selectsN h rfl rfl⟩
  · exact ⟨.rdreg _, rfl, word_of_selectsS h rfl rfl⟩
  · exact ⟨.wrreg _ _, rfl, word_of_selectsSI h rfl rfl⟩
  · exact ⟨.acc _, rfl, word_of_selectsS h rfl rfl⟩
  · exact ⟨.ldf _ _, rfl, word_of_selectsSI h rfl rfl⟩
  · exact ⟨.rdf _, rfl, word_of_selectsS h rfl rfl⟩
  · exact ⟨.build, rfl, word_of_selectsN h rfl rfl⟩
  · exact ⟨.rdnf _, rfl, word_of_selectsI h rfl rfl⟩
  · exact ⟨.rdnl _, rfl, word_of_selectsI h rfl rfl⟩
  · exact ⟨.gen, rfl, word_of_selectsN h rfl rfl⟩
  · exact ⟨.rdcl _, rfl, word_of_selectsS h rfl rfl⟩
  · exact ⟨.rdcb _ _, rfl, word_of_selectsSJ h rfl rfl⟩
  · exact ⟨.enc _, rfl, word_of_selectsS h rfl rfl⟩
  · exact ⟨.flush, rfl, word_of_selectsN h rfl rfl⟩
  · exact ⟨.decbeg, rfl, word_of_selectsN h rfl rfl⟩
  · exact ⟨.dec _, rfl, word_of_selectsS h rfl rfl⟩
  · exact ⟨.decend, rfl, word_of_selectsN h rfl rfl⟩

/-- The encoding of a well-formed command selects the command's own row. -/
theorem encode_selects : ∀ i : Instr, Laws.EncodeFitsRow.Statement i
  | .nop => Laws.EncodeFitsRow.nop
  | .clr => Laws.EncodeFitsRow.clr
  | .rdreg r => Laws.EncodeFitsRow.rdreg r
  | .wrreg r v => Laws.EncodeFitsRow.wrreg r v
  | .acc b => Laws.EncodeFitsRow.acc b
  | .ldf b f => Laws.EncodeFitsRow.ldf b f
  | .rdf b => Laws.EncodeFitsRow.rdf b
  | .build => Laws.EncodeFitsRow.build
  | .rdnf n => Laws.EncodeFitsRow.rdnf n
  | .rdnl n => Laws.EncodeFitsRow.rdnl n
  | .gen => Laws.EncodeFitsRow.gen
  | .rdcl b => Laws.EncodeFitsRow.rdcl b
  | .rdcb b j => Laws.EncodeFitsRow.rdcb b j
  | .enc b => Laws.EncodeFitsRow.enc b
  | .flush => Laws.EncodeFitsRow.flush
  | .decbeg => Laws.EncodeFitsRow.decbeg
  | .dec b => Laws.EncodeFitsRow.dec b
  | .decend => Laws.EncodeFitsRow.decend

/-- The limits of R66, read from the encoding's `sym` field, are well-formedness. -/
theorem wellFormed_iff_limits (i : Instr) : i.wellFormed = true ↔
    (i.mnemonic = "RDREG" → (symField (encode i)).toNat ≤ 13) ∧
    (i.mnemonic = "WRREG" → (symField (encode i)).toNat = 6 ∨ (symField (encode i)).toNat = 7) := by
  cases i with
  | rdreg r => simp [Instr.wellFormed, Instr.mnemonic, encode]
  | wrreg r v => simp [Instr.wellFormed, Instr.mnemonic, encode, BitVec.toNat_eq]
  | _ => simp [Instr.wellFormed, Instr.mnemonic]

/-- Every mask has all of `op`, so a word selects a row only by the row's opcode. -/
theorem opField_of_selects {row : OpcodeRow} {w : CmdWord} (hrow : row ∈ opcodeTable) (h : row.selects w = true) :
    opField row.pattern = opField w := by
  have hmask : ∀ row ∈ opcodeTable, opField row.mask = BitVec.allOnes 8 := by decide
  have hand : opField (w &&& row.mask) = opField w &&& opField row.mask := BitVec.extractLsb'_and
  rw [← beq_iff_eq.1 h, hand, hmask row hrow, BitVec.and_allOnes]

/-- No two rows of the table have one opcode. -/
theorem opcodes_nodup : (opcodeTable.map fun row => opField row.pattern).Nodup := by decide

/-- A word selects at most one row. -/
theorem selects_unique {row row' : OpcodeRow} {w : CmdWord} (hrow : row ∈ opcodeTable) (hrow' : row' ∈ opcodeTable)
    (h : row.selects w = true) (h' : row'.selects w = true) : row = row' :=
  List.inj_on_of_nodup_map opcodes_nodup hrow hrow' ((opField_of_selects hrow h).trans (opField_of_selects hrow' h').symm)

/-- The rows that a word selects are at most one in number. -/
theorem selected_length_le_one (w : CmdWord) : (opcodeTable.filter fun row => row.selects w).length ≤ 1 := by
  have hsame : ∀ op ∈ (opcodeTable.filter fun row => row.selects w).map fun row => opField row.pattern, op = opField w := by
    intro op hop
    obtain ⟨row, hrow, rfl⟩ := List.mem_map.1 hop
    obtain ⟨hmem, hsel⟩ := List.mem_filter.1 hrow
    exact opField_of_selects hmem hsel
  have hnodup : ((opcodeTable.filter fun row => row.selects w).map fun row => opField row.pattern).Nodup :=
    opcodes_nodup.sublist (List.filter_sublist.map _)
  rw [List.eq_replicate_of_mem hsame, List.nodup_replicate, List.length_map] at hnodup
  exact hnodup

/-- Settles O3: the encodings are the words that select a row, well-formedness is the register limits, and an opcode stands in one
row only. -/
theorem decodeFollowsOpcodeTable : Obligations.DecodeFollowsOpcodeTable := by
  unfold Obligations.DecodeFollowsOpcodeTable
  refine ⟨fun w => ⟨?_, ?_⟩, ?_, selected_length_le_one⟩
  · rintro ⟨i, hi⟩
    obtain ⟨rfl, hw⟩ := decodedWordIsTheEncoding w i hi
    obtain ⟨row, hrow, hm, hsel⟩ := encode_selects i hw
    exact ⟨row, hrow, hsel, hm ▸ (wellFormed_iff_limits i).1 hw⟩
  · rintro ⟨row, hrow, hsel, hlimits⟩
    obtain ⟨i, hm, rfl⟩ := encode_of_selects hrow hsel
    exact ⟨i, decode_encode ((wellFormed_iff_limits i).2 (hm ▸ hlimits))⟩
  · intro w i row hi hrow hsel
    obtain ⟨rfl, hw⟩ := decodedWordIsTheEncoding w i hi
    obtain ⟨row', hrow', hm, hsel'⟩ := encode_selects i hw
    rw [selects_unique hrow hrow' hsel hsel', hm]

/-- Settles O4: ten closed words, each decoded by evaluation. -/
theorem workedWordsDecode : Obligations.WorkedWordsDecode := by
  unfold Obligations.WorkedWordsDecode
  decide

/-! ### What leaves the block (R70, R71) -/

/-- From `s` to `t` some bytes leave the block and then one response; with `err = 1` there is no byte and the value is 0. -/
def Responds (s t : State) : Prop :=
  ∃ (out : List Byte) (r : Response), t.sent = s.sent ++ out.map .byte ++ [.response r] ∧
    (r.err = true → out = [] ∧ r.value = 0)

/-- An error response without a byte. -/
theorem Responds.of_error {s t : State} {c : Cause} (h : t.sent = s.sent ++ [.response ⟨some c, 0⟩]) : Responds s t :=
  ⟨[], ⟨some c, 0⟩, by simpa using h, fun _ => ⟨rfl, rfl⟩⟩

theorem Refused.responds {c : Cause} {s t : State} (h : Refused c s t) : Responds s t := .of_error (congrArg State.sent h)

theorem FaultEntered.responds {w : CmdWord} {c : Cause} {s t : State} (h : FaultEntered w c s t) : Responds s t := by
  obtain ⟨-, -, -, -, -, hsent⟩ := h
  exact .of_error hsent

/-- However a command ends, it responds. -/
theorem Ends.responds {i : Instr} {s t : State} (h : Ends i s t) : Responds s t := by
  cases h with
  | refused c _ _ hr => exact hr.responds
  | faulted c _ hf => exact hf.responds
  | normal u v out he ht => exact ⟨out, ⟨none, v⟩, by rw [ht, respond_sent, he.ports.2], nofun⟩

/-- A step that takes a word, legal or not, responds. -/
theorem step_responds {s t : State} {w : CmdWord} {rest : List HostInput} (hp : s.pending = .command w :: rest)
    (h : step s = .next t) : Responds s t := by
  rcases step_cases s t h with ⟨hq, _⟩ | ⟨_, hq, _⟩ | ⟨_, _, _, _, _, he⟩ | ⟨_, _, _, _, _, ⟨_, _, hr⟩ | ⟨_, hf⟩⟩
  · cases hp.symm.trans hq
  · cases hp.symm.trans hq
  · exact he.responds
  · exact hr.responds
  · exact hf.responds

/-- Settles O13: whichever way the step ends, it responds, and what it adds to what has left splits into bytes and responses. -/
theorem oneResponsePerCommand : Obligations.OneResponsePerCommand := by
  unfold Obligations.OneResponsePerCommand
  intro s t w rest hp h
  obtain ⟨out, r, hsent, herr⟩ := step_responds hp h
  exact ⟨out, r, hsent, responses_append s t out r hsent, outStream_append s t out r hsent, herr⟩

section
variable (r : Response)

/-! The fields of the response word (R70). -/

theorem word_err : r.word.extractLsb' 71 1 = BitVec.ofBool r.err := by
  rw [Response.word, BitVec.extractLsb'_append_eq_of_le (by decide), BitVec.extractLsb'_append_eq_of_le (by decide)]
  exact BitVec.extractLsb'_append_eq_left

theorem word_zeros : r.word.extractLsb' 68 3 = 0 := by
  rw [Response.word, BitVec.extractLsb'_append_eq_of_le (by decide), BitVec.extractLsb'_append_eq_of_le (by decide)]
  exact BitVec.extractLsb'_append_eq_right

theorem word_cause : r.word.extractLsb' 64 4 = causeBits r.cause := by
  rw [Response.word, BitVec.extractLsb'_append_eq_of_le (by decide)]
  exact BitVec.extractLsb'_append_eq_right

theorem word_value : r.word.extractLsb' 0 64 = r.value := BitVec.extractLsb'_append_eq_right

end

/-- Settles O5: the four fields, and the code of each cause. -/
theorem responseWordLayout : Obligations.ResponseWordLayout := by
  unfold Obligations.ResponseWordLayout
  intro r
  refine ⟨?_, word_zeros r, ?_, word_value r⟩
  · rw [word_err, Response.err]
    cases r.cause with
    | none => decide
    | some c => simp
  · rw [word_cause]
    cases r.cause with
    | none => rfl
    | some c => cases c <;> rfl

/-! ### The step (R72) -/

/-- Settles O6: the step's own equation for a word that decodes. -/
theorem stepRunsDecodedCommand : Obligations.StepRunsDecodedCommand := by
  unfold Obligations.StepRunsDecodedCommand
  intro s w rest i hp hd
  simp only [step, hp, hd]

end Sys2Proof.Machine

/-! SUPPORT. 40_frequency.md: ACC, LDF and RDF, their faults in order and their exact counts (R80 to R82). -/

namespace Sys2Proof.Machine

/-! ### Commands that check the phase first (R144, R145) -/

section
variable {i : Instr} {s : State} {phases : List Phase} {body : Result}

/-- An unfaulted command that answers with fault entry raises that fault (R145). -/
theorem Raises.of_exec {c : Cause} (hf : s.fault = none) (h : exec i s = raise (encode i) c s) : Raises i s c := by
  obtain ⟨t, ht, he⟩ := raise_entered (encode i) c s hf
  exact ⟨t, h.trans ht, he⟩

/-- Outside its phases an unfaulted command raises SEQUENCE (R144). -/
theorem Raises.of_phase (hf : s.fault = none) (hp : s.phase ∉ phases)
    (h : exec i s = unlessFaulted s (requirePhase phases (encode i) s body)) : Raises i s .sequence :=
  .of_exec hf (by rw [h, unlessFaulted_of_none _ _ hf, requirePhase, if_neg hp])

/-- In one of its phases an unfaulted command goes on to its own checks (R144). -/
theorem exec_eq_of_phase (hf : s.fault = none) (hp : s.phase ∈ phases)
    (h : exec i s = unlessFaulted s (requirePhase phases (encode i) s body)) : exec i s = body := by
  rw [h, unlessFaulted_of_none _ _ hf, requirePhase, if_pos hp]

end

/-! ### What ACC and LDF do in COUNT (R80, R81) -/

section
variable {s : State}

theorem exec_acc_of_count (b : Byte) (hf : s.fault = none) (hp : s.phase = .count) :
    exec (.acc b) s =
      if s.total.toNat = 2 ^ 64 - 1 then raise (encode (.acc b)) .overflow s else rsp 0 [] (countByte b s) :=
  exec_eq_of_phase hf (List.mem_singleton.2 hp) rfl

theorem exec_ldf_of_count (b : Byte) (f : Word64) (hf : s.fault = none) (hp : s.phase = .count) :
    exec (.ldf b f) s =
      if f = 0 then raise (encode (.ldf b f)) .format s
      else if freqAt s b ≠ 0 then raise (encode (.ldf b f)) .format s
      else if 2 ^ 64 ≤ s.total.toNat + f.toNat then raise (encode (.ldf b f)) .overflow s
      else rsp 0 [] (loadEntry b f s) :=
  exec_eq_of_phase hf (List.mem_singleton.2 hp) rfl

/-! ### The counts are exact (R9): where the counters agree with FREQ, no sum wraps -/

@[simp] theorem freqAt_respond (r : Response) (out : List Byte) (a : Byte) :
    freqAt (respond s r out) a = freqAt s a := rfl

theorem CountersInv.freqAt_countByte (h : CountersInv s) (b a : Byte) :
    freqAt (countByte b s) a = if a = b then freqAt s b + 1 else freqAt s a :=
  freqAt_write s (countByte b s) b _ h.canonical rfl a

theorem CountersInv.freqAt_loadEntry (h : CountersInv s) (b : Byte) (f : Word64) (a : Byte) :
    freqAt (loadEntry b f s) a = if a = b then f else freqAt s a :=
  freqAt_write s (loadEntry b f s) b f h.canonical rfl a

theorem toNat_succ {x : Word64} (h : x.toNat < 2 ^ 64 - 1) : (x + 1).toNat = x.toNat + 1 :=
  BitVec.toNat_add_of_lt (Nat.add_lt_of_lt_sub h)

theorem CountersInv.toNat_symcnt_succ (h : CountersInv s) {b : Byte} (hb : freqAt s b = 0) :
    (s.symcnt + 1).toNat = s.symcnt.toNat + 1 := by
  rw [h.symcnt_succ b hb, h.symcnt_eq]

theorem CountersInv.toNat_countByte_symcnt (h : CountersInv s) (b : Byte) :
    (countByte b s).symcnt.toNat = s.symcnt.toNat + (if freqAt s b = 0 then 1 else 0) := by
  rw [countByte_symcnt]
  split
  case isTrue hb => exact h.toNat_symcnt_succ hb
  case isFalse => rfl

end

/-! ### The statements -/

/-- Settles O22: no sum of ACC wraps, since the entry counted is at most TOTAL and TOTAL is below its greatest value. -/
theorem accCountsOneByte : Obligations.AccCountsOneByte := by
  unfold Obligations.AccCountsOneByte
  intro b s hf
  refine ⟨decode_encode (i := .acc b) rfl, fun hp => ?_, fun hp ht => ?_, fun hp ht hc => ?_⟩
  · exact .of_phase hf (mt List.mem_singleton.1 hp) rfl
  · exact .of_exec hf (by rw [exec_acc_of_count b hf hp, if_pos ht])
  · refine ⟨_, (Effect.acc s b hf hp ht.ne).completes, rfl, ?_, fun a ha => ?_, toNat_succ ht, hc.toNat_countByte_symcnt b⟩
    · rw [freqAt_respond, hc.freqAt_countByte, if_pos rfl, toNat_succ ((hc.freqAt_le_total b).trans_lt ht)]
    · rw [freqAt_respond, hc.freqAt_countByte, if_neg ha]

/-- Settles O23: each fault is LDF's next check once those before it pass; the load itself is of an entry not counted yet, so that
SYMCNT has room. -/
theorem ldfLoadsOneEntry : Obligations.LdfLoadsOneEntry := by
  unfold Obligations.LdfLoadsOneEntry
  intro b f s hf
  refine ⟨decode_encode (i := .ldf b f) rfl, fun hp => ?_, fun hp h0 => ?_, fun hp h0 hb => ?_, fun hp h0 hb ht => ?_,
    fun hp h0 hb ht hc => ?_⟩
  · exact .of_phase hf (mt List.mem_singleton.1 hp) rfl
  · exact .of_exec hf (by rw [exec_ldf_of_count b f hf hp, if_pos h0])
  · exact .of_exec hf (by rw [exec_ldf_of_count b f hf hp, if_neg h0, if_pos hb])
  · exact .of_exec hf (by rw [exec_ldf_of_count b f hf hp, if_neg h0, if_neg (not_not.2 hb), if_pos ht])
  · refine ⟨_, (Effect.ldf s b f hf hp h0 hb ht).completes, rfl, ?_, fun a ha => ?_, BitVec.toNat_add_of_lt ht,
      hc.toNat_symcnt_succ hb⟩
    · rw [freqAt_respond, hc.freqAt_loadEntry, if_pos rfl]
    · rw [freqAt_respond, hc.freqAt_loadEntry, if_neg ha]

/-- Settles O24: RDF's effect applies in every unfaulted state and updates nothing. -/
theorem rdfReadsEntry : Obligations.RdfReadsEntry := by
  unfold Obligations.RdfReadsEntry
  intro b s hf
  exact ⟨decode_encode (i := .rdf b) rfl, _, (Effect.rdf s b hf).completes, rfl⟩

end Sys2Proof.Machine

/-! SUPPORT. 41_tree.md: BUILD's greedy tree, which FREQ alone determines (R90, R93, R95), and the reads of its records (R91,
R92). -/

namespace Sys2Proof.Machine

/-! ### What BUILD does in COUNT (R90) -/

section
variable {s : State}

/-- NNODES has room for the arena's length, at most 511. -/
theorem CountersInv.nnodes_eq_length (hc : CountersInv s) {r : Active} (h : LoopInv (seedLeaves s) (buildTree s).1 [r]) :
    (installTree (buildTree s).1 r.ix s).nnodes.setWidth 64 = BitVec.ofNat 64 (buildTree s).1.length := by
  have hle := hc.symcnt_le
  have hlen := buildTree_length hc h
  exact BitVec.setWidth_ofNat_of_le_of_lt (by decide) (by omega)

/-- Where the counters agree with FREQ and a symbol is counted, BUILD's loop leaves one record active, and BUILD installs the
arena with that record as the root and answers NNODES. -/
theorem CountersInv.effect_build (hc : CountersInv s) (hf : s.fault = none) (hp : s.phase = .count) (h0 : s.symcnt ≠ 0) :
    ∃ r, LoopInv (seedLeaves s) (buildTree s).1 [r] ∧
      Effect .build s (installTree (buildTree s).1 r.ix s)
        ((installTree (buildTree s).1 r.ix s).nnodes.setWidth 64) [] := by
  obtain ⟨r, hr, hloop⟩ := buildTree_spec s hc h0
  refine ⟨r, hloop, ?_⟩
  rw [hc.nnodes_eq_length hloop]
  exact .build s r [] hf hp h0 hr

/-- In BUILD's arena every Internal record is past the leaves, has its children's sum and was the greedy choice. -/
theorem buildTree_internal (hc : CountersInv s) {r : Active} (h : LoopInv (seedLeaves s) (buildTree s).1 [r]) {k : Nat}
    {f : Word64} {l r' : NodeIx} (hk : (buildTree s).1[k]? = some (.internal f l r')) :
    f.toNat = freqOf (buildTree s).1 l.toNat + freqOf (buildTree s).1 r'.toNat ∧ greedyAt (buildTree s).1 k l r' := by
  have hge : (seedLeaves s).length ≤ k := by
    by_contra hlt
    obtain ⟨b, -, -, hb⟩ := buildTree_leaf hc h (hc.seedLeaves_length ▸ Nat.lt_of_not_le hlt)
    cases hk.symm.trans hb
  obtain ⟨_, _, _, hk', -, -, -, hsum⟩ :=
    (internalSound_iff _ _).1 (h.sound k hge (List.getElem?_eq_some_iff.1 hk).1)
  cases hk.symm.trans hk'
  exact ⟨hsum, h.greedy k f l r' hk hge⟩

/-! ### The tree is a function of FREQ (R93) -/

/-- Blocks with equal FREQ entries seed the same leaves, so R90's loop runs alike. -/
theorem buildTree_congr {s' : State} (h : ∀ b, freqAt s b = freqAt s' b) : buildTree s = buildTree s' := by
  have hseed : seedLeaves s = seedLeaves s' := by
    refine List.filterMap_congr fun a ha => ?_
    have hread : tableRead 0 s.freq a = tableRead 0 s'.freq a := by
      have hlt : a < 256 := List.mem_range.1 ha
      simpa [freqAt, Nat.mod_eq_of_lt hlt] using h (BitVec.ofNat 8 a)
    rw [hread]
  rw [buildTree, buildTree, hseed]

/-- Blocks with equal FREQ entries have equal SYMCNT. -/
theorem CountersInv.symcnt_congr {s' : State} (hc : CountersInv s) (hc' : CountersInv s')
    (h : ∀ b, freqAt s b = freqAt s' b) : s.symcnt = s'.symcnt := by
  refine BitVec.eq_of_toNat_eq ?_
  rw [hc.symcnt_eq, hc'.symcnt_eq, freqEntries, freqEntries]
  simp only [h]

/-- What BUILD writes, in terms of the arena alone: the last record is the root. -/
theorem CountersInv.build_writes {t : State} (hc : CountersInv s) (hf : s.fault = none) (hp : s.phase = .count)
    (h0 : s.symcnt ≠ 0) (ht : exec .build s = .next t) :
    t.nodes = (buildTree s).1 ∧ t.root = BitVec.ofNat 9 ((buildTree s).1.length - 1) ∧
      t.nnodes = BitVec.ofNat 9 (buildTree s).1.length := by
  obtain ⟨r, hloop, he⟩ := hc.effect_build hf hp h0
  cases ht.symm.trans he.completes.1
  have hlen := buildTree_length hc hloop
  have hpos := symcnt_pos h0
  refine ⟨rfl, ?_, rfl⟩
  rw [respond_root, installTree_root, hloop.root_last (seedLeaves_leaf s) (by omega)]

/-! ### One counted symbol (R95) -/

/-- Where one symbol alone is counted, its leaf alone is seeded: the leaves' symbols are different. -/
theorem seedLeaves_single {b : Byte} (hb : freqAt s b ≠ 0) (hother : ∀ a, a ≠ b → freqAt s a = 0) :
    seedLeaves s = [.leaf b (freqAt s b)] := by
  have hnodup : (seedLeaves s).Nodup := (seedLeaves_ascending s).imp fun hlt e => by simp [e] at hlt
  refine List.perm_singleton.1 ((List.perm_ext_iff_of_nodup hnodup (List.nodup_singleton _)).2 fun n => ?_)
  rw [mem_seedLeaves, List.mem_singleton]
  refine ⟨?_, fun e => ⟨b, hb, e⟩⟩
  rintro ⟨a, ha, rfl⟩
  rw [not_not.1 (mt (hother a) ha)]

/-- With one leaf seeded R90's loop makes no record. -/
theorem buildTree_single {n : Node} (h : seedLeaves s = [n]) : buildTree s = ([n], [⟨n.freq, 0⟩]) := by
  simp [buildTree, h, combine, activeFrom, takeLeast, leastKey]

end

/-! ### Reading a record (R91, R92) -/

section
variable {i : Instr} {s : State} {n : NodeIx} {value : Node → Word64}
  (h : exec i s = readNode (encode i) n value s) (hf : s.fault = none)
include h hf

/-- In COUNT there is no tree to read. -/
theorem readNode_sequence (hp : s.phase = .count) : Raises i s .sequence := .of_phase hf (by rw [hp]; decide) h

/-- In the other phases an index of NNODES or more names no record. -/
theorem readNode_range (hp : s.phase ≠ .count) (hn : s.nnodes.toNat ≤ n.toNat) : Raises i s .range := by
  have hm : s.phase ∈ [Phase.built, .coded, .decode, .done] := by
    revert hp
    cases s.phase <;> decide
  exact .of_exec hf ((exec_eq_of_phase hf hm h).trans (if_pos hn))

end

/-- In a tree every index below NNODES names a record. -/
theorem TreeShape.nodeAt_of_lt {s : State} (h : TreeShape s) {n : NodeIx} (hn : n.toNat < s.nnodes.toNat) :
    ∃ r, nodeAt s n = some r :=
  ⟨_, List.getElem?_eq_getElem (h.records ▸ hn)⟩

section
variable (n : Node)

/-! The fields of RDNL's value (R92). -/

theorem linkWord_left : (linkWord n).extractLsb' 0 9 = n.left := by
  rw [linkWord, BitVec.extractLsb'_setWidth_of_le (by decide)]
  exact BitVec.extractLsb'_append_eq_right

theorem linkWord_right : (linkWord n).extractLsb' 9 9 = n.right := by
  rw [linkWord, BitVec.extractLsb'_setWidth_of_le (by decide), BitVec.extractLsb'_append_eq_of_le (by decide)]
  exact BitVec.extractLsb'_append_eq_right

theorem linkWord_sym : (linkWord n).extractLsb' 18 8 = n.sym := by
  rw [linkWord, BitVec.extractLsb'_setWidth_of_le (by decide), BitVec.extractLsb'_append_eq_of_le (by decide),
    BitVec.extractLsb'_append_eq_of_le (by decide)]
  exact BitVec.extractLsb'_append_eq_right

theorem linkWord_kind : (linkWord n).extractLsb' 26 1 = n.kind := by
  rw [linkWord, BitVec.extractLsb'_setWidth_of_le (by decide), BitVec.extractLsb'_append_eq_of_le (by decide),
    BitVec.extractLsb'_append_eq_of_le (by decide)]
  exact BitVec.extractLsb'_append_eq_left

/-- The four fields take 27 bits, and above them the value is their zero-extension. -/
theorem linkWord_zeros : (linkWord n).extractLsb' 27 37 = 0 := by
  refine BitVec.eq_of_getLsbD_eq fun k _ => ?_
  simp [linkWord, BitVec.getLsbD_extractLsb']

end

/-! ### The statements -/

/-- Settles O25: R90's loop ends with everything it keeps, from which the tree's shape and each greedy choice are read off. -/
theorem buildMakesGreedyTree : Obligations.BuildMakesGreedyTree := by
  unfold Obligations.BuildMakesGreedyTree
  intro s hf
  refine ⟨decode_encode (i := .build) rfl, fun hp => ?_, fun hp h0 => ?_, fun hp h0 hc => ?_⟩
  · exact .of_phase hf (mt List.mem_singleton.1 hp) rfl
  · exact .of_exec hf ((exec_eq_of_phase hf (List.mem_singleton.2 hp) rfl).trans (if_pos h0))
  · obtain ⟨r, hloop, he⟩ := hc.effect_build hf hp h0
    exact ⟨_, he.completes, rfl, (installTree_shape hc hloop h0).congr rfl,
      fun k f l r' hk => buildTree_internal hc hloop hk⟩

/-- Settles O26: both blocks build one arena, and BUILD's writes are functions of the arena. -/
theorem buildDependsOnFreqOnly : Obligations.BuildDependsOnFreqOnly := by
  unfold Obligations.BuildDependsOnFreqOnly
  intro s s' t t' hc hc' hfreq hf hf' hp hp' h0 ht ht'
  obtain ⟨hnodes, hroot, hnnodes⟩ := hc.build_writes hf hp h0 ht
  obtain ⟨hnodes', hroot', hnnodes'⟩ := hc'.build_writes hf' hp' (hc.symcnt_congr hc' hfreq ▸ h0) ht'
  rw [← buildTree_congr hfreq] at hnodes' hroot' hnnodes'
  exact ⟨hnodes.trans hnodes'.symm, hroot.trans hroot'.symm, hnnodes.trans hnnodes'.symm⟩

/-- Settles O27: one leaf is seeded, and the loop adds no record to it. -/
theorem singleSymbolTreeIsOneLeaf : Obligations.SingleSymbolTreeIsOneLeaf := by
  unfold Obligations.SingleSymbolTreeIsOneLeaf
  intro s b hc hf hp hb hother
  have hseed := seedLeaves_single hb hother
  have htree := buildTree_single hseed
  have h0 : s.symcnt ≠ 0 := fun e => by
    have hlen := hc.seedLeaves_length
    rw [hseed, e] at hlen
    cases hlen
  have he := Effect.build s _ _ hf hp h0 (congrArg Prod.snd htree)
  rw [htree] at he
  exact ⟨_, he.completes, rfl, rfl, rfl⟩

/-- Settles O28: below NNODES there is a record, and RDNF's effect applies. -/
theorem rdnfReadsFrequency : Obligations.RdnfReadsFrequency := by
  unfold Obligations.RdnfReadsFrequency
  intro i s hf ht
  refine ⟨decode_encode (i := .rdnf i) rfl, readNode_sequence rfl hf, readNode_range rfl hf, fun hp hi => ?_⟩
  obtain ⟨n, hn⟩ := (ht.built hp).nodeAt_of_lt hi
  exact ⟨_, n, hn, (Effect.rdnf s i n hf hp hi hn).completes, rfl⟩

/-- Settles O29: below NNODES there is a record, RDNL's effect applies, and its value has the record's fields. -/
theorem rdnlReadsLinks : Obligations.RdnlReadsLinks := by
  unfold Obligations.RdnlReadsLinks
  intro i s hf ht
  refine ⟨decode_encode (i := .rdnl i) rfl, readNode_sequence rfl hf, readNode_range rfl hf, fun hp hi => ?_⟩
  obtain ⟨n, hn⟩ := (ht.built hp).nodeAt_of_lt hi
  exact ⟨_, linkWord n, n, hn, (Effect.rdnl s i n hf hp hi hn).completes, rfl, linkWord_left n, linkWord_right n,
    linkWord_sym n, linkWord_kind n, linkWord_zeros n⟩

end Sys2Proof.Machine

/-! SUPPORT. 42_codetable.md: the codes GEN makes from the tree (R100), and the reads of a code's length and of its chunks (R101,
R102). -/

namespace Sys2Proof.Machine

/-! ### The codes GEN makes (R100) -/

section
variable {s : State}

/-- A Leaf's frequency is its symbol's count (R28 item 2). -/
theorem TreeShape.leaf_freq (h : TreeShape s) {k : Nat} {b : Byte} {f : Word64} (hk : s.nodes[k]? = some (.leaf b f)) :
    f = freqAt s b := by
  obtain ⟨_, _, hk', -, hf⟩ := h.leaf_of_lt (h.leaf_counted hk).1
  cases hk.symm.trans hk'
  exact hf

theorem generateCodes_of_leaf {b : Byte} {f : Word64} (hn : nodeAt s s.root = some (.leaf b f)) :
    generateCodes s = .ok (tableWrite [] [] b.toNat [false]) := by
  rw [generateCodes, hn]

theorem generateCodes_of_internal (hr : isInternal s.nodes s.root.toNat = true) :
    generateCodes s = walk s.nodes Config.maxCodeLength s.root [] [] := by
  unfold isInternal at hr
  split at hr
  case h_1 f l r hn => rw [generateCodes, nodeAt, hn]
  case h_2 => cases hr

variable {t : Table (List Bool)} (hg : generateCodes s = .ok t)
include hg

/-- The code of a Leaf root's symbol is "0". -/
theorem codeAt_installCodes_of_leaf {b : Byte} {f : Word64} (hn : nodeAt s s.root = some (.leaf b f)) :
    codeAt (installCodes t s) b = [false] := by
  cases hg.symm.trans (generateCodes_of_leaf hn)
  exact tableRead_write_same Config.symbols [] [] b.toNat [false] (tableWf_nil _ _)

/-- Under an Internal root a counted symbol's code is the branches to the Leaf of that symbol. -/
theorem TreeShape.codeAt_installCodes_path (h : TreeShape s) (hr : isInternal s.nodes s.root.toNat = true) {b : Byte}
    (hb : freqAt s b ≠ 0) :
    ∃ i, TreePath s.nodes s.root (codeAt (installCodes t s) b) i ∧ nodeAt s i = some (.leaf b (freqAt s b)) := by
  obtain ⟨hcoded, hpath⟩ := walk_root_codes h hr ((generateCodes_of_internal hr).symm.trans hg) b
  obtain ⟨i, f, hp, hi⟩ := hpath (hcoded.2 hb)
  exact ⟨i, hp, h.leaf_freq hi ▸ hi⟩

/-- A symbol that is not counted has no code. -/
theorem TreeShape.codeAt_installCodes_uncounted (h : TreeShape s) (hc : CountersInv s) {b : Byte} (hb : freqAt s b = 0) :
    codeAt (installCodes t s) b = [] :=
  not_not.1 fun hne => ((installCodes_codes hc h hg).present rfl b).1 hne hb

end

/-! ### Reading a code (R101, R102) -/

/-- While CODEV is 0 an unfaulted read of CODE raises SEQUENCE (R144). -/
theorem Raises.of_codev {i : Instr} {s : State} {body : Result} (hf : s.fault = none) (hv : s.codev = false)
    (h : exec i s = unlessFaulted s (requireCodev (encode i) s body)) : Raises i s .sequence :=
  .of_exec hf (by rw [h, unlessFaulted_of_none _ _ hf, requireCodev, hv, if_neg Bool.false_ne_true])

/-- The length field has room for 255 (R23). -/
theorem toNat_codeLength {bits : List Bool} (h : bits.length ≤ Config.maxCodeLength) :
    (codeLength bits).toNat = bits.length := by
  have hlt : bits.length < 2 ^ 8 := Nat.lt_succ_of_le h
  rw [codeLength, BitVec.toNat_ofNat, Nat.mod_eq_of_lt hlt]

theorem bitsToNat_append_singleton (bits : List Bool) (b : Bool) : bitsToNat (bits ++ [b]) = Nat.bit b (bitsToNat bits) := by
  rw [bitsToNat, List.foldl_concat, ← bitsToNat, Nat.bit_val]

/-- The number's bits from the least significant one up are the list's from its end. -/
theorem testBit_bitsToNat (bits : List Bool) (k : Nat) : (bitsToNat bits).testBit k = bits.reverse.getD k false := by
  induction bits using List.reverseRecOn generalizing k with
  | nil => exact Nat.zero_testBit k
  | append_singleton bits b ih =>
    rw [bitsToNat_append_singleton, List.reverse_concat]
    cases k with
    | zero => exact Nat.testBit_bit_zero b _
    | succ k => exact (Nat.testBit_bit_succ k b _).trans (ih k)

/-- Bit `63 - u` of a chunk is the chunk's code bit `u` (R102). -/
theorem getLsbD_codeChunk (bits : List Bool) (j : BitVec 2) {u : Nat} (hu : u < 64) :
    (codeChunk bits j).getLsbD (63 - u) = bits.getD (64 * j.toNat + u) false := by
  have hlt : 63 - u < 64 := by omega
  have hpos : 64 - 1 - (63 - u) = u := by omega
  rw [codeChunk, BitVec.getLsbD_ofNat, testBit_bitsToNat, List.getD_eq_getElem?_getD, List.getElem?_reverse (by simpa)]
  simp [hlt, hpos, hu]

/-! ### The statements -/

/-- Settles O30: GEN's effect applies, and its table is read at the three kinds of entries. -/
theorem genRecordsTreePaths : Obligations.GenRecordsTreePaths := by
  unfold Obligations.GenRecordsTreePaths
  intro s hf
  refine ⟨decode_encode (i := .gen) rfl, fun hp => .of_phase hf (mt List.mem_singleton.1 hp) rfl, fun hp hc h => ?_⟩
  obtain ⟨t, hg⟩ := generateCodes_ok hc h
  exact ⟨_, (Effect.gen s t hf hp hg).completes, rfl, fun b => h.codeAt_installCodes_uncounted hg hc,
    fun b f => codeAt_installCodes_of_leaf hg, fun hr b => h.codeAt_installCodes_path hg hr⟩

/-- Settles O31: the answer is the length field, which no code of a coded block overflows. -/
theorem rdclReadsLength : Obligations.RdclReadsLength := by
  unfold Obligations.RdclReadsLength
  intro b s hf
  refine ⟨decode_encode (i := .rdcl b) rfl, fun hv => .of_codev hf hv rfl, fun hv hc => ?_⟩
  refine ⟨_, _, (Effect.rdcl s b hf hv).completes, rfl, ?_⟩
  rw [BitVec.toNat_setWidth_of_le (by decide), toNat_codeLength (hc.bounded hv b)]

/-- Settles O32: the answer is the chunk, whose bits are the code's. -/
theorem rdcbReadsChunk : Obligations.RdcbReadsChunk := by
  unfold Obligations.RdcbReadsChunk
  intro b j s hf
  exact ⟨decode_encode (i := .rdcb b j) rfl, fun hv => .of_codev hf hv rfl, fun hv =>
    ⟨_, _, (Effect.rdcb s b j hf hv).completes, rfl, fun _ hu => getLsbD_codeChunk (codeAt s b) j hu⟩⟩

end Sys2Proof.Machine

/-! SUPPORT. 43_packer.md: what ENC and FLUSH do to the bit stream (R110, R111), and the packer's stream over a whole input
(R112). -/

namespace Sys2Proof.Machine

/-! ### The bits of bytes, by position (R41) -/

theorem getD_byteBits (b : Byte) {k : Nat} (hk : k < 8) : (byteBits b).getD k false = b.getLsbD (7 - k) := by
  rw [List.getD_eq_getElem?_getD, byteBits_getElem b k hk, Option.getD_some]

/-- Bit `8 m + k` of a stream of bytes is bit `7 - k` of byte `m`; past the end both read 0. -/
theorem getD_flatMap_byteBits (out : List Byte) (m : Nat) {k : Nat} (hk : k < 8) :
    (out.flatMap byteBits).getD (8 * m + k) false = (out.getD m 0).getLsbD (7 - k) := by
  induction out generalizing m with
  | nil => simp
  | cons b out ih =>
    rw [List.flatMap_cons]
    cases m with
    | zero =>
      rw [Nat.mul_zero, Nat.zero_add, List.getD_append _ _ _ _ hk, getD_byteBits b hk, List.getD_cons_zero]
    | succ m =>
      rw [List.getD_append_right _ _ _ _ (by rw [byteBits_length]; omega), byteBits_length, List.getD_cons_succ, ← ih m]
      congr 1
      omega

theorem length_flatMap_byteBits (out : List Byte) : (out.flatMap byteBits).length = 8 * out.length := by
  simp [List.length_flatMap, byteBits_length, Nat.mul_comm]

/-- Padding with the value that is read past the end changes no reading. -/
theorem getD_append_replicate (bits : List Bool) (p i : Nat) :
    (bits ++ List.replicate p false).getD i false = bits.getD i false := by
  rcases Nat.lt_or_ge i bits.length with hi | hi
  · exact List.getD_append _ _ _ _ hi
  · rw [List.getD_append_right _ _ _ _ hi, List.getD_eq_default bits false hi, List.getD_eq_getElem?_getD,
      List.getElem?_getD_replicate_default_eq]

/-! ### The bits waiting in ACC (R19) -/

theorem length_waitingBits (s : State) : (waitingBits s).length = s.nbits.toNat :=
  List.length_take_of_le s.nbits.isLt.le

theorem waitingBits_eq_nil {s : State} (hn : s.nbits = 0) : waitingBits s = [] := by
  rw [waitingBits, hn]; rfl

/-- ACC is the waiting bits and then zeros, where its unfilled bits are 0. -/
theorem unfilledZero.byteBits_acc {s : State} (h : unfilledZero s) :
    byteBits s.acc = waitingBits s ++ List.replicate (8 - s.nbits.toNat) false := by
  have hzero : (byteBits s.acc).drop s.nbits.toNat = List.replicate (8 - s.nbits.toNat) false := by
    refine List.eq_replicate_iff.2 ⟨by rw [List.length_drop, byteBits_length], fun b hb => ?_⟩
    obtain ⟨k, hk⟩ := List.mem_iff_getElem?.1 hb
    rw [List.getElem?_drop] at hk
    have hlt : s.nbits.toNat + k < 8 := (List.getElem?_eq_some_iff.1 hk).1
    rw [byteBits_getElem _ _ hlt, h _ (by omega)] at hk
    exact (Option.some.inj hk).symm
  rw [← hzero, waitingBits, List.take_append_drop]

/-- What FLUSH emits is the waiting bits and then zeros (R111). -/
theorem unfilledZero.flushedBytes_bits {s : State} (h : unfilledZero s) :
    ∃ p, (flushedBytes s).flatMap byteBits = waitingBits s ++ List.replicate p false := by
  unfold flushedBytes
  split
  case isTrue hn => exact ⟨0, by rw [waitingBits_eq_nil hn]; rfl⟩
  case isFalse => exact ⟨_, by rw [List.flatMap_singleton, h.byteBits_acc]⟩

/-! ### Appending bits to the stream (R110) -/

/-- From `s` to `t` the packer appends `bits`: the bytes `out` leave, the rest waits in ACC, and the packer stays open with the
same codes. -/
structure Appends (s : State) (bits : List Bool) (out : List Byte) (t : State) : Prop where
  fault_eq : t.fault = s.fault
  phase_eq : t.phase = s.phase
  code_eq : t.code = s.code
  stream : outStream t = outStream s ++ out
  bits_eq : waitingBits s ++ bits = out.flatMap byteBits ++ waitingBits t
  unfilled : unfilledZero s → unfilledZero t
  total : t.totalbits.toNat = s.totalbits.toNat + bits.length

theorem Appends.refl (s : State) : Appends s [] [] s :=
  ⟨rfl, rfl, rfl, (List.append_nil _).symm, List.append_nil _, id, rfl⟩

theorem Appends.trans {s t u : State} {bits bits' : List Bool} {out out' : List Byte} (h : Appends s bits out t)
    (h' : Appends t bits' out' u) : Appends s (bits ++ bits') (out ++ out') u where
  fault_eq := h'.fault_eq.trans h.fault_eq
  phase_eq := h'.phase_eq.trans h.phase_eq
  code_eq := h'.code_eq.trans h.code_eq
  stream := by rw [h'.stream, h.stream, List.append_assoc]
  bits_eq := by rw [← List.append_assoc, h.bits_eq, List.append_assoc, h'.bits_eq, List.flatMap_append, List.append_assoc]
  unfilled := h'.unfilled ∘ h.unfilled
  total := by rw [h'.total, h.total, List.length_append, Nat.add_assoc]

theorem Appends.length_eq {s t : State} {bits : List Bool} {out : List Byte} (h : Appends s bits out t) :
    s.nbits.toNat + bits.length = 8 * out.length + t.nbits.toNat := by
  have hlen := congrArg List.length h.bits_eq
  rwa [List.length_append, List.length_append, length_waitingBits, length_waitingBits, length_flatMap_byteBits] at hlen

/-- The count of the bytes follows from the bits, since fewer than eight are left waiting. -/
theorem Appends.length_out {s t : State} {bits : List Bool} {out : List Byte} (h : Appends s bits out t) :
    out.length = (s.nbits.toNat + bits.length) / 8 := by
  have hlen := h.length_eq
  have hn := t.nbits.isLt
  omega

/-- From no bit waiting, none is left waiting exactly when the bits fill whole bytes. -/
theorem Appends.nbits_eq_zero_iff {s t : State} {bits : List Bool} {out : List Byte} (h : Appends s bits out t)
    (hn : s.nbits = 0) : t.nbits = 0 ↔ bits.length % 8 = 0 := by
  have hlen : 0 + bits.length = 8 * out.length + t.nbits.toNat := by simpa [hn] using h.length_eq
  have hlt := t.nbits.isLt
  rw [← BitVec.toNat_inj, show (0 : BitVec 3).toNat = 0 from rfl]
  omega

/-- With no bit waiting at the start and the unfilled bits 0, the bits appended are read off the bytes emitted and the byte FLUSH
would emit, by position. -/
theorem Appends.getLsbD_bytes {s t : State} {bits : List Bool} {out : List Byte} (h : Appends s bits out t)
    (hn : s.nbits = 0) (hz : unfilledZero s) (m : Nat) {k : Nat} (hk : k < 8) :
    ((out ++ flushedBytes t).getD m 0).getLsbD (7 - k) = bits.getD (8 * m + k) false := by
  obtain ⟨p, hpad⟩ := (h.unfilled hz).flushedBytes_bits
  have hbits : bits = out.flatMap byteBits ++ waitingBits t := by
    rw [← h.bits_eq, waitingBits_eq_nil hn, List.nil_append]
  rw [← getD_flatMap_byteBits _ m hk, List.flatMap_append, hpad, ← List.append_assoc, ← hbits, getD_append_replicate]

/-- The loop over a code's bits appends them, where TOTALBITS has room for their number. -/
theorem appendCode_appends (s : State) (bits : List Bool) (r : Response) (ht : s.totalbits.toNat + bits.length < 2 ^ 64) :
    Appends s bits (packedBytes bits s) (respond (appendCode bits s) r (packedBytes bits s)) := by
  obtain ⟨hbits, -, -, hunfilled⟩ := packBits_spec bits s.acc s.nbits
  refine ⟨rfl, rfl, rfl, outStream_append _ _ _ r rfl, hbits, hunfilled, ?_⟩
  have hlt : bits.length < 2 ^ 64 := (Nat.le_add_left _ _).trans_lt ht
  rw [respond_totalbits, appendCode_totalbits, BitVec.toNat_add_of_lt, BitVec.toNat_ofNat, Nat.mod_eq_of_lt hlt]
  rwa [BitVec.toNat_ofNat, Nat.mod_eq_of_lt hlt]

/-! ### ENC and FLUSH in CODED -/

section
variable {s : State} (hf : s.fault = none) (hp : s.phase = .coded)
include hf hp

theorem exec_enc_of_coded (b : Byte) :
    exec (.enc b) s =
      if (codeAt s b).length = 0 then raise (encode (.enc b)) .nocode s
      else if 2 ^ 64 ≤ s.totalbits.toNat + (codeAt s b).length then raise (encode (.enc b)) .overflow s
      else rsp (BitVec.ofNat 64 (packedBytes (codeAt s b) s).length) (packedBytes (codeAt s b) s) (appendCode (codeAt s b) s) :=
  exec_eq_of_phase hf (List.mem_singleton.2 hp) rfl

/-- A run of ENC commands appends the codes one after another (R112). -/
theorem runCommands_enc_appends (bs : List Byte) (hc : ∀ b ∈ bs, codeAt s b ≠ [])
    (ht : s.totalbits.toNat + (bs.flatMap (codeAt s)).length < 2 ^ 64) :
    ∃ t out, runCommands (bs.map .enc) s = .next t ∧ Appends s (bs.flatMap (codeAt s)) out t := by
  induction bs generalizing s with
  | nil => exact ⟨s, [], rfl, .refl s⟩
  | cons b bs ih =>
    rw [List.flatMap_cons, List.length_append, ← Nat.add_assoc] at ht
    obtain ⟨hb, hbs⟩ := List.forall_mem_cons.1 hc
    have hroom : s.totalbits.toNat + (codeAt s b).length < 2 ^ 64 := (Nat.le_add_right _ _).trans_lt ht
    have hexec := (Effect.enc s b hf hp hb hroom).completes.1
    have hstep := appendCode_appends s (codeAt s b)
      ⟨none, BitVec.ofNat 64 (packedBytes (codeAt s b) s).length⟩ hroom
    generalize respond _ _ _ = t at hexec hstep
    have hcode : codeAt t = codeAt s := by funext a; rw [codeAt, hstep.code_eq, codeAt]
    obtain ⟨u, out, hrun, happ⟩ := ih (hstep.fault_eq.trans hf) (hstep.phase_eq.trans hp) (hcode ▸ hbs)
      (by rwa [hcode, hstep.total])
    refine ⟨u, _, ?_, hstep.trans (hcode ▸ happ)⟩
    rw [List.map_cons, runCommands, hexec]
    exact hrun

end

/-! ### The statements -/

/-- Settles O33: the faults are ENC's checks in order, and past them the loop appends the code to the stream. -/
theorem encAppendsCode : Obligations.EncAppendsCode := by
  unfold Obligations.EncAppendsCode
  intro b s hf
  refine ⟨decode_encode (i := .enc b) rfl, fun hp => ?_, fun hp h0 => ?_, fun hp h0 ht => ?_, fun hp h0 ht => ?_⟩
  · exact .of_phase hf (mt List.mem_singleton.1 hp) rfl
  · exact .of_exec hf (by rw [exec_enc_of_coded hf hp, if_pos (List.length_eq_zero_iff.2 h0)])
  · exact .of_exec hf (by rw [exec_enc_of_coded hf hp, if_neg (mt List.length_eq_zero_iff.1 h0), if_pos ht])
  · have happ := appendCode_appends s (codeAt s b) ⟨none, BitVec.ofNat 64 (packedBytes (codeAt s b) s).length⟩ ht
    exact ⟨_, _, (Effect.enc s b hf hp h0 ht).completes, rfl, happ.length_out, happ.bits_eq, happ.unfilled, happ.total⟩

/-- Settles O34: the byte emitted is ACC, which is the waiting bits and then zeros. -/
theorem flushPadsLastByte : Obligations.FlushPadsLastByte := by
  unfold Obligations.FlushPadsLastByte
  intro s hf
  refine ⟨decode_encode (i := .flush) rfl, fun hp => .of_phase hf (mt List.mem_singleton.1 hp) rfl, fun hp hz => ?_⟩
  exact ⟨_, _, (Effect.flush s hf hp).completes, rfl, fun hn => if_pos hn, fun hn => ⟨s.acc, if_neg hn, hz.byteBits_acc⟩⟩

/-- Settles O35: with no bit waiting at the start, the codes' bits and then zeros are the bits of the bytes that ENC and FLUSH
emit, so that each byte is read off by position. -/
theorem packerStream : Obligations.PackerStream := by
  unfold Obligations.PackerStream
  intro bs s hf hp h0 hacc hn hc hlen
  have htotal : s.totalbits.toNat = 0 := by rw [h0]; rfl
  have hnbits : s.nbits.toNat = 0 := by rw [hn]; rfl
  have hz : unfilledZero s := fun k _ => by rw [hacc]; exact BitVec.getLsbD_zero
  obtain ⟨t, out, hrun, happ⟩ := runCommands_enc_appends hf hp bs hc (by rwa [htotal, Nat.zero_add])
  generalize bs.flatMap (codeAt s) = bits at happ
  have hflush := (Effect.flush t (happ.fault_eq.trans hf) (happ.phase_eq.trans hp)).completes
  have hread := happ.getLsbD_bytes hn hz
  have hfull := happ.nbits_eq_zero_iff hn
  refine ⟨t, _, out, flushedBytes t, hrun, hflush.1, happ.stream, outStream_append _ _ _ _ hflush.2, ?_, rfl, ?_,
    fun m hm k hk => ?_, fun h8 => if_pos (hfull.2 h8), fun h8 => ?_⟩
  · rw [happ.total, htotal, Nat.zero_add]
  · rw [happ.length_out, hnbits, Nat.zero_add]
  · rw [← hread m hk, List.getD_append _ _ _ _ hm]
  · have hlast : flushedBytes t = [t.acc] := if_neg (mt hfull.1 h8)
    refine ⟨t.acc, hlast, fun k hk => ?_⟩
    rw [← hread out.length hk, hlast, List.getD_append_right _ _ _ _ le_rfl, Nat.sub_self, List.getD_cons_zero]

end Sys2Proof.Machine

/-! SUPPORT. 44_unpacker.md: what DECBEG, DEC and DECEND do (R120 to R122), and the unpacker's stream over a whole payload
(R123). -/

namespace Sys2Proof.Machine

/-! ### Arming and ending (R120, R122) -/

/-- Settles O36: past the phase check DECBEG has one check, and past that its effect applies. -/
theorem decbegArmsUnpacker : Obligations.DecbegArmsUnpacker := by
  unfold Obligations.DecbegArmsUnpacker
  intro s hf
  refine ⟨decode_encode (i := .decbeg) rfl, fun hb hc => ?_, fun hp ho => ?_, fun hp ho => ?_⟩
  · exact .of_phase (phases := [.built, .coded]) hf (by simp [hb, hc]) rfl
  · exact .of_exec hf ((exec_eq_of_phase hf (by simpa using hp) rfl).trans (if_pos ho))
  · exact ⟨_, (Effect.decbeg s hf hp ho).completes, rfl⟩

/-- Settles O38: past the phase check DECEND checks the three mismatches at once, and without one its effect applies. -/
theorem decendChecksIntegrity : Obligations.DecendChecksIntegrity := by
  unfold Obligations.DecendChecksIntegrity
  intro s hf
  refine ⟨decode_encode (i := .decend) rfl, fun hp => ?_, fun hp hm => ?_, fun hp he hc hx => ?_⟩
  · exact .of_phase hf (mt List.mem_singleton.1 hp) rfl
  · exact .of_exec hf ((exec_eq_of_phase hf (List.mem_singleton.2 hp) rfl).trans (if_pos hm))
  · exact ⟨_, (Effect.decend s hf hp he hc hx).completes, rfl⟩

/-! ### One byte (R121) -/

theorem stopped_iff (s : State) : stopped s = true ↔ s.emitted = s.origlen ∨ s.consumed = s.bitlimit := by
  simp [stopped]

/-- The top `m` bits of a byte are 0 exactly when the first `m` bits consumed are. -/
theorem shiftRight_eq_zero_iff (b : Byte) {m : Nat} (hm : m ≤ 8) : b >>> (8 - m) = 0 ↔ true ∉ (byteBits b).take m := by
  have hbit : ∀ k < m, ((byteBits b).take m)[k]? = some (b.getLsbD (7 - k)) := fun k hk => by
    rw [List.getElem?_take_of_lt hk, byteBits_getElem b k (by omega)]
  constructor
  · intro h hmem
    obtain ⟨k, hk⟩ := List.mem_iff_getElem?.1 hmem
    have hkm : k < m := by
      have := (List.getElem?_eq_some_iff.1 hk).1
      rw [List.length_take] at this
      omega
    have hshift : (b >>> (8 - m)).getLsbD (m - 1 - k) = b.getLsbD (7 - k) := by
      rw [BitVec.getLsbD_ushiftRight]
      congr 1
      omega
    rw [hbit k hkm, ← hshift, h] at hk
    simp at hk
  · intro h
    refine BitVec.eq_of_getLsbD_eq fun j hj => ?_
    rw [BitVec.getLsbD_ushiftRight, show (0 : Byte).getLsbD j = false from BitVec.getLsbD_zero]
    by_cases hjm : j < m
    · have hget := hbit (m - 1 - j) (by omega)
      rw [show 7 - (m - 1 - j) = 8 - m + j by omega] at hget
      exact Bool.eq_false_iff.2 fun e => h (e ▸ List.mem_of_getElem? hget)
    · exact BitVec.getLsbD_of_ge _ _ (by omega)

/-- A run takes no more than is left below either limit, so neither count wraps. -/
theorem toNat_consumeRun (s : State) :
    (consumeRun (runLength s) s).consumed.toNat = s.consumed.toNat + runLength s ∧
    (consumeRun (runLength s) s).emitted.toNat = s.emitted.toNat + runLength s := by
  have hadd : ∀ a b : Word64, runLength s ≤ b.toNat - a.toNat →
      (a + BitVec.ofNat 64 (runLength s)).toNat = a.toNat + runLength s := by
    intro a b hm
    have := a.isLt
    have := b.isLt
    rw [BitVec.toNat_add, BitVec.toNat_ofNat]
    omega
  exact ⟨hadd _ s.bitlimit (by unfold runLength; omega), hadd _ s.origlen (by unfold runLength; omega)⟩

/-- On a Leaf root DEC, not stopped, is a run (R121). -/
theorem exec_dec_of_leaf {s : State} (hf : s.fault = none) (hp : s.phase = .decode) (hs : stopped s = false) {sym : Byte}
    {f : Word64} (hn : nodeAt s s.root = some (.leaf sym f)) (b : Byte) : exec (.dec b) s = decodeRun b sym s := by
  refine (exec_eq_of_phase hf (List.mem_singleton.2 hp) rfl).trans ?_
  rw [if_neg (Bool.eq_false_iff.1 hs), hn]

/-- In a tree with an Internal root the walk from CURSOR reads only records there are. -/
theorem decodeBits_answers {s : State} (hp : s.phase = .decode) (ht : TreeInv s) (hd : DecoderInv s)
    (hr : isInternal s.nodes s.root.toNat = true) (bits : List Bool) : ∃ t out, decodeBits bits s = .ok (t, out) :=
  decodeBits_ok bits s (ht.built (by simp [hp])).children_lt hr ((hd.cursor_ok hp).elim (fun e => e ▸ hr) id)

/-! ### The unpacker over a stream of bits (R123) -/

/-- From `s` to `t` the unpacker, offered `bits`, consumes the first `n` of them and emits `out`: it consumes all, or it stops
at the first point where a limit is reached. EXCESS is set only where a byte's worth of bits is left over. -/
structure Unpacks (s : State) (bits : List Bool) (n : Nat) (out : List Byte) (t : State) : Prop where
  frame : t = { s with
    consumed := t.consumed, emitted := t.emitted, cursor := t.cursor, excess := t.excess, sent := t.sent }
  stream : outStream t = outStream s ++ out
  le_length : n ≤ bits.length
  walk : Decodes s.nodes s.root s.cursor (bits.take n) out t.cursor
  consumed_eq : t.consumed.toNat = s.consumed.toNat + n
  emitted_eq : t.emitted.toNat = s.emitted.toNat + out.length
  ended : n = bits.length ∨ stopped t = true
  first : ∀ k < n, ∀ out' d, Decodes s.nodes s.root s.cursor (bits.take k) out' d →
    s.emitted.toNat + out'.length < s.origlen.toNat ∧ s.consumed.toNat + k < s.bitlimit.toNat
  excess_of : t.excess = true → s.excess = true ∨ n + 8 ≤ bits.length

/-- Offered nothing, the unpacker does nothing. -/
theorem Unpacks.refl (s : State) : Unpacks s [] 0 [] s :=
  ⟨rfl, (List.append_nil _).symm, le_rfl, .stop _, rfl, rfl, .inl rfl, nofun, .inl⟩

/-- The walk over the bits of a byte, with its response. -/
theorem decodeBits_unpacks {s u : State} {bits : List Bool} {out : List Byte} (hp : s.phase = .decode) (hd : DecoderInv s)
    (h : decodeBits bits s = .ok (u, out)) (r : Response) : ∃ n, Unpacks s bits n out (respond u r out) := by
  have hfr := decodeBits_frame _ _ _ _ h
  obtain ⟨n, hn, hwalk, hcons, hemit, -, -, hend, -, hfirst⟩ :=
    decodeBits_spec bits s u out h (hd.emitted_le hp) (hd.consumed_le hp)
  refine ⟨n, ?_, outStream_append _ _ _ r ?_, hn, hwalk, hcons, hemit, hend, hfirst, ?_⟩
  · rw [hfr]; rfl
  · rw [hfr]; rfl
  · rw [hfr]; exact .inl

/-- Settles O37: after the stop, on a Leaf root and on an Internal root one of DEC's three effects applies; on a Leaf root its
one check is of the bits the run would take. -/
theorem decConsumesOneByte : Obligations.DecConsumesOneByte := by
  unfold Obligations.DecConsumesOneByte
  intro b s hf ht hd
  have hstop : s.emitted ≠ s.origlen → s.consumed ≠ s.bitlimit → stopped s = false := fun he hc =>
    Bool.eq_false_iff.2 (mt (stopped_iff s).1 (not_or.2 ⟨he, hc⟩))
  refine ⟨decode_encode (i := .dec b) rfl, fun hp => ?_, fun hp hs => ?_, fun sym f m hp he hc hn hm => ?_,
    fun hp he hc hr => ?_⟩
  · exact .of_phase hf (mt List.mem_singleton.1 hp) rfl
  · exact ⟨_, (Effect.decStopped s b hf hp ((stopped_iff s).2 hs)).completes, rfl⟩
  · obtain rfl : m = runLength s := hm
    have hzero := shiftRight_eq_zero_iff b (min_le_left _ _ : runLength s ≤ 8)
    refine ⟨fun hmem => ?_, fun hmem => ?_⟩
    · exact .of_exec hf ((exec_dec_of_leaf hf hp (hstop he hc) hn b).trans (if_pos (mt hzero.1 (not_not.2 hmem))))
    · exact ⟨_, (Effect.decRun s b sym f hf hp (hstop he hc) hn (hzero.2 hmem)).completes, rfl, toNat_consumeRun s⟩
  · obtain ⟨u, out, hu⟩ := decodeBits_answers hp ht hd hr (byteBits b)
    obtain ⟨n, h⟩ := decodeBits_unpacks hp hd hu ⟨none, BitVec.ofNat 64 out.length⟩
    refine ⟨_, out, n, (Effect.decWalk s u b out hf hp (hstop he hc) hr hu).completes, ?_, h.le_length, h.walk,
      h.consumed_eq, h.emitted_eq, h.ended.imp id (stopped_iff _).1, h.first⟩
    rw [decodeBits_frame _ _ _ _ hu]; rfl

/-- A walk can be cut at any place (R123). -/
theorem Decodes.split {ns : List Node} {root c d : NodeIx} {p q : List Bool} {out : List Byte}
    (h : Decodes ns root c (p ++ q) out d) :
    ∃ m o o', out = o ++ o' ∧ Decodes ns root c p o m ∧ Decodes ns root m q o' d := by
  induction p generalizing c out with
  | nil => exact ⟨c, [], out, rfl, .stop c, h⟩
  | cons b p ih =>
    cases h with
    | inner _ _ _ _ _ n hn hi h =>
      obtain ⟨m, o, o', rfl, hp, hq⟩ := ih h
      exact ⟨m, o, o', rfl, .inner c m b p o n hn hi hp, hq⟩
    | leaf _ _ _ _ _ n sym f hn hl h =>
      obtain ⟨m, o, o', rfl, hp, hq⟩ := ih h
      exact ⟨m, sym :: o, o', rfl, .leaf c m b p o n sym f hn hl hp, hq⟩

/-- Once stopped, the unpacker consumes and emits nothing. -/
theorem Unpacks.of_stopped {s t : State} {bits : List Bool} {n : Nat} {out : List Byte} (h : Unpacks s bits n out t)
    (hs : stopped s = true) : n = 0 ∧ stopped t = true := by
  have hn : n = 0 := by
    by_contra hn
    have hlt := h.first 0 (Nat.pos_of_ne_zero hn) [] s.cursor (.stop _)
    rcases (stopped_iff s).1 hs with e | e <;> simp [e] at hlt
  subst hn
  have hwalk := h.walk
  rw [List.take_zero] at hwalk
  obtain ⟨rfl, -⟩ := (Decodes.stop _).unique hwalk
  have hcons : t.consumed = s.consumed := BitVec.eq_of_toNat_eq h.consumed_eq
  have hemit : t.emitted = s.emitted := BitVec.eq_of_toNat_eq h.emitted_eq
  have hfr := h.frame
  rw [hcons, hemit] at hfr
  exact ⟨rfl, by rw [hfr]; exact hs⟩

/-- The unpacker goes on where it was left. -/
theorem Unpacks.trans {s t u : State} {bits bits' : List Bool} {n n' : Nat} {out out' : List Byte}
    (h : Unpacks s bits n out t) (h' : Unpacks t bits' n' out' u) :
    Unpacks s (bits ++ bits') (n + n') (out ++ out') u := by
  have hnodes : t.nodes = s.nodes := by rw [h.frame]
  have hroot : t.root = s.root := by rw [h.frame]
  have hlimits : t.origlen = s.origlen ∧ t.bitlimit = s.bitlimit := by rw [h.frame]; exact ⟨rfl, rfl⟩
  have hwalk' := h'.walk
  have hfirst' := h'.first
  rw [hnodes, hroot] at hwalk' hfirst'
  have hn := h.le_length
  have hn' := h'.le_length
  have hcons := h.consumed_eq
  have hemit := h.emitted_eq
  have hcases : n = bits.length ∨ n' = 0 ∧ stopped u = true := h.ended.imp id h'.of_stopped
  have htake : ∀ j ≤ n', (bits ++ bits').take (n + j) = bits.take n ++ bits'.take j := by
    intro j hj
    rcases hcases with rfl | ⟨rfl, -⟩
    · rw [List.take_length_add_append, List.take_length]
    · obtain rfl : j = 0 := by omega
      rw [Nat.add_zero, List.take_append_of_le_length hn, List.take_zero, List.append_nil]
  refine ⟨?_, ?_, ?_, ?_, ?_, ?_, ?_, ?_, ?_⟩
  · rw [h'.frame, h.frame]
  · rw [h'.stream, h.stream, List.append_assoc]
  · rw [List.length_append]; omega
  · rw [htake n' le_rfl]; exact h.walk.append hwalk'
  · rw [h'.consumed_eq, hcons, Nat.add_assoc]
  · rw [h'.emitted_eq, hemit, List.length_append, Nat.add_assoc]
  · rcases h'.ended with e' | e'
    · rcases hcases with e | ⟨-, e⟩
      · exact .inl (by rw [List.length_append]; omega)
      · exact .inr e
    · exact .inr e'
  · intro k hk o d hd
    by_cases hkn : k < n
    · rw [List.take_append_of_le_length (by omega)] at hd
      exact h.first k hkn o d hd
    · obtain ⟨j, rfl⟩ := Nat.exists_eq_add_of_le (Nat.le_of_not_lt hkn)
      rw [htake j (by omega)] at hd
      obtain ⟨m, o1, o2, rfl, h1, h2⟩ := hd.split
      obtain ⟨rfl, rfl⟩ := h.walk.unique h1
      have hlt := hfirst' j (by omega) o2 d h2
      rw [hlimits.1, hlimits.2] at hlt
      rw [List.length_append]
      omega
  · intro hx
    rw [List.length_append]
    rcases h'.excess_of hx with hx | hx
    · exact (h.excess_of hx).imp id (by omega)
    · exact .inr (by omega)

/-- DEC on an Internal root offers the unpacker its byte's bits, in every state of DECODE. -/
theorem exec_dec_unpacks {s : State} (hf : s.fault = none) (hp : s.phase = .decode) (ht : TreeInv s) (hd : DecoderInv s)
    (hr : isInternal s.nodes s.root.toNat = true) (b : Byte) :
    ∃ t n out, exec (.dec b) s = .next t ∧ Unpacks s (byteBits b) n out t := by
  by_cases hs : stopped s = true
  · exact ⟨_, 0, [], (Effect.decStopped s b hf hp hs).completes.1, rfl, outStream_append _ _ _ _ rfl, Nat.zero_le _,
      .stop _, rfl, rfl, .inr hs, nofun, fun _ => .inr le_rfl⟩
  · obtain ⟨u, out, hu⟩ := decodeBits_answers hp ht hd hr (byteBits b)
    obtain ⟨n, h⟩ := decodeBits_unpacks hp hd hu ⟨none, BitVec.ofNat 64 out.length⟩
    exact ⟨_, n, out, (Effect.decWalk s u b out hf hp (Bool.eq_false_iff.2 hs) hr hu).completes.1, h⟩

/-- A command keeps the whole invariant. -/
theorem exec_keeps_invariant {i : Instr} {s t : State} (h : Invariant s) (he : exec i s = .next t) : Invariant t := by
  rcases exec_cases i s t he with e | ⟨u, v, out, hu, rfl⟩
  · exact h.of_sameBlock e
  · exact (hu.keeps_invariant h).of_sameBlock rfl

/-- A run of DEC commands offers the unpacker its bytes' bits (R123). -/
theorem runCommands_dec_unpacks (bs : List Byte) {s : State} (h : Invariant s) (hf : s.fault = none) (hp : s.phase = .decode)
    (hr : isInternal s.nodes s.root.toNat = true) :
    ∃ t n out, runCommands (bs.map .dec) s = .next t ∧ Unpacks s (bs.flatMap byteBits) n out t := by
  induction bs generalizing s with
  | nil => exact ⟨s, 0, [], rfl, .refl s⟩
  | cons b bs ih =>
    obtain ⟨t, n, out, hexec, hstep⟩ := exec_dec_unpacks hf hp h.tree h.decoder hr b
    have hfr := hstep.frame
    obtain ⟨u, n', out', hrun, hrest⟩ := ih (exec_keeps_invariant h hexec) (by rw [hfr]; exact hf) (by rw [hfr]; exact hp)
      (by rw [hfr]; exact hr)
    refine ⟨u, _, _, ?_, hstep.trans hrest⟩
    rw [List.map_cons, runCommands, hexec]
    exact hrun

/-- Settles O39: the bytes' bits are offered one byte after another, and what was consumed and emitted before them is 0. -/
theorem unpackerStream : Obligations.UnpackerStream := by
  unfold Obligations.UnpackerStream
  intro bs s hf hp hinv hr he hc hcur
  obtain ⟨t, n, out, hrun, h⟩ := runCommands_dec_unpacks bs hinv hf hp hr
  have hn : t.consumed.toNat = n := by rw [h.consumed_eq, hc]; exact Nat.zero_add n
  have hout : t.emitted.toNat = out.length := by rw [h.emitted_eq, he]; exact Nat.zero_add _
  have hlimits : t.origlen = s.origlen ∧ t.bitlimit = s.bitlimit := by rw [h.frame]; exact ⟨rfl, rfl⟩
  have hwalk := h.walk
  have hfirst := h.first
  simp only [hcur, he, hc, show (0 : Word64).toNat = 0 from rfl, Nat.zero_add] at hwalk hfirst
  rw [← hlimits.1, ← hlimits.2]
  refine ⟨t, out, hrun, h.stream, hn ▸ h.le_length, hn ▸ hwalk, hout, ?_, ?_⟩
  · rcases h.ended with e | e
    · exact .inr (.inr (hn.trans e))
    · rcases (stopped_iff t).1 e with e | e
      · exact .inl e
      · exact .inr (.inl e)
  · rw [hn, hlimits.1, hlimits.2]; exact hfirst

end Sys2Proof.Machine

/-! SUPPORT. 44_unpacker.md: what a compress job writes, a decompress job reads back (R124), through the container of
20_memory.md (R50 to R54). -/

namespace Sys2Proof.Machine

/-! ### Runs of commands (R47) -/

/-- The commands, run one after another from `s`, end in `t` and emit `out`. -/
structure Runs (cmds : List Instr) (s : State) (out : List Byte) (t : State) : Prop where
  run : runCommands cmds s = .next t
  stream : outStream t = outStream s ++ out

theorem Runs.nil (s : State) : Runs [] s [] s := ⟨rfl, (List.append_nil _).symm⟩

theorem Runs.append {cmds cmds' : List Instr} {s t u : State} {out out' : List Byte} (h : Runs cmds s out t)
    (h' : Runs cmds' t out' u) : Runs (cmds ++ cmds') s (out ++ out') u := by
  refine ⟨?_, by rw [h'.stream, h.stream, List.append_assoc]⟩
  have hrun := h.run
  clear h
  induction cmds generalizing s with
  | nil => cases hrun; exact h'.run
  | cons i is ih =>
    rw [List.cons_append, runCommands]
    rw [runCommands] at hrun
    split at hrun
    case h_1 s' he => exact ih hrun
    case h_2 => cases hrun
    case h_3 => cases hrun

/-- A command whose effect applies is a run of one. -/
theorem Effect.runs {i : Instr} {s u : State} {v : Word64} {out : List Byte} (h : Effect i s u v out) :
    Runs [i] s out (respond u ⟨none, v⟩ out) := by
  obtain ⟨he, hsent⟩ := h.completes
  exact ⟨by rw [runCommands, he]; rfl, outStream_append _ _ _ _ hsent⟩

/-- What every command of a run keeps, the run keeps. -/
theorem Runs.keeps {P : State → Prop} {cmds : List Instr} {s t : State} {out : List Byte} (h : Runs cmds s out t)
    (hkeep : ∀ i ∈ cmds, ∀ u u', exec i u = .next u' → P u → P u') (hs : P s) : P t := by
  have hrun := h.run
  clear h
  induction cmds generalizing s with
  | nil => cases hrun; exact hs
  | cons i is ih =>
    obtain ⟨hi, his⟩ := List.forall_mem_cons.1 hkeep
    rw [runCommands] at hrun
    split at hrun
    case h_1 s' he => exact ih his (hi s s' he hs) hrun
    case h_2 => cases hrun
    case h_3 => cases hrun

theorem Runs.invariant {cmds : List Instr} {s t : State} {out : List Byte} (h : Runs cmds s out t) (hs : Invariant s) :
    Invariant t :=
  h.keeps (fun _ _ _ _ he hu => exec_keeps_invariant hu he) hs

/-- The commands that write FREQ or CODE (R22, R23). -/
def writesFreqOrCode : Instr → Bool
  | .clr | .acc _ | .ldf _ _ | .gen => true
  | _ => false

/-- A run of other commands leaves both as they were. -/
theorem Runs.freq_code_eq {cmds : List Instr} {s t : State} {out : List Byte} (h : Runs cmds s out t)
    (hw : ∀ i ∈ cmds, writesFreqOrCode i = false) : t.freq = s.freq ∧ t.code = s.code := by
  refine h.keeps (P := fun u => u.freq = s.freq ∧ u.code = s.code) (fun i hi u u' he ⟨hfreq, hcode⟩ => ?_) ⟨rfl, rfl⟩
  have hne : ∀ j, writesFreqOrCode j = true → i ≠ j := fun j hj e => by
    rw [← e, hw i hi] at hj
    cases hj
  obtain ⟨hwfreq, -, hwcode⟩ := tablesWrittenOnlyByTheirCommands i u u' he (hne .clr rfl)
  constructor
  · by_contra hc
    rcases (hwfreq (hfreq ▸ hc)).2 with ⟨b, e⟩ | ⟨b, f, e⟩
    · exact hne _ rfl e
    · exact hne _ rfl e
  · by_contra hc
    exact hne .gen rfl (hwcode (.inl (hcode ▸ hc)))

/-- The block meets R28, is not faulted and stands in phase `p`. -/
structure ReadyIn (p : Phase) (s : State) : Prop where
  invariant : Invariant s
  fault_eq : s.fault = none
  phase_eq : s.phase = p

theorem ReadyIn.shape {p : Phase} {s : State} (h : ReadyIn p s) (hp : p ≠ .count) : TreeShape s :=
  h.invariant.tree.built (h.phase_eq ▸ hp)

/-- A command that ends normally leaves the block ready in the phase its effect sets, the fault record aside. -/
theorem Effect.readyIn {i : Instr} {s u : State} {v : Word64} {out : List Byte} (he : Effect i s u v out) {p q : Phase}
    (h : ReadyIn p s) (hf : u.fault = none) (hp : u.phase = q) (r : Response) : ReadyIn q (respond u r out) :=
  ⟨(he.keeps_invariant h.invariant).of_sameBlock rfl, hf, hp⟩

/-- CLR brings any block to COUNT, with nothing counted (R131). -/
theorem run_clr (s : State) : ∃ t, Runs [.clr] s [] t ∧ ReadyIn .count t ∧ t.total.toNat = 0 ∧ ∀ b, freqAt t b = 0 :=
  ⟨_, (Effect.clr s).runs, ⟨.of_sameBlock (s := State.reset) rfl resetMeetsInvariant.1, rfl, rfl⟩, rfl, fun _ => rfl⟩

/-! ### Filling FREQ (R80, R81) -/

/-- A run of ACC commands counts its bytes. -/
theorem run_acc (bs : List Byte) {s : State} (h : ReadyIn .count s) (hlen : s.total.toNat + bs.length < 2 ^ 64) :
    ∃ t, Runs (bs.map .acc) s [] t ∧ ReadyIn .count t ∧ t.total.toNat = s.total.toNat + bs.length ∧
      ∀ b, (freqAt t b).toNat = (freqAt s b).toNat + bs.count b := by
  induction bs generalizing s with
  | nil => exact ⟨s, .nil s, h, rfl, fun _ => rfl⟩
  | cons a bs ih =>
    rw [List.length_cons] at hlen
    have hc := h.invariant.counters
    have he := Effect.acc s a h.fault_eq h.phase_eq (by omega)
    have hle := hc.freqAt_le_total a
    have htotal : (s.total + 1).toNat = s.total.toNat + 1 := toNat_succ (by omega)
    have hfreq : (freqAt s a + 1).toNat = (freqAt s a).toNat + 1 := toNat_succ (by omega)
    obtain ⟨t, hrun, ht, htot, hcount⟩ := ih (he.readyIn h h.fault_eq h.phase_eq ⟨none, 0⟩)
      (by rw [respond_total, countByte_total, htotal]; omega)
    refine ⟨t, he.runs.append hrun, ht, ?_, fun b => ?_⟩
    · rw [htot, respond_total, countByte_total, htotal, List.length_cons]; omega
    · rw [hcount, freqAt_respond, hc.freqAt_countByte, List.count_cons]
      by_cases hb : b = a
      · subst hb
        rw [if_pos rfl, hfreq, if_pos (beq_self_eq_true b)]
        omega
      · simp [hb, Ne.symm hb]

/-- A run of LDF commands loads its pairs, where their symbols differ and TOTAL has room. -/
theorem run_ldf (ps : List (Byte × Word64)) {s : State} (h : ReadyIn .count s) (hne : ∀ p ∈ ps, p.2 ≠ 0)
    (hnew : ∀ p ∈ ps, freqAt s p.1 = 0) (hnodup : (ps.map Prod.fst).Nodup)
    (hsum : s.total.toNat + (ps.map fun p => p.2.toNat).sum < 2 ^ 64) :
    ∃ t, Runs (ps.map fun p => .ldf p.1 p.2) s [] t ∧ ReadyIn .count t ∧ (∀ p ∈ ps, freqAt t p.1 = p.2) ∧
      ∀ b ∉ ps.map Prod.fst, freqAt t b = freqAt s b := by
  induction ps generalizing s with
  | nil => exact ⟨s, .nil s, h, nofun, fun _ _ => rfl⟩
  | cons p ps ih =>
    rw [List.map_cons, List.sum_cons] at hsum
    obtain ⟨hp, hps⟩ := List.forall_mem_cons.1 hne
    obtain ⟨hpnew, hpsnew⟩ := List.forall_mem_cons.1 hnew
    obtain ⟨hpnot, hpsnodup⟩ := List.nodup_cons.1 hnodup
    have hc := h.invariant.counters
    have he := Effect.ldf s p.1 p.2 h.fault_eq h.phase_eq hp hpnew (by omega)
    have hother : ∀ b, b ≠ p.1 → freqAt (loadEntry p.1 p.2 s) b = freqAt s b := fun b hb => by
      rw [hc.freqAt_loadEntry, if_neg hb]
    obtain ⟨t, hrun, ht, hload, hrest⟩ := ih (he.readyIn h h.fault_eq h.phase_eq ⟨none, 0⟩) hps
      (fun q hq => (hother q.1 fun e => hpnot (e ▸ List.mem_map_of_mem hq)).trans (hpsnew q hq)) hpsnodup
      (by rw [respond_total, loadEntry_total, BitVec.toNat_add_of_lt (by omega)]; omega)
    refine ⟨t, he.runs.append hrun, ht, List.forall_mem_cons.2 ⟨?_, hload⟩, fun b hb => ?_⟩
    · rw [hrest p.1 hpnot, freqAt_respond, hc.freqAt_loadEntry, if_pos rfl]
    · rw [List.map_cons, List.mem_cons, not_or] at hb
      rw [hrest b hb.2, freqAt_respond, hother b hb.1]

/-! ### The pairs the host stores (R52 step 5) -/

/-- The pairs are BUILD's leaves, record for record. -/
theorem seedLeaves_eq_map_storedPairs (s : State) :
    seedLeaves s = (storedPairs s).map fun p => Node.leaf p.1 p.2 := by
  rw [storedPairs, List.map_filterMap, seedLeaves]
  refine List.filterMap_congr fun a ha => ?_
  have hread : freqAt s (BitVec.ofNat 8 a) = tableRead 0 s.freq a := by
    have hlt : a < 256 := List.mem_range.1 ha
    simp [freqAt, Nat.mod_eq_of_lt hlt]
  rw [hread]
  split <;> rfl

theorem mem_storedPairs (s : State) (p : Byte × Word64) : p ∈ storedPairs s ↔ p.2 ≠ 0 ∧ p.2 = freqAt s p.1 := by
  have hleaf : p ∈ storedPairs s ↔ Node.leaf p.1 p.2 ∈ seedLeaves s := by
    rw [seedLeaves_eq_map_storedPairs, List.mem_map]
    exact ⟨fun h => ⟨p, h, rfl⟩, fun ⟨q, hq, e⟩ => by cases q; cases p; cases e; exact hq⟩
  rw [hleaf, mem_seedLeaves]
  constructor
  · rintro ⟨b, hb, e⟩
    injection e with e1 e2
    rw [e1, e2]
    exact ⟨hb, rfl⟩
  · rintro ⟨h0, e⟩
    exact ⟨p.1, e ▸ h0, by rw [← e]⟩

/-- Their symbols differ. -/
theorem storedPairs_nodup (s : State) : ((storedPairs s).map Prod.fst).Nodup := by
  have hasc := seedLeaves_ascending s
  rw [seedLeaves_eq_map_storedPairs, List.pairwise_map] at hasc
  exact List.pairwise_map.2 (hasc.imp fun hlt e => by simp [Node.sym, e] at hlt)

section
variable {s : State} (hc : CountersInv s)
include hc

theorem CountersInv.length_storedPairs : (storedPairs s).length = s.symcnt.toNat := by
  rw [← hc.seedLeaves_length, seedLeaves_eq_map_storedPairs, List.length_map]

/-- Their counts add up to TOTAL. -/
theorem CountersInv.sum_storedPairs : ((storedPairs s).map fun p => p.2.toNat).sum = s.total.toNat := by
  rw [hc.total_eq, ← seedLeaves_sum, seedLeaves_eq_map_storedPairs, List.map_map]
  rfl

theorem CountersInv.symcnt_ne_zero {b : Byte} (hb : freqAt s b ≠ 0) : s.symcnt ≠ 0 := fun e => by
  have hlen := hc.seedLeaves_length
  rw [e] at hlen
  have hmem := (mem_seedLeaves s _).2 ⟨b, hb, rfl⟩
  rw [List.length_eq_zero_iff.1 hlen] at hmem
  cases hmem

/-- Blocks with equal FREQ entries have equal TOTAL. -/
theorem CountersInv.total_congr {s' : State} (hc' : CountersInv s') (h : ∀ b, freqAt s b = freqAt s' b) :
    s.total = s'.total := by
  refine BitVec.eq_of_toNat_eq ?_
  rw [hc.total_eq, hc'.total_eq, freqEntries, freqEntries]
  simp only [h]

end

/-- The stored pairs, loaded into a cleared block, give it the same FREQ entries. -/
theorem run_ldf_storedPairs {s t : State} (hc : CountersInv t) (h : ReadyIn .count s) (h0 : s.total.toNat = 0)
    (hempty : ∀ b, freqAt s b = 0) :
    ∃ u, Runs ((storedPairs t).map fun p => .ldf p.1 p.2) s [] u ∧ ReadyIn .count u ∧ ∀ b, freqAt u b = freqAt t b := by
  have hsum : s.total.toNat + ((storedPairs t).map fun p => p.2.toNat).sum < 2 ^ 64 := by
    rw [h0, hc.sum_storedPairs]
    exact (Nat.zero_add _).trans_lt t.total.isLt
  obtain ⟨u, hrun, hu, hload, hrest⟩ := run_ldf (storedPairs t) h (fun p hp => ((mem_storedPairs t p).1 hp).1)
    (fun p _ => hempty p.1) (storedPairs_nodup t) hsum
  refine ⟨u, hrun, hu, fun b => ?_⟩
  by_cases hb : freqAt t b = 0
  · rw [hb, ← hempty b]
    refine hrest b fun hmem => ?_
    obtain ⟨p, hp, rfl⟩ := List.mem_map.1 hmem
    obtain ⟨hne, e⟩ := (mem_storedPairs t p).1 hp
    exact hne (e.trans hb)
  · exact hload (b, freqAt t b) ((mem_storedPairs t _).2 ⟨hb, rfl⟩)

/-! ### The tree and its codes (R90, R100) -/

/-- The root of the arena BUILD makes: its last record. -/
def treeRoot (s : State) : NodeIx := BitVec.ofNat 9 ((buildTree s).1.length - 1)

/-- The root of a tree is a Leaf or Internal. -/
theorem TreeShape.root_cases {s : State} (h : TreeShape s) :
    (∃ b f, nodeAt s s.root = some (.leaf b f)) ∨ isInternal s.nodes s.root.toNat = true := by
  have hroot := List.getElem?_eq_getElem h.root_lt
  cases hn : s.nodes[s.root.toNat]'h.root_lt with
  | leaf b f => exact .inl ⟨b, f, hroot.trans (congrArg some hn)⟩
  | internal f l r => exact .inr (by simp [isInternal, hroot, hn])

/-- `bits` is the code of symbol `b` in the tree: "0" where the root is its Leaf, else the branches from the root to a Leaf
of it (R100). -/
def IsCode (ns : List Node) (root : NodeIx) (b : Byte) (bits : List Bool) : Prop :=
  (bits = [false] ∧ ∃ f, ns[root.toNat]? = some (.leaf b f)) ∨
  (isInternal ns root.toNat = true ∧ ∃ i f, TreePath ns root bits i ∧ ns[i.toNat]? = some (.leaf b f))

/-- BUILD, with a symbol counted, installs the arena of FREQ. -/
theorem run_build {s : State} (h : ReadyIn .count s) {b : Byte} (hb : freqAt s b ≠ 0) :
    ∃ t, Runs [.build] s [] t ∧ ReadyIn .built t ∧ t.freq = s.freq ∧ t.nodes = (buildTree s).1 ∧
      t.root = treeRoot s := by
  have hc := h.invariant.counters
  have h0 := hc.symcnt_ne_zero hb
  obtain ⟨r, -, he⟩ := hc.effect_build h.fault_eq h.phase_eq h0
  obtain ⟨hnodes, hroot, -⟩ := hc.build_writes h.fault_eq h.phase_eq h0 he.completes.1
  exact ⟨_, he.runs, he.readyIn h h.fault_eq rfl _, rfl, hnodes, hroot⟩

/-- GEN opens the packer with the codes of the tree. -/
theorem run_gen {s : State} (h : ReadyIn .built s) :
    ∃ t, Runs [.gen] s [] t ∧ ReadyIn .coded t ∧ t.freq = s.freq ∧ t.totalbits = 0 ∧ t.acc = 0 ∧
      t.nbits = 0 ∧ ∀ b, freqAt s b ≠ 0 → IsCode s.nodes s.root b (codeAt t b) := by
  have hs := h.shape nofun
  obtain ⟨t, hg⟩ := generateCodes_ok h.invariant.counters hs
  have he := Effect.gen s t h.fault_eq h.phase_eq hg
  refine ⟨_, he.runs, he.readyIn h h.fault_eq rfl _, rfl, rfl, rfl, rfl, fun b hb => ?_⟩
  rcases hs.root_cases with ⟨a, f, hn⟩ | hr
  case inr =>
    obtain ⟨i, hp, hi⟩ := hs.codeAt_installCodes_path hg hr hb
    exact .inr ⟨hr, i, _, hp, hi⟩
  case inl =>
    obtain rfl := (hs.leaf_root hn b).1 hb
    exact .inl ⟨codeAt_installCodes_of_leaf hg hn, f, hn⟩

/-! ### Packing (R110, R111, R112) -/

/-- From no bit waiting, ENC and FLUSH pad the codes' bits with fewer than eight zeros to whole bytes. -/
theorem Appends.padded_bits {s t : State} {bits : List Bool} {out : List Byte} (h : Appends s bits out t) (hn : s.nbits = 0)
    (hz : unfilledZero s) :
    ∃ p < 8, (out ++ flushedBytes t).flatMap byteBits = bits ++ List.replicate p false := by
  obtain ⟨p, hpad⟩ := (h.unfilled hz).flushedBytes_bits
  have hbits : bits = out.flatMap byteBits ++ waitingBits t := by
    rw [← h.bits_eq, waitingBits_eq_nil hn, List.nil_append]
  refine ⟨p, ?_, by rw [List.flatMap_append, hpad, ← List.append_assoc, ← hbits]⟩
  have hlen := congrArg List.length hpad
  rw [length_flatMap_byteBits, List.length_append, length_waitingBits, List.length_replicate, flushedBytes] at hlen
  split at hlen
  case isTrue h0 => rw [h0] at hlen; simp at hlen; omega
  case isFalse h0 =>
    have hpos : t.nbits.toNat ≠ 0 := fun e => h0 (BitVec.eq_of_toNat_eq e)
    rw [List.length_singleton] at hlen
    omega

/-- A run of ENC commands on counted symbols and FLUSH, from the state GEN leaves. -/
theorem run_enc_flush {s : State} (h : ReadyIn .coded s) (h0 : s.totalbits = 0) (hacc : s.acc = 0) (hn : s.nbits = 0)
    {bs : List Byte} (hc : ∀ b ∈ bs, freqAt s b ≠ 0) (hlen : 255 * bs.length < 2 ^ 64) :
    ∃ t payload, Runs (bs.map .enc ++ [.flush]) s payload t ∧ ReadyIn .done t ∧
      t.totalbits.toNat = (bs.flatMap (codeAt s)).length ∧
      ∃ p < 8, payload.flatMap byteBits = bs.flatMap (codeAt s) ++ List.replicate p false := by
  have hv := h.invariant.codev.coded h.phase_eq
  have hcodes := h.invariant.codes
  have hsize : (bs.flatMap (codeAt s)).length ≤ 255 * bs.length := by
    rw [List.length_flatMap, Nat.mul_comm, ← smul_eq_mul, ← List.length_map (f := fun b => (codeAt s b).length)]
    refine List.sum_le_card_nsmul _ _ fun n hmem => ?_
    obtain ⟨b, -, rfl⟩ := List.mem_map.1 hmem
    exact hcodes.bounded hv b
  have hz : unfilledZero s := fun k _ => by rw [hacc]; exact BitVec.getLsbD_zero
  have htotal : s.totalbits.toNat = 0 := by rw [h0]; rfl
  obtain ⟨t, out, hrun, happ⟩ := runCommands_enc_appends h.fault_eq h.phase_eq bs
    (fun b hb => (hcodes.present hv b).2 (hc b hb)) (by omega)
  have hruns : Runs (bs.map .enc) s out t := ⟨hrun, happ.stream⟩
  have ht : ReadyIn .coded t :=
    ⟨hruns.invariant h.invariant, happ.fault_eq.trans h.fault_eq, happ.phase_eq.trans h.phase_eq⟩
  have he := Effect.flush t ht.fault_eq ht.phase_eq
  refine ⟨_, _, hruns.append he.runs, he.readyIn ht ht.fault_eq rfl _, ?_, happ.padded_bits hn hz⟩
  exact happ.total.trans (by rw [htotal, Nat.zero_add])

/-! ### The compress job (R52) -/

/-- What a compress job leaves for the container: the input counted, its codes those of the tree of FREQ, and the payload, which
is the codes' bits padded to whole bytes. -/
structure Packed (input payload : List Byte) (t : State) : Prop where
  ready : ReadyIn .done t
  total_eq : t.total.toNat = input.length
  counted : ∀ b ∈ input, freqAt t b ≠ 0
  codes : ∀ b ∈ input, IsCode (buildTree t).1 (treeRoot t) b (codeAt t b)
  totalbits_eq : t.totalbits.toNat = (input.flatMap (codeAt t)).length
  payload_bits : ∃ p < 8, payload.flatMap byteBits = input.flatMap (codeAt t) ++ List.replicate p false

theorem freqAt_congr {s t : State} (h : t.freq = s.freq) (b : Byte) : freqAt t b = freqAt s b := by rw [freqAt, h, freqAt]

/-- The tree of FREQ is the same in blocks with the same FREQ. -/
theorem tree_congr {s t : State} (h : ∀ b, freqAt t b = freqAt s b) :
    buildTree t = buildTree s ∧ treeRoot t = treeRoot s := by
  have e := buildTree_congr h
  exact ⟨e, by rw [treeRoot, e, treeRoot]⟩

/-- The compress job runs to its end on every non-empty input whose code bits fit the counter. -/
theorem compress_runs {input : List Byte} (hne : input ≠ []) (hlen : 255 * input.length < 2 ^ 64) (s : State) :
    ∃ t payload, Runs (compressCommands input) s payload t ∧ Packed input payload t := by
  obtain ⟨s0, run0, h0, htotal0, hfreq0⟩ := run_clr s
  obtain ⟨s1, run1, h1, htotal1, hfreq1⟩ := run_acc input h0 (by omega)
  have hcounted : ∀ b ∈ input, freqAt s1 b ≠ 0 := fun b hb e => by
    have hcount := hfreq1 b
    have hpos := List.count_pos_iff.2 hb
    rw [e, hfreq0] at hcount
    simp at hcount
    omega
  obtain ⟨a, ha⟩ := List.exists_mem_of_ne_nil input hne
  obtain ⟨s2, run2, h2, hfreq2, hnodes2, hroot2⟩ := run_build h1 (hcounted a ha)
  obtain ⟨s3, run3, h3, hfreq3, hbits3, hacc3, hn3, hcode3⟩ := run_gen h2
  have hfreq31 := freqAt_congr (hfreq3.trans hfreq2)
  obtain ⟨t, payload, run4, ht, htotalbits, hpad⟩ := run_enc_flush h3 hbits3 hacc3 hn3
    (fun b hb => hfreq31 b ▸ hcounted b hb) hlen
  obtain ⟨hfreq4, hcode4⟩ := run4.freq_code_eq
    (List.forall_mem_append.2 ⟨List.forall_mem_map.2 fun _ _ => rfl, List.forall_mem_singleton.2 rfl⟩)
  have hfreq41 := freqAt_congr (hfreq4.trans (hfreq3.trans hfreq2))
  have hcode43 : codeAt t = codeAt s3 := funext fun b => by rw [codeAt, hcode4, codeAt]
  obtain ⟨hbuild, hroot⟩ := tree_congr hfreq41
  refine ⟨t, payload, ?_, ht, ?_, fun b hb => hfreq41 b ▸ hcounted b hb, fun b hb => ?_,
    hcode43 ▸ htotalbits, hcode43 ▸ hpad⟩
  · have hruns := run0.append (run1.append (run2.append (run3.append run4)))
    simpa [compressCommands] using hruns
  · rw [ht.invariant.counters.total_congr h1.invariant.counters hfreq41, htotal1, htotal0, Nat.zero_add]
  · rw [hbuild, hroot, ← hnodes2, ← hroot2, hcode43]
    exact hcode3 b (freqAt_congr hfreq2 b ▸ hcounted b hb)

/-! ### Unpacking what was packed (R121, R123) -/

theorem isInternal_iff (ns : List Node) (i : Nat) : isInternal ns i = true ↔ ∃ f l r, ns[i]? = some (.internal f l r) := by
  unfold isInternal
  split
  case h_1 f l r h => simp [h]
  case h_2 h => simpa using h

/-- A branch to a Leaf emits and starts again at the root; a branch to an Internal record goes on from there. -/
theorem Decodes.branch {ns : List Node} {root i j : NodeIx} {n : Node} {x : Bool} {p : List Bool} {b : Byte} {f : Word64}
    (hn : ns[i.toNat]? = some n) (hp : TreePath ns (n.child x) p j) (hj : ns[j.toNat]? = some (.leaf b f))
    (ih : isInternal ns (n.child x).toNat = true → Decodes ns root (n.child x) p [b] root) :
    Decodes ns root i (x :: p) [b] root := by
  by_cases hc : isInternal ns (n.child x).toNat = true
  · exact .inner _ _ _ _ _ n hn hc (ih hc)
  · generalize he : n.child x = c at hp hc
    cases hp with
    | here => exact .leaf _ _ _ _ _ n b f hn (he ▸ hj) (.stop root)
    | left _ _ g l r _ hl => exact absurd ((isInternal_iff _ _).2 ⟨g, l, r, hl⟩) hc
    | right _ _ g l r _ hl => exact absurd ((isInternal_iff _ _).2 ⟨g, l, r, hl⟩) hc

/-- The branches from an Internal record to a Leaf are bits that the walk decodes to the Leaf's symbol. -/
theorem TreePath.decodes {ns : List Node} {root i j : NodeIx} {p : List Bool} {b : Byte} {f : Word64}
    (h : TreePath ns i p j) (hi : isInternal ns i.toNat = true) (hj : ns[j.toNat]? = some (.leaf b f)) :
    Decodes ns root i p [b] root := by
  induction h with
  | here i => rw [isInternal, hj] at hi; cases hi
  | left i j g l r p hn hp ih => exact .branch (x := false) hn hp hj fun hc => ih hc hj
  | right i j g l r p hn hp ih => exact .branch (x := true) hn hp hj fun hc => ih hc hj

/-- A walk of at least one bit back to the root ends at a Leaf, so it emits. -/
theorem Decodes.emits {ns : List Node} {root c d : NodeIx} {bits : List Bool} {out : List Byte}
    (hroot : ∀ (c : NodeIx) (n : Node) (b : Bool), ns[c.toNat]? = some n → n.child b ≠ root)
    (h : Decodes ns root c bits out d) (hd : d = root) (hb : bits ≠ []) : out ≠ [] := by
  induction h with
  | stop c => exact absurd rfl hb
  | inner c d b bits out n hn hi hrest ih =>
    by_cases hbits : bits = []
    · subst hbits
      cases hrest
      exact absurd hd (hroot c n b hn)
    · exact ih hd hbits
  | leaf c d b bits out n sym f hn hl hrest ih => exact List.cons_ne_nil _ _

/-- No record's child is an Internal root: children stand below the root, and a Leaf's unused links name record 0, a Leaf. -/
theorem TreeShape.child_ne_root {s : State} (h : TreeShape s) (hr : isInternal s.nodes s.root.toNat = true) (c : NodeIx)
    (n : Node) (b : Bool) (hn : s.nodes[c.toNat]? = some n) : n.child b ≠ s.root := by
  intro e
  cases n with
  | leaf sym f =>
    obtain ⟨sym', f', h0, -⟩ := h.leaf_of_lt (k := 0) h.present
    have hzero : s.root.toNat = 0 := by rw [← e]; cases b <;> rfl
    rw [hzero, isInternal, h0] at hr
    cases hr
  | internal f l r =>
    have hlt : ((Node.internal f l r).child b).toNat < c.toNat ∧ c.toNat ≤ s.root.toNat := by
      refine h.child_lt ((childOf_iff _ _ _).2 ⟨f, l, r, hn, ?_⟩)
      cases b
      · exact .inl rfl
      · exact .inr rfl
    rw [e] at hlt
    omega

/-- The codes of a text, one after another, are bits that the walk decodes to the text. -/
theorem decodes_codes {ns : List Node} {root : NodeIx} (hr : isInternal ns root.toNat = true) {code : Byte → List Bool}
    {text : List Byte} (h : ∀ b ∈ text, IsCode ns root b (code b)) :
    Decodes ns root root (text.flatMap code) text root := by
  induction text with
  | nil => exact .stop root
  | cons b text ih =>
    obtain ⟨hb, htext⟩ := List.forall_mem_cons.1 h
    rw [List.flatMap_cons]
    rcases hb with ⟨-, f, hleaf⟩ | ⟨-, i, f, hp, hi⟩
    · rw [isInternal, hleaf] at hr
      cases hr
    · exact (hp.decodes hr hi).append (ih htext)

/-- A proper part of bits that lead back to an Internal root emits less than the whole: what is left over emits too. -/
theorem Decodes.length_lt_of_take {ns : List Node} {root c m : NodeIx} {bits : List Bool} {out o : List Byte} {k : Nat}
    (hroot : ∀ (c : NodeIx) (n : Node) (b : Bool), ns[c.toNat]? = some n → n.child b ≠ root)
    (h : Decodes ns root c bits out root) (hk : k < bits.length) (ho : Decodes ns root c (bits.take k) o m) :
    o.length < out.length := by
  rw [← List.take_append_drop k bits] at h
  obtain ⟨_, o1, o2, rfl, h1, h2⟩ := h.split
  obtain ⟨rfl, rfl⟩ := ho.unique h1
  have hne := h2.emits hroot rfl (mt List.drop_eq_nil_iff.1 (Nat.not_le_of_lt hk))
  rw [List.length_append]
  exact Nat.lt_add_of_pos_right (List.length_pos_iff.2 hne)

/-- What DECEND wants of the unpacker: both limits met and nothing left over (R122). -/
abbrev ReadyToEnd (s : State) : Prop := Effect .decend s (endDecode s) s.emitted []

theorem ReadyToEnd.run_decend {s : State} (h : ReadyToEnd s) :
    ∃ t, Runs [.decend] s [] t ∧ t.fault = none ∧ t.phase = .done := by
  have hrun := h.runs
  cases h with
  | decend _ hf => exact ⟨_, hrun, hf, rfl⟩

/-- DECBEG has armed the unpacker on a tree in which `text` has the codes `code`, with the limits those codes set. -/
structure Armed (text : List Byte) (code : Byte → List Bool) (s : State) : Prop where
  ready : ReadyIn .decode s
  codes : ∀ b ∈ text, IsCode s.nodes s.root b (code b)
  origlen_eq : s.origlen.toNat = text.length
  bitlimit_eq : s.bitlimit.toNat = (text.flatMap code).length
  emitted_eq : s.emitted = 0
  consumed_eq : s.consumed = 0
  cursor_eq : s.cursor = s.root
  excess_eq : s.excess = false

/-- On an Internal root, offered the codes and perhaps more bits, the unpacker stops exactly where they end, with the text
emitted. -/
theorem Armed.unpacks {text : List Byte} {code : Byte → List Bool} {s t : State} (h : Armed text code s)
    (hr : isInternal s.nodes s.root.toNat = true) {rest : List Bool} {n : Nat} {out : List Byte}
    (hu : Unpacks s (text.flatMap code ++ rest) n out t) :
    n = (text.flatMap code).length ∧ out = text ∧ t.emitted = t.origlen ∧ t.consumed = t.bitlimit := by
  have hs := h.ready.shape nofun
  have hdec := decodes_codes hr h.codes
  have hzero : (0 : Word64).toNat = 0 := rfl
  have horig : t.origlen.toNat = text.length := by rw [hu.frame]; exact h.origlen_eq
  have hlimit : t.bitlimit.toNat = (text.flatMap code).length := by rw [hu.frame]; exact h.bitlimit_eq
  have hcons : t.consumed.toNat = n := by rw [hu.consumed_eq, h.consumed_eq, hzero, Nat.zero_add]
  have hemit : t.emitted.toNat = out.length := by rw [hu.emitted_eq, h.emitted_eq, hzero, Nat.zero_add]
  have hwalk := hu.walk
  have hfirst := hu.first
  rw [h.cursor_eq] at hwalk hfirst
  have hle : n ≤ (text.flatMap code).length := by
    by_contra hgt
    have hlt := (hfirst _ (Nat.lt_of_not_le hgt) text s.root (by rwa [List.take_left])).2
    rw [h.consumed_eq, h.bitlimit_eq, hzero] at hlt
    omega
  rw [List.take_append_of_le_length hle] at hwalk
  have hge : (text.flatMap code).length ≤ n := by
    rcases hu.ended with e | e
    · rw [e, List.length_append]; omega
    rcases (stopped_iff t).1 e with e | e
    · by_contra hlt
      have hless := hdec.length_lt_of_take (hs.child_ne_root hr) (Nat.lt_of_not_le hlt) hwalk
      rw [← hemit, ← horig, e] at hless
      exact lt_irrefl _ hless
    · rw [← hlimit, ← e, hcons]
  obtain rfl := Nat.le_antisymm hle hge
  rw [List.take_length] at hwalk
  obtain ⟨rfl, -⟩ := hdec.unique hwalk
  exact ⟨rfl, rfl, BitVec.eq_of_toNat_eq (hemit.trans horig.symm), BitVec.eq_of_toNat_eq (hcons.trans hlimit.symm)⟩

/-- On an Internal root DEC over the padded codes emits the text, with no byte in excess. -/
theorem Armed.run_dec_internal {text payload : List Byte} {code : Byte → List Bool} {s : State} (h : Armed text code s)
    (hr : isInternal s.nodes s.root.toNat = true) {p : Nat} (hp : p < 8)
    (hbits : payload.flatMap byteBits = text.flatMap code ++ List.replicate p false) :
    ∃ t, Runs (payload.map .dec) s text t ∧ ReadyToEnd t := by
  obtain ⟨t, n, out, hrun, hu⟩ :=
    runCommands_dec_unpacks payload h.ready.invariant h.ready.fault_eq h.ready.phase_eq hr
  rw [hbits] at hu
  obtain ⟨rfl, rfl, hemit, hcons⟩ := h.unpacks hr hu
  refine ⟨t, ⟨hrun, hu.stream⟩, .decend t ?_ ?_ hemit hcons (Bool.eq_false_iff.2 fun hx => ?_)⟩
  · rw [hu.frame]; exact h.ready.fault_eq
  · rw [hu.frame]; exact h.ready.phase_eq
  · rcases hu.excess_of hx with e | e
    · rw [h.excess_eq] at e; cases e
    · rw [List.length_append, List.length_replicate] at e; omega

/-- On a Leaf root each byte of zeros is a run, and the last one takes what is left below the limits. -/
theorem run_dec_zeros (bs : List Byte) {s : State} {k : Nat} {sym : Byte} {f : Word64} (hf : s.fault = none)
    (hp : s.phase = .decode) (hx : s.excess = false) (hn : nodeAt s s.root = some (.leaf sym f))
    (he : s.emitted.toNat + k = s.origlen.toNat) (hc : s.consumed.toNat + k = s.bitlimit.toNat)
    (hbits : true ∉ bs.flatMap byteBits) (hlen : bs.length = (k + 7) / 8) :
    ∃ t, Runs (bs.map .dec) s (List.replicate k sym) t ∧ ReadyToEnd t := by
  induction bs generalizing s k with
  | nil =>
    obtain rfl : k = 0 := by rw [List.length_nil] at hlen; omega
    exact ⟨s, .nil s, .decend s hf hp (BitVec.eq_of_toNat_eq he) (BitVec.eq_of_toNat_eq hc) hx⟩
  | cons b bs ih =>
    rw [List.length_cons] at hlen
    rw [List.flatMap_cons, List.mem_append, not_or] at hbits
    obtain ⟨hb, hbs⟩ := hbits
    have hrun : runLength s = min 8 k := by unfold runLength; omega
    have hstop : stopped s = false := Bool.eq_false_iff.2 fun hs => by
      rcases (stopped_iff s).1 hs with e | e
      · rw [e] at he; omega
      · rw [e] at hc; omega
    have hzero : b >>> (8 - runLength s) = 0 :=
      (shiftRight_eq_zero_iff b (min_le_left _ _)).2 (mt List.mem_of_mem_take hb)
    obtain ⟨hcons, hemit⟩ := toNat_consumeRun s
    obtain ⟨t, hrest, ht⟩ := ih (s := respond (consumeRun (runLength s) s) ⟨none, BitVec.ofNat 64 (runLength s)⟩
      (List.replicate (runLength s) sym)) (k := k - min 8 k) hf hp hx hn
      (by rw [respond_emitted, hemit, hrun]; exact .trans (by omega) he)
      (by rw [respond_consumed, hcons, hrun]; exact .trans (by omega) hc) hbs (by omega)
    refine ⟨t, ?_, ht⟩
    have hsplit := (Effect.decRun s b sym f hf hp hstop hn hzero).runs.append hrest
    rwa [List.replicate_append_replicate, hrun, show min 8 k + (k - min 8 k) = k by omega] at hsplit

/-- DEC over the padded codes emits the text, whatever the root. -/
theorem Armed.run_dec {text payload : List Byte} {code : Byte → List Bool} {s : State} (h : Armed text code s) {p : Nat}
    (hp : p < 8) (hbits : payload.flatMap byteBits = text.flatMap code ++ List.replicate p false) :
    ∃ t, Runs (payload.map .dec) s text t ∧ ReadyToEnd t := by
  rcases (h.ready.shape nofun).root_cases with ⟨sym, f, hn⟩ | hr
  case inr => exact h.run_dec_internal hr hp hbits
  case inl =>
    have hsym : ∀ b ∈ text, b = sym ∧ code b = [false] := by
      intro b hb
      rw [nodeAt] at hn
      rcases h.codes b hb with ⟨hcode, g, hleaf⟩ | ⟨hr, -⟩
      · rw [hn] at hleaf
        cases hleaf
        exact ⟨rfl, hcode⟩
      · rw [isInternal, hn] at hr
        cases hr
    have htext : text = List.replicate text.length sym := List.eq_replicate_iff.2 ⟨rfl, fun b hb => (hsym b hb).1⟩
    have hcodes : text.flatMap code = List.replicate text.length false := by
      rw [List.flatMap_congr fun b hb => (hsym b hb).2, ← List.map_eq_flatMap, List.map_const']
    have hlimit := h.bitlimit_eq
    rw [hcodes, List.replicate_append_replicate] at hbits
    rw [hcodes, List.length_replicate] at hlimit
    have hlen := congrArg List.length hbits
    rw [length_flatMap_byteBits, List.length_replicate] at hlen
    obtain ⟨t, hrun, ht⟩ := run_dec_zeros payload (k := text.length) h.ready.fault_eq h.ready.phase_eq h.excess_eq hn
      (by rw [h.emitted_eq, h.origlen_eq]; exact Nat.zero_add _) (by rw [h.consumed_eq, hlimit]; exact Nat.zero_add _)
      (by rw [hbits]; simp) (by omega)
    exact ⟨t, htext ▸ hrun, ht⟩

/-! ### The decompress job (R54) -/

/-- From a cleared block loaded with the pairs, the tree and the limits arm the unpacker for the packed text. -/
theorem run_arm {input payload : List Byte} {s t : State} (h : Packed input payload t) (hne : input ≠ [])
    (hs : ReadyIn .count s) (hfreq : ∀ b, freqAt s b = freqAt t b) :
    ∃ u, Runs [.build, .wrreg 6 t.total, .wrreg 7 t.totalbits, .decbeg] s [] u ∧ Armed input (codeAt t) u := by
  obtain ⟨a, ha⟩ := List.exists_mem_of_ne_nil input hne
  obtain ⟨s1, run1, h1, hfreq1, hnodes1, hroot1⟩ := run_build hs (b := a) (hfreq a ▸ h.counted a ha)
  obtain ⟨hbuild, hroot⟩ := tree_congr hfreq
  have e2 := Effect.wrreg s1 6 t.total h1.fault_eq (.inl rfl) (by rw [h1.phase_eq]; decide)
  have h2 := e2.readyIn h1 h1.fault_eq h1.phase_eq ⟨none, 0⟩
  have e3 := Effect.wrreg _ 7 t.totalbits h2.fault_eq (.inr rfl) (by rw [h2.phase_eq]; decide)
  have h3 := e3.readyIn h2 h2.fault_eq h2.phase_eq ⟨none, 0⟩
  have htotal : t.total = s1.total := h.ready.invariant.counters.total_congr h1.invariant.counters fun b =>
    (hfreq b).symm.trans (freqAt_congr hfreq1 b).symm
  have e4 := Effect.decbeg _ h3.fault_eq (.inl h3.phase_eq) htotal
  refine ⟨_, run1.append (e2.runs.append (e3.runs.append e4.runs)), e4.readyIn h3 h3.fault_eq rfl _, fun b hb => ?_,
    h.total_eq, h.totalbits_eq, rfl, rfl, rfl, rfl⟩
  have hcode := h.codes b hb
  rw [← hbuild, ← hroot, ← hnodes1, ← hroot1] at hcode
  exact hcode

/-- The decompress job on what a compress job left runs to its end and emits the input. -/
theorem decompress_runs {input payload : List Byte} {t : State} (h : Packed input payload t) (hne : input ≠ []) :
    ∃ u, Runs (decompressCommands (containerOf t payload)) t input u ∧ u.fault = none ∧ u.phase = .done := by
  obtain ⟨s0, run0, h0, htotal0, hfreq0⟩ := run_clr t
  obtain ⟨s1, run1, h1, hfreq1⟩ := run_ldf_storedPairs h.ready.invariant.counters h0 htotal0 hfreq0
  obtain ⟨s2, run2, h2⟩ := run_arm h hne h1 hfreq1
  obtain ⟨p, hp, hbits⟩ := h.payload_bits
  obtain ⟨s3, run3, h3⟩ := h2.run_dec hp hbits
  obtain ⟨u, run4, hf, hdone⟩ := h3.run_decend
  have hruns := run0.append (run1.append (run2.append (run3.append run4)))
  exact ⟨u, by simpa [decompressCommands, containerOf] using hruns, hf, hdone⟩

/-- The host reads back the container of a compress job: it stores at least one pair and at most 256. -/
theorem Packed.container_reads_back {input payload magic : List Byte} {t : State} (h : Packed input payload t)
    (hne : input ≠ []) (hm : magic.length = 4) :
    readContainer magic (containerBytes magic (containerOf t payload)) = .ok (containerOf t payload) := by
  obtain ⟨a, ha⟩ := List.exists_mem_of_ne_nil input hne
  have hc := h.ready.invariant.counters
  have hlen : (containerOf t payload).pairs.length = t.symcnt.toNat := hc.length_storedPairs
  have hpos := symcnt_pos (hc.symcnt_ne_zero (h.counted a ha))
  have hle := hc.symcnt_le
  exact (containerReadsBack magic _ hm (by omega) (by omega)).1

/-- Settles O40: the compress job leaves a packed block, whose container reads back, and the decompress job emits the input. -/
theorem compressDecompressRoundTrip : Obligations.CompressDecompressRoundTrip := by
  unfold Obligations.CompressDecompressRoundTrip
  intro input magic s hne hlen hm
  obtain ⟨t, payload, hcompress, h⟩ := compress_runs hne hlen s
  obtain ⟨u, hdecompress, hf, hp⟩ := decompress_runs h hne
  exact ⟨t, _, u, hcompress.run, h.ready.fault_eq, h.ready.phase_eq, payload, hcompress.stream,
    h.container_reads_back hne hm, hdecompress.run, hf, hp, hdecompress.stream⟩

end Sys2Proof.Machine

/-! SUPPORT. 45_system.md: NOP, CLR, RDREG and WRREG (R130 to R133), and the legal-phase table of all eighteen commands (R134). -/

namespace Sys2Proof.Machine

/-! ### Refused and illegal commands (R146, R66) -/

section
variable {i : Instr} {s : State}

/-- In the faulted state a command that goes through the dispatch's first check is refused (R146). -/
theorem Refuses.of_unlessFaulted {c : Cause} {body : Result} (hf : s.fault = some c)
    (h : exec i s = unlessFaulted s body) : Refuses i s c := by
  obtain ⟨t, ht, hr⟩ := unlessFaulted_of_some s body c hf
  exact ⟨t, h.trans ht, hr⟩

/-- An unfaulted block raises ILLEGAL for a command it answers as an illegal word (R66). -/
theorem Raises.of_illegalWord (hf : s.fault = none) (h : exec i s = illegalWord (encode i) s) : Raises i s .illegal :=
  .of_exec hf (h.trans (unlessFaulted_of_none s _ hf))

end

/-! ### The registers by number (R24) -/

section
variable (s : State)

/-- The registers' numbers are 0 to 13. -/
theorem registerValue_eq_none_iff (r : Byte) : registerValue s r = none ↔ 14 ≤ r.toNat := by
  unfold registerValue
  split
  case h_15 => exact iff_of_true rfl (by grind)
  all_goals exact iff_of_false nofun (by omega)

theorem exists_registerValue {r : Byte} (hr : r.toNat ≤ 13) : ∃ v, registerValue s r = some v :=
  Option.ne_none_iff_exists'.1 (mt (registerValue_eq_none_iff s r).1 (by omega))

/-- A word put above another, as a number. -/
theorem toNat_append_eq_add {n m : Nat} (x : BitVec n) (y : BitVec m) : (x ++ y).toNat = y.toNat + 2 ^ m * x.toNat := by
  rw [BitVec.toNat_append, ← Nat.shiftLeft_add_eq_or_of_lt y.isLt, Nat.shiftLeft_eq, Nat.mul_comm, Nat.add_comm]

/-- STATUS as a number: PHASE, CODEV, FAULT and EXCESS from bit 0 up (R12). -/
theorem toNat_statusWord : (statusWord s).toNat =
    s.phase.bits.toNat + 8 * s.codev.toNat + 16 * (causeBits s.fault).toNat + 256 * s.excess.toNat := by
  simp only [statusWord, toNat_append_eq_add, BitVec.toNat_ofBool]
  omega

/-- PACK as a number: ACC below NBITS (R19). -/
theorem toNat_packWord : (packWord s).toNat = s.acc.toNat + 256 * s.nbits.toNat := toNat_append_eq_add s.nbits s.acc

end

/-! ### R134's table is what every command checks -/

/-- The answer `a` of a command run in `s` is not that of fault entry with cause `c`: if it is a next state, what was sent there
is not the response `err = 1` with cause `c`. -/
def Avoids (c : Cause) (s : State) (a : Result) : Prop := ∀ t, a = .next t → t.sent ≠ s.sent ++ [.response ⟨some c, 0⟩]

section
variable {c : Cause} {s : State}

theorem Avoids.stop {e : Fault} : Avoids c s (.fault e) := nofun

/-- The response sent last tells the cause. -/
theorem Avoids.respond (u : State) {r : Response} (out : List Byte) (h : r.cause ≠ some c) :
    Avoids c s (.next (respond u r out)) := by
  rintro _ ⟨⟩ hsent
  have hlast := congrArg List.getLast? hsent
  simp only [respond_sent, List.getLast?_concat, Option.some.injEq, PortEvent.response.injEq] at hlast
  exact h (congrArg Response.cause hlast)

theorem Avoids.raise {w : CmdWord} {c' : Cause} (h : some c' ≠ some c) : Avoids c s (raise w c' s) := .respond _ _ h

theorem Avoids.rsp {v : Word64} {out : List Byte} {u : State} : Avoids c s (rsp v out u) := .respond u out nofun

theorem Avoids.ite {p : Prop} [Decidable p] {a b : Result} (ha : Avoids c s a) (hb : Avoids c s b) :
    Avoids c s (if p then a else b) := by
  split
  · exact ha
  · exact hb

theorem Avoids.not_raises {i : Instr} (h : Avoids c s (exec i s)) : ¬ Raises i s c := by
  rintro ⟨t, ht, -, -, -, -, -, hsent⟩
  exact h t ht hsent

end


/-- Command `i` in `s` checks that no fault is recorded, then its cell of R134's table, and past these two it raises SEQUENCE no
more (R144, R146). -/
def ChecksTable (i : Instr) (s : State) : Prop :=
  ∃ body, Avoids .sequence s body ∧
    exec i s = unlessFaulted s (if phaseAllows i s = true then body else raise (encode i) .sequence s)

section
variable {i : Instr} {s : State} {body : Result}

/-- The cell is the phases that a command requires. -/
theorem ChecksTable.of_phase {phases : List Phase} (hp : phaseAllows i s = true ↔ s.phase ∈ phases)
    (h : exec i s = unlessFaulted s (requirePhase phases (encode i) s body)) (hb : Avoids .sequence s body) :
    ChecksTable i s :=
  ⟨body, hb, h.trans (congrArg (unlessFaulted s) (if_congr hp.symm rfl rfl))⟩

/-- The cell is the one phase that a command requires. -/
theorem ChecksTable.of_one_phase {p : Phase} (hp : phaseAllows i s = (s.phase == p))
    (h : exec i s = unlessFaulted s (requirePhase [p] (encode i) s body)) (hb : Avoids .sequence s body) : ChecksTable i s :=
  .of_phase (by simp [hp]) h hb

/-- The reads of NODE require every phase but COUNT, and their own check raises RANGE (R91, R92). -/
theorem ChecksTable.of_readNode {n : NodeIx} {value : Node → Word64} (hp : phaseAllows i s = (s.phase != .count))
    (h : exec i s = readNode (encode i) n value s) : ChecksTable i s := by
  refine .of_phase (by rw [hp]; cases s.phase <;> decide) h (.ite (.raise nofun) ?_)
  cases nodeAt s n with
  | none => exact .stop
  | some r => exact .rsp

/-- The reads of CODE require CODEV (R101, R102). -/
theorem ChecksTable.of_codev (hv : phaseAllows i s = s.codev)
    (h : exec i s = unlessFaulted s (requireCodev (encode i) s body)) (hb : Avoids .sequence s body) : ChecksTable i s :=
  ⟨body, hb, by rw [h, requireCodev, hv]⟩

end

/-- Past its phase check DEC raises no fault but INTEGRITY (R121). -/
theorem ChecksTable.dec (b : Byte) (s : State) : ChecksTable (.dec b) s := by
  refine .of_one_phase rfl rfl (.ite .rsp ?_)
  cases nodeAt s s.root with
  | none => exact .stop
  | some n =>
    cases n with
    | leaf sym f => exact .ite (.raise nofun) .rsp
    | internal f l r =>
      simp only [decodeWalk]
      cases decodeBits (byteBits b) s with
      | error e => exact .stop
      | ok a => exact .rsp

/-- WRREG takes ORIGLEN's number and BITLIMIT's (R66). -/
theorem wellFormed_wrreg_iff (r : Byte) (v : Word64) : (Instr.wrreg r v).wellFormed = true ↔ r = 6 ∨ r = 7 := by
  simp [Instr.wellFormed]

/-- Every well-formed command but NOP, CLR and RDREG checks R134's table. -/
theorem checksTable (i : Instr) (s : State) (hi : i.wellFormed = true) (hr : runsFaulted i = false) : ChecksTable i s := by
  cases i with
  | nop | clr | rdreg => cases hr
  | wrreg r v =>
    have hp : (s.phase != .decode) = true ↔ s.phase ∈ [Phase.count, .built, .coded, .done] := by cases s.phase <;> decide
    exact .of_phase hp (if_pos ((wellFormed_wrreg_iff r v).1 hi)) .rsp
  | acc b => exact .of_one_phase rfl rfl (.ite (.raise nofun) .rsp)
  | ldf b f => exact .of_one_phase rfl rfl (.ite (.raise nofun) (.ite (.raise nofun) (.ite (.raise nofun) .rsp)))
  | rdf b => exact ⟨_, .rsp, rfl⟩
  | build =>
    refine .of_one_phase rfl rfl (.ite (.raise nofun) ?_)
    cases (buildTree s).2 with
    | nil => exact .stop
    | cons r rest => exact .rsp
  | rdnf n | rdnl n => exact .of_readNode rfl rfl
  | gen =>
    refine .of_one_phase rfl rfl ?_
    cases generateCodes s with
    | error e => exact .stop
    | ok t => exact .rsp
  | rdcl b | rdcb b j => exact .of_codev rfl rfl .rsp
  | enc b => exact .of_one_phase rfl rfl (.ite (.raise nofun) (.ite (.raise nofun) .rsp))
  | flush => exact .of_one_phase rfl rfl .rsp
  | decbeg => exact .of_phase (phases := [.built, .coded]) (by simp [phaseAllows]) rfl (.ite (.raise nofun) .rsp)
  | dec b => exact .dec b s
  | decend => exact .of_one_phase rfl rfl (.ite (.raise nofun) .rsp)

/-- NOP, CLR and RDREG, which pass no check, end normally in every state (R130 to R132). -/
theorem exists_completes_of_runsFaulted (i : Instr) (s : State) (hi : i.wellFormed = true) (hr : runsFaulted i = true) :
    ∃ t v, Completes i s t v [] := by
  cases i with
  | nop => exact ⟨_, _, (Effect.nop s).completes⟩
  | clr => exact ⟨_, _, (Effect.clr s).completes⟩
  | rdreg r =>
    obtain ⟨v, hv⟩ := exists_registerValue s (of_decide_eq_true hi)
    exact ⟨_, v, (Effect.rdreg s r v hv).completes⟩
  | _ => cases hr

theorem phaseAllows_of_runsFaulted {i : Instr} (s : State) (hr : runsFaulted i = true) : phaseAllows i s = true := by
  cases i with
  | nop | clr | rdreg => rfl
  | _ => cases hr

/-- A normal end is no fault. -/
theorem Completes.avoids {i : Instr} {s t : State} {v : Word64} {out : List Byte} (h : Completes i s t v out) (c : Cause) :
    Avoids c s (exec i s) := by
  obtain ⟨u, -, rfl⟩ := h.effect
  rw [h.1]
  exact .respond u out nofun

/-! ### The statements -/

/-- Settles O14: the commands that run faulted end normally in every state, and every other checks the fault record, then the
table. -/
theorem legalPhaseTable : Obligations.LegalPhaseTable := by
  unfold Obligations.LegalPhaseTable
  intro i s hi
  cases hr : runsFaulted i with
  | true =>
    obtain ⟨t, v, h⟩ := exists_completes_of_runsFaulted i s hi hr
    have hallows := phaseAllows_of_runsFaulted s hr
    exact ⟨fun _ hno => absurd (hallows.symm.trans hno) nofun, fun _ _ => (h.avoids _).not_raises,
      fun _ _ _ => ⟨t, v, h⟩, nofun⟩
  | false =>
    obtain ⟨body, hbody, h⟩ := checksTable i s hi hr
    refine ⟨fun hf hno => .of_exec hf ?_, fun hf hyes => Avoids.not_raises ?_, nofun, fun c hf _ => .of_unlessFaulted hf h⟩
    · rw [h, unlessFaulted_of_none _ _ hf, hno, if_neg Bool.false_ne_true]
    · rwa [h, unlessFaulted_of_none _ _ hf, if_pos hyes]

/-- Settles O18: CLR's effect is the block's reset, after which every register reads what it reads at reset. -/
theorem clrRestoresReset : Obligations.ClrRestoresReset := by
  unfold Obligations.ClrRestoresReset
  obtain ⟨hregister, hfreq, -⟩ := resetReadsZero
  exact ⟨by decide, fun s => ⟨_, (Effect.clr s).completes, rfl, rfl, fun r v h => hregister r v h, fun b => hfreq b⟩⟩

/-- Settles O19: the answer is the register of the number, read clause by clause; past 13 there is no register. -/
theorem rdregReadsRegister : Obligations.RdregReadsRegister := by
  unfold Obligations.RdregReadsRegister
  intro r s
  have hillegal (hr : 14 ≤ r.toNat) : exec (.rdreg r) s = illegalWord (encode (.rdreg r)) s := by
    rw [exec, execRdreg, (registerValue_eq_none_iff s r).2 hr]
  refine ⟨fun hr => decode_encode (i := .rdreg r) (decide_eq_true hr), fun hr => ?_,
    fun hr hf => .of_illegalWord hf (hillegal hr), fun hr c hf => .of_unlessFaulted hf (hillegal hr)⟩
  obtain ⟨v, hv⟩ := exists_registerValue s hr
  have read (k : Byte) {x : Word64} (hx : registerValue s k = some x) (hk : r = k) : v = x :=
    Option.some.inj (hv.symm.trans (hk ▸ hx))
  have readNat (k : Byte) {n : Nat} (x : BitVec n) (hn : n ≤ 64) (hx : registerValue s k = some (x.setWidth 64))
      (hk : r = k) : v.toNat = x.toNat :=
    (congrArg BitVec.toNat (read k hx hk)).trans (BitVec.toNat_setWidth_of_le hn)
  refine ⟨_, v, (Effect.rdreg s r v hv).completes, rfl, fun hk => ?status, readNat 1 _ (by decide) rfl, read 2 rfl,
    readNat 3 _ (by decide) rfl, readNat 4 _ (by decide) rfl, readNat 5 _ (by decide) rfl, read 6 rfl, read 7 rfl,
    read 8 rfl, fun hk => ?pack, read 10 rfl, read 11 rfl, readNat 12 _ (by decide) rfl, read 13 rfl⟩
  case pack => rw [readNat 9 (packWord s) (by decide) rfl hk, toNat_packWord]
  case status =>
    rw [readNat 0 (statusWord s) (by decide) rfl hk, toNat_statusWord]
    refine congrArg₂ (· + ·) (congrArg₂ (· + ·) (congrArg₂ (· + ·) ?phase ?codev) ?fault) ?excess
    case phase => cases s.phase <;> rfl
    case codev => cases s.codev <;> rfl
    case fault => rcases s.fault with _ | ⟨_ | _⟩ <;> rfl
    case excess => cases s.excess <;> rfl

/-- Settles O20: past ILLEGAL and the phase check WRREG's effect applies, which writes one of the two limits. -/
theorem wrregWritesLimit : Obligations.WrregWritesLimit := by
  unfold Obligations.WrregWritesLimit
  intro r v s hf
  refine ⟨fun hr => decode_encode (i := .wrreg r v) ((wellFormed_wrreg_iff r v).2 hr), fun h6 h7 => ?_, fun hr hp => ?_,
    ?_, ?_⟩
  · exact .of_illegalWord hf (if_neg (not_or.2 ⟨h6, h7⟩))
  · exact .of_phase (phases := [.count, .built, .coded, .done]) hf (by rw [hp]; decide) (if_pos hr)
  · rintro rfl hp
    exact ⟨_, (Effect.wrreg s 6 v hf (.inl rfl) hp).completes, rfl⟩
  · rintro rfl hp
    exact ⟨_, (Effect.wrreg s 7 v hf (.inr rfl) hp).completes, rfl⟩

/-- Settles O17: NOP's effect applies in every state and updates nothing. -/
theorem nopDoesNothing : Obligations.NopDoesNothing := by
  unfold Obligations.NopDoesNothing
  exact ⟨by decide, fun s => ⟨_, (Effect.nop s).completes, rfl⟩⟩

end Sys2Proof.Machine

/-! SUPPORT. 60_exceptions.md: illegal words (R142), fault entry (R140, R145), refusal and the quiescent faulted state (R146,
R153), `fault_o` (R150), and the steps without a command (R160, R170). -/

namespace Sys2Proof.Machine

/-! ### The faulted state (R146, R153) -/

/-- R146: every command but NOP, CLR and RDREG first checks that no fault is recorded. -/
theorem exec_eq_unlessFaulted {i : Instr} (s : State) (hr : runsFaulted i = false) :
    ∃ body, exec i s = unlessFaulted s body := by
  cases hw : i.wellFormed with
  | true =>
    obtain ⟨body, -, h⟩ := checksTable i s hw hr
    exact ⟨_, h⟩
  | false =>
    cases i with
    | wrreg r v => exact ⟨_, if_neg fun h => absurd ((wellFormed_wrreg_iff r v).2 h) (ne_true_of_eq_false hw)⟩
    | nop | clr | rdreg => cases hr
    | _ => cases hw

/-- In the faulted state the only effects are CLR's and those that update nothing and emit no byte. -/
theorem Effect.eq_of_faulted {i : Instr} {s u : State} {v : Word64} {out : List Byte} (h : Effect i s u v out)
    (hf : s.fault ≠ none) (hc : i ≠ .clr) : u = s ∧ out = [] := by
  cases h with
  | clr => exact absurd rfl hc
  | nop | rdreg => exact ⟨rfl, rfl⟩
  | _ => exact absurd ‹s.fault = none› hf

/-- From `s` to `t` no register and no table changes and no byte leaves (R153). -/
structure Quiescent (s t : State) : Prop where
  frame : t = { s with pending := t.pending, sent := t.sent }
  outStream_eq : outStream t = outStream s

theorem Quiescent.refl (s : State) : Quiescent s s := ⟨rfl, rfl⟩

/-- What is quiescent once an input is taken was quiescent before: the queue of inputs is not the block's. -/
theorem Quiescent.of_inputTaken {s t : State} {rest : List HostInput} (h : Quiescent { s with pending := rest } t) :
    Quiescent s t := ⟨h.frame, h.outStream_eq⟩

theorem Quiescent.fault_eq {s t : State} (h : Quiescent s t) : t.fault = s.fault := by
  rw [h.frame]

theorem quiescent_respond (s : State) (r : Response) : Quiescent s (respond s r []) :=
  ⟨rfl, (outStream_append s _ [] r rfl).trans (List.append_nil _)⟩

theorem Refused.quiescent {c : Cause} {s t : State} (h : Refused c s t) : Quiescent s t := by
  have ht : t = respond s ⟨some c, 0⟩ [] := by simpa [respond, Refused] using h
  exact ht ▸ quiescent_respond s _

/-- In the faulted state a command other than CLR, refused or not, is quiescent. -/
theorem Ends.quiescent {i : Instr} {s t : State} (h : Ends i s t) (hf : s.fault ≠ none) (hc : i ≠ .clr) : Quiescent s t := by
  cases h with
  | refused c _ _ hr => exact hr.quiescent
  | faulted c hn _ => exact absurd hn hf
  | normal u v out he ht =>
    obtain ⟨rfl, rfl⟩ := he.eq_of_faulted hf hc
    exact ht ▸ quiescent_respond u _

/-! ### Precise faults (R140) -/

/-- A response sent last is the last event. -/
theorem response_eq_of_getLast? {es es' : List PortEvent} {r r' : Response} (h : es = es' ++ [.response r'])
    (hlast : es.getLast? = some (.response r)) : r' = r := by
  simpa [h] using hlast

/-- `t` is `s` but for the fault record, in which the cause is `c`, and the one response `err = 1`, cause `c`, value 0 (R140). -/
structure Precise (c : Cause) (s t : State) : Prop where
  frame : t = { s with fault := t.fault, finfo := t.finfo, fimm := t.fimm, sent := t.sent }
  sent_eq : t.sent = s.sent ++ [.response ⟨some c, 0⟩]
  fault_eq : t.fault = some c

theorem FaultEntered.precise {w : CmdWord} {c : Cause} {s t : State} (h : FaultEntered w c s t) : Precise c s t := by
  obtain ⟨hframe, hfault, -, -, -, hsent⟩ := h
  exact ⟨hframe, hsent, hfault⟩

theorem Refused.precise {c : Cause} {s t : State} (h : Refused c s t) (hf : s.fault = some c) : Precise c s t := by
  subst h
  exact ⟨rfl, rfl, hf⟩

/-- A command ends precisely, with a cause its response carries, or its response carries none. -/
theorem Ends.precise_or {i : Instr} {s t : State} (h : Ends i s t) :
    (∃ c, Precise c s t) ∨ ∃ es v, t.sent = es ++ [.response ⟨none, v⟩] := by
  cases h with
  | refused c _ hf hr => exact .inl ⟨c, hr.precise hf⟩
  | faulted c _ hf => exact .inl ⟨c, hf.precise⟩
  | normal u v out _ ht => exact .inr ⟨_, v, congrArg State.sent ht⟩

/-! ### `fault_o` (R150) -/

theorem faultO_iff (s : State) : faultO s = true ↔ s.fault ≠ none := by
  unfold faultO
  cases s.fault with
  | none => decide
  | some c => cases c <;> decide

/-! ### The step without a command, and with an illegal word (R66, R160, R170) -/

theorem step_idle {s : State} (hp : s.pending = []) : step s = .next s := by
  rw [step, hp, idle]

theorem step_reset {s : State} {rest : List HostInput} (hp : s.pending = .reset :: rest) :
    step s = .next (blockReset { s with pending := rest }) := by
  rw [step, hp]
  rfl

theorem step_illegal {s : State} {w : CmdWord} {rest : List HostInput} {e : Illegal} (hp : s.pending = .command w :: rest)
    (hd : decode w = .error e) : step s = illegalWord w { s with pending := rest } := by
  simp only [step, hp, hd]

/-- An unfaulted block raises ILLEGAL for an illegal word (R142). -/
theorem illegalWord_entered (w : CmdWord) {s : State} (hf : s.fault = none) :
    ∃ t, illegalWord w s = .next t ∧ FaultEntered w .illegal s t := by
  rw [illegalWord, unlessFaulted_of_none s _ hf]
  exact raise_entered w .illegal s hf

/-! ### The statements -/

/-- Settles O7: the step answers as the dispatch answers an illegal word, by fault entry or, when faulted, by refusal. -/
theorem illegalWordRaisesIllegal : Obligations.IllegalWordRaisesIllegal := by
  unfold Obligations.IllegalWordRaisesIllegal
  intro s w rest e hp hd
  rw [step_illegal hp hd]
  exact ⟨fun hf => illegalWord_entered w hf, fun c hf => unlessFaulted_of_some _ _ c hf⟩

/-- Settles O10: every such command goes through the dispatch's first check. -/
theorem faultedBlockRefuses : Obligations.FaultedBlockRefuses := by
  unfold Obligations.FaultedBlockRefuses
  intro s c i hf hr
  obtain ⟨body, h⟩ := exec_eq_unlessFaulted s hr
  exact .of_unlessFaulted hf h

/-- Settles O11: an idle step is quiescent, so is a command other than CLR, and only CLR's word decodes to CLR; an illegal word
is refused. -/
theorem faultedStateIsQuiescent : Obligations.FaultedStateIsQuiescent := by
  unfold Obligations.FaultedStateIsQuiescent
  intro s t hf hstep hreset hclr
  suffices h : Quiescent s t from ⟨h.frame, h.outStream_eq⟩
  rcases step_cases s t hstep with
    ⟨_, rfl⟩ | ⟨rest, hp, _⟩ | ⟨w, rest, i, hp, hd, he⟩ | ⟨w, rest, e, hp, hd, ⟨c, _, hr⟩ | ⟨hn, _⟩⟩
  · exact .refl t
  · exact absurd hp (hreset rest)
  · have hi : i ≠ .clr := by
      rintro rfl
      exact hclr rest ((decodedWordIsTheEncoding w .clr hd).1 ▸ hp)
    exact (he.quiescent hf hi).of_inputTaken
  · exact hr.quiescent.of_inputTaken
  · exact absurd hn hf

/-- Settles O12: the cause in the last response tells fault entry and refusal, which are precise, from a normal end. -/
theorem faultsArePrecise : Obligations.FaultsArePrecise := by
  unfold Obligations.FaultsArePrecise
  intro i s t c r he hlast hr
  rcases (exec_ends i s t he).precise_or with ⟨c', h⟩ | ⟨es, v, hsent⟩
  · obtain rfl := response_eq_of_getLast? h.sent_eq hlast
    obtain rfl : c' = c := Option.some.inj hr
    exact ⟨h.frame, h.sent_eq, h.fault_eq⟩
  · obtain rfl := response_eq_of_getLast? hsent hlast
    cases hr

/-- Settles O16: fault entry records a cause, and a command other than CLR keeps the cause of a faulted block. -/
theorem faultOutputLevel : Obligations.FaultOutputLevel := by
  unfold Obligations.FaultOutputLevel
  refine ⟨faultO_iff, fun i s c h => ?raised, fun i s t he hs ht => ?dropped⟩
  case raised =>
    obtain ⟨t, ht, -, hfault, -⟩ := h
    exact ⟨t, ht, (faultO_iff t).2 (hfault ▸ nofun)⟩
  case dropped =>
    by_contra hc
    have hf := (faultO_iff s).1 hs
    have hkept : t.fault = s.fault := ((exec_ends i s t he).quiescent hf hc).fault_eq
    exact absurd ((faultO_iff t).2 (hkept ▸ hf)) (ne_true_of_eq_false ht)

/-- Settles O8: the two steps' equations; CLR's effect is the same block reset. -/
theorem idleAndResetSteps : Obligations.IdleAndResetSteps := by
  unfold Obligations.IdleAndResetSteps
  refine ⟨fun s => step_idle, fun s rest hp => ⟨_, step_reset hp, rfl, rfl, rfl, rfl, fun u hu => ?_⟩⟩
  cases (Effect.clr s).completes.1.symm.trans hu
  rfl

end Sys2Proof.Machine

/-! SUPPORT. 70_reset_and_hazards.md: what NODE holds before BUILD and CODE before GEN cannot be seen (R171). -/

namespace Sys2Proof.Machine

/-! ### States and answers that differ only in tables no command may read (R20, R23) -/

/-- The same block with other contents of NODE and CODE. -/
def State.withTables (s : State) (ns : List Node) (cs : Table (List Bool)) : State := { s with nodes := ns, code := cs }

/-- The same block with other contents of CODE. -/
abbrev State.withCode (s : State) (cs : Table (List Bool)) : State := s.withTables s.nodes cs

/-- `t` is `s` but for NODE, where `seen` does not hold of the phase, and for CODE, while CODEV is 0. -/
structure Alike (seen : Phase → Prop) (s t : State) : Prop where
  frame : t = s.withTables t.nodes t.code
  nodes_eq : seen s.phase → t.nodes = s.nodes
  code_eq : s.codev = true → t.code = s.code

/-- If the answer `a` is a next state, then `a'` is a next state alike. -/
def Agrees (seen : Phase → Prop) (a a' : Result) : Prop := ∀ t, a = .next t → ∃ u, a' = .next u ∧ Alike seen t u

section
variable {seen : Phase → Prop} {s : State} {ns : List Node} {cs : Table (List Bool)}

theorem Alike.refl (seen : Phase → Prop) (s : State) : Alike seen s s := ⟨rfl, fun _ => rfl, fun _ => rfl⟩

theorem Alike.of_codev (hc : s.codev = false) (hn : seen s.phase → ns = s.nodes) : Alike seen s (s.withTables ns cs) :=
  ⟨rfl, hn, fun h => absurd h (ne_true_of_eq_false hc)⟩

theorem Agrees.stop (e : Fault) (a : Result) : Agrees seen (.fault e) a :=
  fun _ h => nomatch h

theorem ite_agrees {p : Prop} [Decidable p] {a b a' b' : Result} (ha : Agrees seen a a') (hb : Agrees seen b b') :
    Agrees seen (if p then a else b) (if p then a' else b') := by
  split
  · exact ha
  · exact hb

theorem respond_agrees {t u : State} (r : Response) (out : List Byte) (h : Alike seen t u) :
    Agrees seen (.next (respond t r out)) (.next (respond u r out)) := by
  rintro _ ⟨⟩
  exact ⟨_, rfl, congrArg (respond · r out) h.frame, h.nodes_eq, h.code_eq⟩

theorem rsp_agrees {t u : State} {v : Word64} {out : List Byte} (h : Alike seen t u) :
    Agrees seen (rsp v out t) (rsp v out u) :=
  respond_agrees _ _ h

/-! ### DEC's walk reads NODE and not CODE (R121) -/

theorem decodeBit_withCode (b : Bool) (s : State) :
    decodeBit b (s.withCode cs) = (decodeBit b s).map fun r => (r.1.withCode cs, r.2) := by
  have hn (i : NodeIx) : nodeAt (s.withCode cs) i = nodeAt s i := rfl
  have hc : (s.withCode cs).cursor = s.cursor := rfl
  simp only [decodeBit, hn, hc]
  cases nodeAt s s.cursor with
  | none => rfl
  | some n => rcases h : nodeAt s (n.child b) with _ | (_ | _) <;> simp only [h] <;> rfl

theorem decodeBits_withCode (bits : List Bool) (s : State) :
    decodeBits bits (s.withCode cs) = (decodeBits bits s).map fun r => (r.1.withCode cs, r.2) := by
  induction bits generalizing s with
  | nil => rfl
  | cons b bits ih =>
    have hs : stopped (s.withCode cs) = stopped s := rfl
    simp only [decodeBits, hs, decodeBit_withCode]
    split
    · rfl
    · rcases decodeBit b s with e | ⟨s', out⟩
      · rfl
      · simp only [Except.map, ih]
        cases decodeBits bits s' <;> rfl

theorem decodeWalk_agrees (h : Alike seen s (s.withCode cs)) (b : Byte) :
    Agrees seen (decodeWalk b s) (decodeWalk b (s.withCode cs)) := by
  simp only [decodeWalk, decodeBits_withCode]
  cases hd : decodeBits (byteBits b) s with
  | error e => exact .stop _ _
  | ok r =>
    refine rsp_agrees ⟨rfl, fun _ => rfl, ?_⟩
    rw [decodeBits_frame _ _ _ _ hd]
    exact h.code_eq

/-! ### The dispatch's checks read neither table -/

section
variable (h : Alike seen s (s.withTables ns cs))
include h

theorem Alike.recordFault (w : CmdWord) (c : Cause) :
    Alike seen (recordFault w c s) (recordFault w c (s.withTables ns cs)) := by
  cases hf : s.fault with
  | none => simpa [Machine.recordFault, State.withTables, hf] using ⟨rfl, h.nodes_eq, h.code_eq⟩
  | some c' => simpa [Machine.recordFault, State.withTables, hf] using h

theorem raise_agrees (w : CmdWord) (c : Cause) : Agrees seen (raise w c s) (raise w c (s.withTables ns cs)) :=
  respond_agrees _ _ (h.recordFault w c)

theorem unlessFaulted_agrees {body body' : Result} (hb : Agrees seen body body') :
    Agrees seen (unlessFaulted s body) (unlessFaulted (s.withTables ns cs) body') := by
  have hf : (s.withTables ns cs).fault = s.fault := rfl
  unfold unlessFaulted
  rw [hf]
  cases s.fault with
  | none => exact hb
  | some c => exact respond_agrees _ _ h

theorem illegalWord_agrees (w : CmdWord) : Agrees seen (illegalWord w s) (illegalWord w (s.withTables ns cs)) :=
  unlessFaulted_agrees h (raise_agrees h w .illegal)

/-- Past the phase check the phase is one of those required. -/
theorem requirePhase_agrees {phases : List Phase} (w : CmdWord) {body body' : Result}
    (hb : s.phase ∈ phases → Agrees seen body body') :
    Agrees seen (requirePhase phases w s body) (requirePhase phases w (s.withTables ns cs) body') := by
  by_cases hp : s.phase ∈ phases
  · exact ite_agrees (hb hp) (raise_agrees h w .sequence)
  · simpa [requirePhase, State.withTables, hp] using raise_agrees h w .sequence

/-- Past the CODEV check CODE is the same. -/
theorem requireCodev_agrees (w : CmdWord) {body body' : Result} (hb : cs = s.code → Agrees seen body body') :
    Agrees seen (requireCodev w s body) (requireCodev w (s.withTables ns cs) body') := by
  by_cases hc : s.codev = true
  · exact ite_agrees (hb (h.code_eq hc)) (raise_agrees h w .sequence)
  · simpa [requireCodev, State.withTables, hc] using raise_agrees h w .sequence

/-! ### The commands, where NODE is seen in every phase but COUNT -/

variable (hseen : ∀ p, p ≠ .count → seen p)
include hseen

/-- Past the phase check of a command that COUNT does not allow, NODE is the same. -/
theorem requireTree_agrees {phases : List Phase} (hcount : .count ∉ phases) (w : CmdWord) {body body' : Result}
    (hb : ns = s.nodes → Agrees seen body body') :
    Agrees seen (requirePhase phases w s body) (requirePhase phases w (s.withTables ns cs) body') :=
  requirePhase_agrees h w fun hp => hb (h.nodes_eq (hseen _ fun e => hcount (e ▸ hp)))

theorem readNode_agrees (w : CmdWord) (i : NodeIx) (value : Node → Word64) :
    Agrees seen (readNode w i value s) (readNode w i value (s.withTables ns cs)) := by
  refine unlessFaulted_agrees h (requireTree_agrees h hseen (by decide) w ?_)
  rintro rfl
  have hn : nodeAt (s.withCode cs) i = nodeAt s i := rfl
  refine ite_agrees (raise_agrees h w .range) ?_
  rw [hn]
  cases nodeAt s i with
  | none => exact .stop _ _
  | some n => exact rsp_agrees h

theorem execDec_agrees (b : Byte) : Agrees seen (execDec b s) (execDec b (s.withTables ns cs)) := by
  refine unlessFaulted_agrees h (requireTree_agrees h hseen (by decide) _ ?_)
  rintro rfl
  have hn : nodeAt (s.withCode cs) (s.withCode cs).root = nodeAt s s.root := rfl
  refine ite_agrees (rsp_agrees ⟨rfl, h.nodes_eq, h.code_eq⟩) ?_
  rw [hn]
  rcases nodeAt s s.root with _ | (_ | _)
  · exact .stop _ _
  · exact ite_agrees (raise_agrees h _ _) (rsp_agrees ⟨rfl, h.nodes_eq, h.code_eq⟩)
  · exact decodeWalk_agrees h b

/-- R171: a command answers alike in states alike. -/
theorem exec_agrees (hv : CodevInv s) (i : Instr) : Agrees seen (exec i s) (exec i (s.withTables ns cs)) := by
  cases i with
  | nop => exact rsp_agrees h
  | clr => exact rsp_agrees (.refl seen (blockReset s))
  | rdreg r =>
    have hr : registerValue (s.withTables ns cs) r = registerValue s r := rfl
    simp only [exec, execRdreg, hr]
    cases registerValue s r with
    | some v => exact rsp_agrees h
    | none => exact illegalWord_agrees h _
  | wrreg r v =>
    refine ite_agrees (unlessFaulted_agrees h (requirePhase_agrees h _ fun _ => rsp_agrees ?_)) (illegalWord_agrees h _)
    unfold writeLimit
    split <;> exact ⟨rfl, h.nodes_eq, h.code_eq⟩
  | acc b =>
    exact unlessFaulted_agrees h (requirePhase_agrees h _ fun _ => ite_agrees (raise_agrees h _ _)
      (rsp_agrees ⟨rfl, h.nodes_eq, h.code_eq⟩))
  | ldf b f =>
    exact unlessFaulted_agrees h (requirePhase_agrees h _ fun _ => ite_agrees (raise_agrees h _ _)
      (ite_agrees (raise_agrees h _ _) (ite_agrees (raise_agrees h _ _) (rsp_agrees ⟨rfl, h.nodes_eq, h.code_eq⟩))))
  | rdf b => exact unlessFaulted_agrees h (rsp_agrees h)
  | build =>
    refine unlessFaulted_agrees h (requirePhase_agrees h _ fun _ => ite_agrees (raise_agrees h _ _) ?_)
    have ht : buildTree (s.withTables ns cs) = buildTree s := rfl
    rw [ht]
    cases (buildTree s).2 with
    | nil => exact .stop _ _
    | cons r rest => exact rsp_agrees ⟨rfl, fun _ => rfl, h.code_eq⟩
  | rdnf n | rdnl n => exact readNode_agrees h hseen _ n _
  | gen =>
    refine unlessFaulted_agrees h (requireTree_agrees h hseen (by decide) _ ?_)
    rintro rfl
    have hg : generateCodes (s.withCode cs) = generateCodes s := rfl
    rw [hg]
    cases generateCodes s with
    | error e => exact .stop _ _
    | ok t => exact rsp_agrees ⟨rfl, fun _ => rfl, fun _ => rfl⟩
  | rdcl b | rdcb b j =>
    refine unlessFaulted_agrees h (requireCodev_agrees h _ ?_)
    rintro rfl
    exact rsp_agrees h
  | enc b =>
    refine unlessFaulted_agrees h (requirePhase_agrees h _ fun hp => ?_)
    obtain rfl : cs = s.code := h.code_eq (hv.coded (List.mem_singleton.1 hp))
    exact ite_agrees (raise_agrees h _ _) (ite_agrees (raise_agrees h _ _) (rsp_agrees ⟨rfl, h.nodes_eq, h.code_eq⟩))
  | flush =>
    refine unlessFaulted_agrees h (requireTree_agrees h hseen (by decide) _ ?_)
    rintro rfl
    exact rsp_agrees ⟨rfl, fun _ => rfl, h.code_eq⟩
  | decbeg | decend =>
    refine unlessFaulted_agrees h (requireTree_agrees h hseen (by decide) _ ?_)
    rintro rfl
    exact ite_agrees (raise_agrees h _ _) (rsp_agrees ⟨rfl, fun _ => rfl, h.code_eq⟩)
  | dec b => exact execDec_agrees h hseen b

end

end

/-! ### The statement -/

/-- Settles O43: commands answer alike, once with NODE seen in every phase but COUNT and once with NODE seen in every phase; in
both parts CODEV is 0. -/
theorem unspecifiedTablesUnobservable : Obligations.UnspecifiedTablesUnobservable := by
  unfold Obligations.UnspecifiedTablesUnobservable
  refine ⟨fun i s t ns cs hv hp he => ?count, fun i s t cs hv hc he => ?codev⟩
  case count =>
    have h : Alike (· ≠ .count) s (s.withTables ns cs) := .of_codev (hv.early (.inl hp)) (absurd hp)
    obtain ⟨u, hu, hframe, hnodes, -⟩ := exec_agrees h (fun _ => id) hv i t he
    exact ⟨u, hu, hframe, hnodes⟩
  case codev =>
    have h : Alike (fun _ => True) s (s.withCode cs) := .of_codev hc fun _ => rfl
    obtain ⟨u, hu, hframe, hnodes, hcode⟩ := exec_agrees h (fun _ _ => trivial) hv i t he
    exact ⟨u, hu, by rw [hframe, hnodes trivial]; rfl, hcode⟩

end Sys2Proof.Machine

/-! SUPPORT. 10_state.md section 3: every step keeps the lists that hold FREQ and CODE in canonical form (logs 8 and 14). -/

namespace Sys2Proof.Machine

/-- The canonical form depends on FREQ and CODE alone. -/
theorem memoryWf_congr {s t : State} (hs : s.memoryWf) (hf : t.freq = s.freq) (hc : t.code = s.code) : t.memoryWf :=
  ⟨hf ▸ hs.1, hc ▸ hs.2⟩

/-- GEN's table is canonical, whatever the tree: it starts empty, and one write or the walk fills it (R100). -/
theorem generateCodes_wf {s : State} {t : Table (List Bool)} (h : generateCodes s = .ok t) : tableWf Config.symbols [] t := by
  have hnil := tableWf_nil Config.symbols ([] : List Bool)
  unfold generateCodes at h
  split at h
  case h_1 => cases h
  case h_2 b _ _ => cases h; exact tableWrite_wf _ _ _ _ _ b.isLt hnil
  case h_3 => exact walk_wf _ _ _ _ _ _ h hnil

/-- FREQ changes by ACC's and LDF's one write, CODE by GEN's table, and CLR empties both (R22, R23). -/
theorem Effect.keeps_memoryWf {i : Instr} {s u : State} {v : Word64} {out : List Byte} (h : Effect i s u v out)
    (hs : s.memoryWf) : u.memoryWf := by
  obtain ⟨hfreq, hcode⟩ := hs
  cases h with
  | clr => exact reset_memoryWf
  | acc _ b => exact ⟨tableWrite_wf _ _ _ _ _ b.isLt hfreq, hcode⟩
  | ldf _ b => exact ⟨tableWrite_wf _ _ _ _ _ b.isLt hfreq, hcode⟩
  | gen _ t _ _ hg => exact ⟨hfreq, generateCodes_wf hg⟩
  | wrreg => exact memoryWf_congr ⟨hfreq, hcode⟩ (by simp) (by simp)
  | decWalk _ _ _ _ _ _ _ _ hd => rw [decodeBits_frame _ _ _ _ hd]; exact ⟨hfreq, hcode⟩
  | _ => exact ⟨hfreq, hcode⟩

/-- Settles O46: reset empties both lists, a fault or a refusal leaves them, and every command's own effect keeps their form. -/
theorem stepKeepsTablesCanonical : Obligations.StepKeepsTablesCanonical := by
  unfold Obligations.StepKeepsTablesCanonical
  exact step_keeps State.memoryWf (fun _ _ e hs => memoryWf_congr hs (by rw [e]) (by rw [e])) reset_memoryWf
    fun _ _ _ _ _ => Effect.keeps_memoryWf

end Sys2Proof.Machine
